-- ==== Sys2Proof/Word.lean ====
section
/-! DEFINITION. The word and the byte of the engine.
Every register, mask and operand is 32 bits wide (00_scope.md R6); a memory cell is one byte
(10_state.md R30 to R32).  Nothing in the engine is signed (00_scope.md R8, R11). -/

namespace Sys2Proof

/-- A register's contents: 32 bits, unsigned (R6, R8). -/
abbrev Word := BitVec 32

/-- One byte of GRID, PBUF or MSG (R30 to R32). -/
abbrev Byte := BitVec 8

end Sys2Proof
end

