-- ==== Sys2Proof/Config.lean ====
section
/-! DEFINITION. What an instance of the engine fixes (00_scope.md R7) and the free values.
The three sizes are plain data, carried in State and changed by no step, so that a statement about
every state is a statement about every size.  A free value is a constant without a body: no proof
can see what it is. -/

namespace Sys2Proof

/-- The three memory spaces (10_state.md R30 to R32).  The register window REG is a fourth space that
no command can reach (R33); it has no bytes of its own. -/
inductive Space where
  | grid
  | pbuf
  | msg
deriving DecidableEq, Repr

/-- The open sizes of R7 (decision D3).  RNG, the fourth open parameter, is `Config.randomBit` with
State's `randomFeed`; the base addresses are read by no rule (R76, log entry 16). -/
structure Params where
  /-- GRID_PIXELS, the uniform pixels GRID holds. -/
  gridPixels : Nat
  /-- PBUF_BYTES, the size of the packed buffer. -/
  pbufBytes : Nat
  /-- MSG_BYTES, the size of the payload buffer. -/
  msgBytes : Nat
deriving DecidableEq, Repr

/-- The size of a space in bytes (R30 to R32). -/
def Params.size (p : Params) : Space → Nat
  | .grid => 4 * p.gridPixels
  | .pbuf => p.pbufBytes
  | .msg => p.msgBytes

/-- The sizes 95_test_vectors.md uses where it says nothing else (log entry 2, DESIGN CHOICE for
State.reset only). -/
def Params.vectors : Params := { gridPixels := 1024, pbufBytes := 4096, msgBytes := 512 }

/-- FREE VALUE: the byte a cell holds since power-up while nothing has written it
(70_reset_and_hazards.md R222, "any value"; log entry 1). -/
opaque Config.powerUpByte : Space → Nat → Byte

/-- FREE VALUE: the bit the random source answers at a draw position, once the bits a test supplies are
used up (10_state.md R34; log entry 3). -/
opaque Config.randomBit : Nat → Bool

/-- FREE VALUE: a byte that a command abandoned by a reset may have left behind, a fresh one for each
value of State's `freeCount` (70_reset_and_hazards.md R223; log entry 8). -/
opaque Config.freeByte : Nat → Byte

end Sys2Proof
end

