-- ==== Sys2Proof/Syntax.lean ====
section
/-! DEFINITION. The thirteen commands of the engine (30_encoding.md R93), one constructor per row of
spec/opcode_table.json.  A command word carries no operand, no register number and no immediate (R91),
so no constructor has a field. -/

namespace Sys2Proof

/-- A command of the engine, its counterpart of an instruction (30_encoding.md R93). -/
inductive Instr where
  /-- trailing zero count of OPB (R113) -/
  | tzc
  /-- the field of OPA that OPB selects, right-justified (R114) -/
  | extract
  /-- OPA shifted up to the field OPB selects (R115) -/
  | deposit
  /-- check the configuration and latch the derived values (R125) -/
  | frame
  /-- unpack one row (R145) -/
  | unpackr
  /-- pack one row (R146) -/
  | packr
  /-- unpack the whole image (R147) -/
  | unpack
  /-- pack the whole image (R148) -/
  | pack
  /-- rewind the scanner (R167) -/
  | srwd
  /-- write one bit at the scan position (R168) -/
  | sput
  /-- read one bit at the scan position (R169) -/
  | sget
  /-- embed a payload (R170) -/
  | swrite
  /-- extract a payload (R171) -/
  | sread
deriving DecidableEq, Repr

/-- The thirteen commands, in the table's order. -/
def Instr.all : List Instr :=
  [.tzc, .extract, .deposit, .frame, .unpackr, .packr, .unpack, .pack,
   .srwd, .sput, .sget, .swrite, .sread]

/-- The mnemonic of R93's table. -/
def Instr.mnemonic : Instr → String
  | .tzc => "TZC"
  | .extract => "EXTRACT"
  | .deposit => "DEPOSIT"
  | .frame => "FRAME"
  | .unpackr => "UNPACKR"
  | .packr => "PACKR"
  | .unpack => "UNPACK"
  | .pack => "PACK"
  | .srwd => "SRWD"
  | .sput => "SPUT"
  | .sget => "SGET"
  | .swrite => "SWRITE"
  | .sread => "SREAD"

end Sys2Proof
end

