-- ==== Sys2Proof/WellFormed.lean ====
section
/-! DEFINITION. Well-formedness.
A command has no operand, so every command is well-formed as syntax; what can be ill-formed is a command
word (30_encoding.md R93, R94) and a choice of the open parameters (00_scope.md R7).  The host's accesses
are checked where they are performed (Machine/Host.lean). -/

namespace Sys2Proof

/-- Every command is well-formed: it has no operand that could be out of range (R91). -/
def Instr.wf : Instr → Bool
  | .tzc | .extract | .deposit | .frame | .unpackr | .packr | .unpack | .pack
  | .srwd | .sput | .sget | .swrite | .sread => true

/-- The opcodes R93 assigns. -/
def opcodes : List Nat :=
  [0x01, 0x02, 0x03, 0x10, 0x20, 0x21, 0x22, 0x23, 0x30, 0x31, 0x32, 0x33, 0x34]

/-- R90: the field RSV, bits 31:8, is 0. -/
def reservedClear (w : Word) : Bool := w.extractLsb' 8 24 == 0#24

/-- R93: the field OP, bits 7:0, is one of the thirteen opcodes. -/
def opcodeAssigned (w : Word) : Bool := opcodes.contains (w.extractLsb' 0 8).toNat

/-- A command word that selects a command (R93); every other word is illegal (R94). -/
def commandWordWf (w : Word) : Bool := reservedClear w && opcodeAssigned w

/-- R7: 1 <= GRID_PIXELS <= 2^30. -/
def Params.gridLegal (p : Params) : Bool := 1 ≤ p.gridPixels && p.gridPixels ≤ 2 ^ 30

/-- R7: 4 <= PBUF_BYTES <= 2^32 - 1, a multiple of 4. -/
def Params.pbufLegal (p : Params) : Bool :=
  4 ≤ p.pbufBytes && p.pbufBytes ≤ 2 ^ 32 - 1 && p.pbufBytes % 4 == 0

/-- R7: MSG_BYTES >= floor((3 * GRID_PIXELS - 32) / 8) when 3 * GRID_PIXELS >= 32, and any size
otherwise. -/
def Params.msgLegal (p : Params) : Bool :=
  3 * p.gridPixels < 32 || (3 * p.gridPixels - 32) / 8 ≤ p.msgBytes

/-- The bounds of R7 on the open sizes. -/
def Params.legal (p : Params) : Bool := p.gridLegal && p.pbufLegal && p.msgLegal

end Sys2Proof
end

