-- ==== Sys2Proof/Decode.lean ====
section
/-! DEFINITION. Decoding a command word and encoding a command (30_encoding.md R90 to R94).
A command is a word the host writes to CMD, not bytes in a memory, so there is no byte order to settle
(20_memory.md R63). -/

namespace Sys2Proof

/-- Why a command word selects no command (30_encoding.md R94).  Both ways complete with the error kind
IllegalCommand. -/
inductive DecodeError where
  /-- bits 31:8 are not all zero -/
  | reservedBits (field : BitVec 24)
  /-- bits 7:0 are none of the thirteen opcodes -/
  | unassignedOpcode (op : Byte)
deriving DecidableEq, Repr

/-- The command an opcode selects (R93). -/
def decodeOpcode (op : Byte) : Option Instr :=
  match op.toNat with
  | 0x01 => some .tzc
  | 0x02 => some .extract
  | 0x03 => some .deposit
  | 0x10 => some .frame
  | 0x20 => some .unpackr
  | 0x21 => some .packr
  | 0x22 => some .unpack
  | 0x23 => some .pack
  | 0x30 => some .srwd
  | 0x31 => some .sput
  | 0x32 => some .sget
  | 0x33 => some .swrite
  | 0x34 => some .sread
  | _ => none

/-- Decoding, total on every word: `word[31:8] = 0` and `word[7:0]` an assigned opcode (R93); every other
word is rejected by name (R94, R95). -/
def decode (w : Word) : Except DecodeError Instr :=
  if w.extractLsb' 8 24 ≠ 0#24 then .error (.reservedBits (w.extractLsb' 8 24))
  else match decodeOpcode (w.extractLsb' 0 8) with
    | some i => .ok i
    | none => .error (.unassignedOpcode (w.extractLsb' 0 8))

/-- The opcode of a command, from R93's table. -/
def opcode : Instr → Byte
  | .tzc => 0x01
  | .extract => 0x02
  | .deposit => 0x03
  | .frame => 0x10
  | .unpackr => 0x20
  | .packr => 0x21
  | .unpack => 0x22
  | .pack => 0x23
  | .srwd => 0x30
  | .sput => 0x31
  | .sget => 0x32
  | .swrite => 0x33
  | .sread => 0x34

/-- The command word: the opcode zero-extended (R93). -/
def encode (i : Instr) : Word := 0#24 ++ opcode i

/-- What `decode` reads from a word of `nbits` bits numbered as spec/opcode_table.json numbers them; bits
above `nbits` are zero, and a word that does not fit CMD's 32 bits is none. -/
def decodeTableWord (nbits w : Nat) : Option Instr :=
  if w % 2 ^ nbits < 2 ^ 32 then (decode (BitVec.ofNat 32 (w % 2 ^ nbits))).toOption else none

end Sys2Proof
end

