-- ==== Sys2Proof/Machine/State.lean ====
section
/-! DEFINITION. The state of the engine and of its surroundings, as plain data (10_state.md), and the
reasons a step can stop. -/

namespace Sys2Proof.Machine

open Sys2Proof

/-- The contents of one memory space: the bytes something has written since power-up, at strictly rising
addresses.  An unlisted address has no written byte; what reading it gives is the free value
`Config.powerUpByte` (70_reset_and_hazards.md R222; log entry 1). -/
abbrev Memory := List Host.Cell

/-- STATUS (10_state.md R36).  Bits 7:4 and 31:16 are reserved and read 0, so they are no data. -/
structure Status where
  /-- bit 0: a command is issued and not completed -/
  busy : Bool
  /-- bit 1: a command has completed and nothing has cleared the bit -/
  done : Bool
  /-- bit 2: the last completed command ended with an error -/
  err : Bool
  /-- bit 3: the last FRAME succeeded and the configuration is unchanged since -/
  cfgok : Bool
  /-- bits 15:8: the code of the error kind, or 0 -/
  errcode : BitVec 8
deriving DecidableEq, Repr

/-- The error kinds (60_exceptions.md R190).  The kinds that R190 marks "never" belong to parts of the
source that are out of scope (00_scope.md R4); they are named because their codes are reserved. -/
inductive ErrorKind where
  /-- FRAME: width or height below 1 -/
  | invalidDimensions
  /-- FRAME: depth not in the supported set -/
  | invalidDepth
  /-- never raised (palette) -/
  | colorCountExceeded
  /-- FRAME: the image does not fit GRID or PBUF -/
  | allocationFailure
  /-- never raised (transport) -/
  | formatError
  /-- never raised (transport) -/
  | readFailure
  /-- never raised (transport) -/
  | writeFailure
  /-- steganography on depth below 16 -/
  | unsupportedDepth
  /-- SWRITE: the encoded length exceeds capacity -/
  | payloadTooLarge
  /-- SREAD: the decoded length exceeds capacity -/
  | invalidLength
  /-- never raised (filters) -/
  | invalidChannel
  /-- the command word is not in the opcode map -/
  | illegalCommand
  /-- CFGOK = 0 when the command needs a framed engine -/
  | notConfigured
  /-- ROW >= HEIGHT -/
  | rowRange
  /-- SPOS >= units -/
  | scanEnd
deriving DecidableEq, Repr

/-- The 21 registers by name (10_state.md R23). -/
inductive Reg where
  | width | height | depth | rmask | gmask | bmask | amask
  | rowbytes | pad | stride | imgsize | cap
  | opa | opb | res | row | plen | spos
  | cmd | status | ctrl
deriving DecidableEq, Repr

/-- The width of a host access to the register window.  Only words have a meaning (10_state.md R42). -/
inductive AccessWidth where
  | byte
  | half
  | word
deriving DecidableEq, Repr

/-- One step of the host (10_state.md R22). -/
inductive HostAccess where
  /-- read the register window at an offset from REG_BASE -/
  | readReg (offset : Nat) (width : AccessWidth)
  /-- write the register window -/
  | writeReg (offset : Nat) (width : AccessWidth) (value : Word)
  /-- read `count` bytes of a space from an offset on -/
  | readMem (space : Space) (offset count : Nat)
  /-- write bytes of a space from an offset on -/
  | writeMem (space : Space) (offset : Nat) (bytes : List Byte)
  /-- assert `rst` (70_reset_and_hazards.md R220) -/
  | reset
deriving DecidableEq, Repr

/-- Whose step comes next (log entry 4). -/
inductive Turn where
  /-- the engine's -/
  | engine
  /-- the host's, with the access it makes -/
  | host (a : HostAccess)
deriving DecidableEq, Repr

/-- What the last host read returned (the model's own record; log entry 6). -/
inductive BusData where
  /-- no read yet -/
  | none
  /-- the word a register read returned -/
  | word (w : Word)
  /-- the bytes a memory read returned -/
  | bytes (l : List Byte)
deriving DecidableEq, Repr

/-- The whole state.  Registers first, in the order of their offsets (10_state.md R23), each with the
bits R23 says are used; CMD holds nothing (R35). -/
structure State where
  /-- the open sizes (00_scope.md R7); no step changes them -/
  params : Params
  /-- WIDTH, 0x00 (R25) -/
  width : Word
  /-- HEIGHT, 0x04 (R25) -/
  height : Word
  /-- DEPTH, 0x08, bits 15:0 (R25) -/
  depth : BitVec 16
  /-- RMASK, 0x0C (R26) -/
  rmask : Word
  /-- GMASK, 0x10 (R26) -/
  gmask : Word
  /-- BMASK, 0x14 (R26) -/
  bmask : Word
  /-- AMASK, 0x18 (R26) -/
  amask : Word
  /-- ROWBYTES, 0x1C (R27) -/
  rowbytes : Word
  /-- PAD, 0x20, bits 1:0 (R27) -/
  pad : BitVec 2
  /-- STRIDE, 0x24 (R27) -/
  stride : Word
  /-- IMGSIZE, 0x28 (R27) -/
  imgsize : Word
  /-- CAP, 0x2C (R27) -/
  cap : Word
  /-- OPA, 0x30 (R28) -/
  opa : Word
  /-- OPB, 0x34 (R28) -/
  opb : Word
  /-- RES, 0x38 (R28) -/
  res : Word
  /-- ROW, 0x3C (R28) -/
  row : Word
  /-- PLEN, 0x40 (R28) -/
  plen : Word
  /-- SPOS, 0x44 (R29) -/
  spos : Word
  /-- STATUS, 0x4C (R36) -/
  status : Status
  /-- CTRL, 0x50, bit 0 IEN (R37) -/
  ien : Bool
  /-- PEND, the pending-command latch (R40) -/
  pend : Word
  /-- GRID (R30) -/
  grid : Memory
  /-- PBUF (R31) -/
  pbuf : Memory
  /-- MSG (R32) -/
  msg : Memory
  /-- the draw position (R40) -/
  drawPos : Nat
  /-- the bits the random source is known to deliver next (R34; log entry 3) -/
  randomFeed : List Bool
  /-- how many free bytes have been used (the model's own; log entry 8) -/
  freeCount : Nat
  /-- the coming turns of the two agents (the model's own; log entry 4) -/
  agenda : List Turn
  /-- what the last host read returned (the model's own; log entry 6) -/
  busData : BusData
deriving DecidableEq, Repr

/-- Faults.  Both are SAFE: the machine stops where the spec gives no effect, because it says such a
state or access does not exist (20_memory.md R78, 42_pixel_codec.md R130; log entry 11). -/
inductive Fault where
  /-- Raised by a codec or payload command that would touch an address outside a space (R78: "The
  engine never generates an address outside a space").  Safe; no reachable state raises it. -/
  | outsideSpace (sp : Space)
  /-- Raised by a codec command when CFGOK = 1 while DEPTH, ROWBYTES, PAD and STRIDE are not what any
  successful FRAME leaves; the row functions are defined for a framed engine only (R130).  Safe; no
  reachable state raises it. -/
  | brokenFrame
deriving DecidableEq, Repr

/-- Refusals.  All but `notModelled` are violations of the host contract, which the spec tells a model to
refuse (60_exceptions.md R206; log entry 9).  All are SAFE. -/
inductive Refusal where
  /-- an instruction without a meaning; no arm of `exec` uses it -/
  | notModelled (mnemonic : String)
  /-- a host access while BUSY = 1 other than a read of STATUS or reset (70_reset_and_hazards.md R227) -/
  | hostAccessWhileBusy
  /-- a byte or half-word access to the register window (10_state.md R42) -/
  | registerAccessNotWord
  /-- a register access at an offset that is no multiple of 4 (10_state.md R42) -/
  | registerAccessMisaligned
  /-- a register access beyond the 256 bytes of the window (10_state.md R23; log entry 20) -/
  | registerAccessOutsideWindow
  /-- a host access beyond the end of a space (20_memory.md R69) -/
  | memoryAccessOutsideSpace (sp : Space)
deriving DecidableEq, Repr

/-- The outcome of a step or of a meaning. -/
abbrev Result := Host.Outcome State Fault Refusal

/-- STATUS after reset: BUSY = DONE = ERR = CFGOK = 0, ERRCODE = 0 (10_state.md R43). -/
def Status.reset : Status :=
  { busy := false, done := false, err := false, cfgok := false, errcode := 0 }

/-- The machine after power-up and reset: every register 0 (10_state.md R43, 70_reset_and_hazards.md
R221), no byte of a memory written (R222).  The sizes, PEND, the draw position, the feed, the agenda and
the model's own fields have the values log entries 2, 3, 4, 6, 7 and 8 name (DESIGN CHOICE). -/
def State.reset : State :=
  { params := Params.vectors
    width := 0, height := 0, depth := 0
    rmask := 0, gmask := 0, bmask := 0, amask := 0
    rowbytes := 0, pad := 0, stride := 0, imgsize := 0, cap := 0
    opa := 0, opb := 0, res := 0, row := 0, plen := 0, spos := 0
    status := Status.reset, ien := false
    pend := 0
    grid := [], pbuf := [], msg := []
    drawPos := 0, randomFeed := [], freeCount := 0
    agenda := [], busData := .none }

end Sys2Proof.Machine
end

