-- ==== Sys2Proof/Machine/Flags.lean ====
section
/-! DEFINITION. STATUS: its word, its changes, the error codes and the interrupt output.
The engine has no arithmetic condition codes (10_state.md R38); its flags are BUSY, DONE, ERR and CFGOK,
with the field ERRCODE beside them (R36). -/

namespace Sys2Proof.Machine

open Sys2Proof

/-- The codes of 60_exceptions.md R190. -/
def ErrorKind.code : ErrorKind → BitVec 8
  | .invalidDimensions => 1
  | .invalidDepth => 2
  | .colorCountExceeded => 3
  | .allocationFailure => 4
  | .formatError => 5
  | .readFailure => 6
  | .writeFailure => 7
  | .unsupportedDepth => 8
  | .payloadTooLarge => 9
  | .invalidLength => 10
  | .invalidChannel => 11
  | .illegalCommand => 16
  | .notConfigured => 17
  | .rowRange => 18
  | .scanEnd => 19

/-- The word a read of STATUS returns (10_state.md R36): ERRCODE in bits 15:8, CFGOK, ERR, DONE and BUSY
in bits 3 to 0, every other bit 0. -/
def Status.toWord (t : Status) : Word :=
  0#16 ++ t.errcode ++ 0#4 ++ BitVec.ofBool t.cfgok ++ BitVec.ofBool t.err
    ++ BitVec.ofBool t.done ++ BitVec.ofBool t.busy

/-- Issue of a command: BUSY set, DONE, ERR and ERRCODE cleared, CFGOK kept (30_encoding.md R99). -/
def Status.issued (t : Status) : Status :=
  { t with busy := true, done := false, err := false, errcode := 0 }

/-- Completion without an error (30_encoding.md R100). -/
def Status.succeeded (t : Status) : Status :=
  { t with busy := false, done := true, err := false, errcode := 0 }

/-- Completion with an error kind whose code is `code` (30_encoding.md R100). -/
def Status.failed (t : Status) (code : BitVec 8) : Status :=
  { t with busy := false, done := true, err := true, errcode := code }

/-- A host write to STATUS: bit 1 set clears DONE, nothing else changes (10_state.md R36). -/
def Status.written (t : Status) (w : Word) : Status :=
  { t with done := t.done && !w.getLsbD 1 }

/-- The word a read of CTRL returns (10_state.md R37). -/
def ctrlWord (ien : Bool) : Word := 0#31 ++ BitVec.ofBool ien

/-- The interrupt output, a level: `irq = CTRL.IEN AND STATUS.DONE` (60_exceptions.md R196). -/
def State.irq (s : State) : Bool := s.ien && s.status.done

end Sys2Proof.Machine
end

