-- ==== Sys2Proof/Machine/Ops.lean ====
section
/-! DEFINITION. The shared operations: the bytes of the memories, the random-bit port, the free bytes,
issue and completion of a command (an error kind among them: `State.raise`), the loss of the frame, and
the two preambles that commands share. -/

namespace Sys2Proof.Machine

open Sys2Proof

/-! ### The bytes of one space -/

/-- The byte something has written at an address, if anything has. -/
def Memory.read : Memory → Nat → Option Byte
  | [], _ => none
  | (k, b) :: m, a => if a = k then some b else Memory.read m a

/-- Writing a byte, in the canonical form: the addresses stay strictly rising. -/
def Memory.write : Memory → Nat → Byte → Memory
  | [], a, v => [(a, v)]
  | (k, b) :: m, a, v =>
    if a < k then (a, v) :: (k, b) :: m
    else if a = k then (k, v) :: m
    else (k, b) :: Memory.write m a v

/-- Writing a list of bytes at consecutive addresses, the first at the lowest (00_scope.md R9). -/
def Memory.writeBytes : Memory → Nat → List Byte → Memory
  | m, _, [] => m
  | m, a, b :: bs => Memory.writeBytes (Memory.write m a b) (a + 1) bs

/-- The byte at an address: the written one, or the free value the cell holds since power-up
(70_reset_and_hazards.md R222). -/
def Memory.byteAt (m : Memory) (sp : Space) (a : Nat) : Byte :=
  match m.read a with
  | some b => b
  | none => Config.powerUpByte sp a

/-- `MemRead(S:a, n)`: n bytes from an address on, lowest first (00_scope.md R9). -/
def Memory.bytesAt (m : Memory) (sp : Space) (a n : Nat) : List Byte :=
  (List.range n).map fun i => m.byteAt sp (a + i)

/-- The addresses rise strictly and the first is not below `lo`. -/
def Memory.wfFrom : Nat → Memory → Bool
  | _, [] => true
  | lo, (k, _) :: m => decide (lo ≤ k) && Memory.wfFrom (k + 1) m

/-- The canonical form: strictly rising addresses.  An unlisted address reads as no written byte, so no
entry can equal what an unlisted address reads as. -/
def Memory.wf (m : Memory) : Bool := Memory.wfFrom 0 m

/-- Every listed address is below `n`. -/
def Memory.below (n : Nat) (m : Memory) : Bool := m.all fun c => decide (c.1 < n)

/-! ### The three spaces -/

/-- The contents of a space. -/
def State.mem (s : State) : Space → Memory
  | .grid => s.grid
  | .pbuf => s.pbuf
  | .msg => s.msg

/-- Replacing the contents of a space. -/
def State.setMem (s : State) (sp : Space) (m : Memory) : State :=
  match sp with
  | .grid => { s with grid := m }
  | .pbuf => { s with pbuf := m }
  | .msg => { s with msg := m }

/-- The model's read of one byte: the byte at offset `a` of space `sp`. -/
def State.byte (s : State) (sp : Space) (a : Nat) : Byte := (s.mem sp).byteAt sp a

/-! ### The random-bit port and the free bytes -/

/-- `draw()` (10_state.md R34): the next bit of the feed a test supplies, else the free value at the draw
position; the draw position advances by one (R40). -/
def State.draw (s : State) : Bool × State :=
  match s.randomFeed with
  | b :: bs => (b, { s with randomFeed := bs, drawPos := s.drawPos + 1 })
  | [] => (Config.randomBit s.drawPos, { s with drawPos := s.drawPos + 1 })

/-- `n` draws, in order. -/
def State.draws : Nat → State → List Bool × State
  | 0, s => ([], s)
  | n + 1, s => (s.draw.1 :: (State.draws n s.draw.2).1, (State.draws n s.draw.2).2)

/-- Giving a byte of a space a fresh free value ("any value"); an offset outside the space has no byte. -/
def State.forget (s : State) (sp : Space) (a : Nat) : State :=
  if a < s.params.size sp then
    { s.setMem sp ((s.mem sp).write a (Config.freeByte s.freeCount)) with
      freeCount := s.freeCount + 1 }
  else s

/-- Giving each of a list of bytes a fresh free value. -/
def State.forgetAll : List (Space × Nat) → State → State
  | [], s => s
  | (sp, a) :: rest, s => State.forgetAll rest (s.forget sp a)

/-! ### Issue and completion -/

/-- Issue of a command word (30_encoding.md R99): PEND latches it, BUSY is set, DONE, ERR and ERRCODE are
cleared; nothing else changes and the word is not checked. -/
def State.issue (s : State) (w : Word) : State :=
  { s with pend := w, status := s.status.issued }

/-- Completion of a command without an error (30_encoding.md R100). -/
def State.succeed (s : State) : State := { s with status := s.status.succeeded }

/-- `raise E`, the engine's only exception (30_encoding.md R100, 60_exceptions.md R192): BUSY falls, DONE
and ERR are set, ERRCODE holds the kind's code, nothing else changes.  There is no trap entry and no
return from one (R197, R198): after an error the engine is idle and accepts any command, so no return
operation stands beside this one. -/
def State.raise (s : State) (e : ErrorKind) : State :=
  { s with status := s.status.failed e.code }

/-- The loss of the frame: CFGOK, the derived registers and SPOS become 0 (10_state.md R39 for a
configuration write, 41_row_framing.md R125 `fail` for a failing FRAME). -/
def State.clearFrame (s : State) : State :=
  { s with
    rowbytes := 0, pad := 0, stride := 0, imgsize := 0, cap := 0, spos := 0
    status := { s.status with cfgok := false } }

/-! ### Preambles -/

/-- The first check of every command that needs a framed engine (60_exceptions.md R191, R194). -/
def checkFramed (s : State) (k : Result) : Result :=
  if s.status.cfgok then k else .next (s.raise .notConfigured)

/-- The checks every command of the steganographic channel makes first (43_steganography.md R166):
CFGOK, then the depth. -/
def checkSteg (s : State) (k : Result) : Result :=
  checkFramed s (if s.depth.toNat < 16 then .next (s.raise .unsupportedDepth) else k)

end Sys2Proof.Machine
end

