-- ==== Sys2Proof/Machine/Operands.lean ====
section
/-! DEFINITION. The forms in which a command reads its operands: registers as numbers (30_encoding.md
R91), little-endian words and bit strings (00_scope.md R9), pixels and depths (R5, R10), and the
effective addresses of pixels, packed rows and channel-units (20_memory.md R64, R65,
43_steganography.md R161). -/

namespace Sys2Proof.Machine

open Sys2Proof

/-! ### Words and bits -/

/-- `le_16([lo, hi])` (20_memory.md R60): the byte at the lower offset holds bits 7:0. -/
def le16 (lo hi : Byte) : BitVec 16 := hi ++ lo

/-- `le_32([b0, b1, b2, b3])` (20_memory.md R61, decision D15): little-endian. -/
def le32 (b0 b1 b2 b3 : Byte) : Word := b3 ++ b2 ++ b1 ++ b0

/-- `bytes_le_16(w)`: the low byte. -/
def byte0 {n : Nat} (w : BitVec n) : Byte := w.extractLsb' 0 8

/-- Byte 1 of a word, bits 15:8. -/
def byte1 {n : Nat} (w : BitVec n) : Byte := w.extractLsb' 8 8

/-- Byte 2 of a word, bits 23:16. -/
def byte2 {n : Nat} (w : BitVec n) : Byte := w.extractLsb' 16 8

/-- Byte 3 of a word, bits 31:24. -/
def byte3 {n : Nat} (w : BitVec n) : Byte := w.extractLsb' 24 8

/-- The first `n` bits of a number, least significant first (43_steganography.md R165). -/
def bitsLsbFirst (n v : Nat) : List Bool := (List.range n).map fun i => v.testBit i

/-- `sum over i of (bit i << i)`: the number a list of bits spells, least significant first
(43_steganography.md R171). -/
def ofBitsLsbFirst : List Bool → Nat
  | [] => 0
  | b :: bs => b.toNat + 2 * ofBitsLsbFirst bs

/-! ### Depths, masks and pixels -/

/-- PixelDepth (00_scope.md R5): the set of legal depths is exactly {1, 4, 8, 16, 24, 32}. -/
inductive PixelDepth where
  | d1
  | d4
  | d8
  | d16
  | d24
  | d32
deriving DecidableEq, Repr

/-- The bits per pixel of a depth. -/
def PixelDepth.bits : PixelDepth → Nat
  | .d1 => 1
  | .d4 => 4
  | .d8 => 8
  | .d16 => 16
  | .d24 => 24
  | .d32 => 32

/-- The depth DEPTH holds, if it is a legal one (41_row_framing.md R125). -/
def PixelDepth.ofBits : Nat → Option PixelDepth
  | 1 => some .d1
  | 4 => some .d4
  | 8 => some .d8
  | 16 => some .d16
  | 24 => some .d24
  | 32 => some .d32
  | _ => none

/-- The four channel masks (10_state.md R26). -/
structure Masks where
  r : Word
  g : Word
  b : Word
  a : Word
deriving DecidableEq, Repr

/-- A uniform pixel (b, g, r, x): blue, green, red, index-or-alpha (00_scope.md R10). -/
structure Pixel where
  b : Byte
  g : Byte
  r : Byte
  x : Byte
deriving DecidableEq, Repr

/-- The four bytes of a pixel in the order GRID holds them (20_memory.md R64). -/
def Pixel.bytes (p : Pixel) : List Byte := [p.b, p.g, p.r, p.x]

/-! ### Registers as numbers -/

/-- WIDTH as a number. -/
def State.w (s : State) : Nat := s.width.toNat

/-- HEIGHT as a number, unsigned (10_state.md R25). -/
def State.h (s : State) : Nat := s.height.toNat

/-- The masks, read when a codec command completes (10_state.md R26). -/
def State.masks (s : State) : Masks := { r := s.rmask, g := s.gmask, b := s.bmask, a := s.amask }

/-- The number of channel-units, `WIDTH * HEIGHT * 3` (43_steganography.md R160). -/
def State.units (s : State) : Nat := 3 * s.w * s.h

/-! ### Effective addresses -/

/-- `ga(r, c) = 4 * (r * WIDTH + c)`: the GRID offset of pixel (r, c) (20_memory.md R64). -/
def gridAddr (w r c : Nat) : Nat := 4 * (r * w + c)

/-- The PBUF offset of byte `n` of packed row `i` (20_memory.md R65). -/
def packedAddr (stride i n : Nat) : Nat := i * stride + n

/-- `ua(k) = 4 * p + ch` with `p = k div 3`, `ch = k mod 3`: the GRID offset of channel-unit `k`
(43_steganography.md R161). -/
def unitAddr (k : Nat) : Nat := 4 * (k / 3) + k % 3

/-- The pixel at row `r`, column `c` of the grid (20_memory.md R64). -/
def State.pixelAt (s : State) (r c : Nat) : Pixel :=
  { b := s.byte .grid (gridAddr s.w r c)
    g := s.byte .grid (gridAddr s.w r c + 1)
    r := s.byte .grid (gridAddr s.w r c + 2)
    x := s.byte .grid (gridAddr s.w r c + 3) }

/-- Grid row `i`, leftmost pixel first (42_pixel_codec.md R130, R146). -/
def State.gridRow (s : State) (i : Nat) : List Pixel := (List.range s.w).map fun c => s.pixelAt i c

/-- The data bytes of packed row `i`: `MemRead(PBUF: i * STRIDE, ROWBYTES)` (42_pixel_codec.md R145). -/
def State.packedRow (s : State) (i : Nat) : List Byte :=
  s.pbuf.bytesAt .pbuf (packedAddr s.stride.toNat i 0) s.rowbytes.toNat

end Sys2Proof.Machine
end

