-- ==== Sys2Proof/Machine/BitMask.lean ====
section
/-! DEFINITION. The bit-mask extractor: TZC, EXTRACT, DEPOSIT (40_bitmask.md). -/

namespace Sys2Proof.Machine

open Sys2Proof

/-- `tzc(m)` (40_bitmask.md R110): the least i with m[i] = 1, and 0 for the zero mask. -/
def tzc (m : Word) : Nat := ((List.range 32).find? fun i => m.getLsbD i).getD 0

/-- `extract(v, m) = (v & m) >> tzc(m)` (R111). -/
def extract (v m : Word) : Word := (v &&& m) >>> tzc m

/-- `deposit(c, m) = trunc_32(c << tzc(m))`, not ANDed with the mask (R112). -/
def deposit (c m : Word) : Word := c <<< tzc m

/-- TZC (R113). -/
def execTzc (s : State) : Result :=
  .next { s with res := BitVec.ofNat 32 (tzc s.opb) }.succeed

/-- EXTRACT (R114). -/
def execExtract (s : State) : Result :=
  .next { s with res := extract s.opa s.opb }.succeed

/-- DEPOSIT (R115). -/
def execDeposit (s : State) : Result :=
  .next { s with res := deposit s.opa s.opb }.succeed

end Sys2Proof.Machine
end

