-- ==== Sys2Proof/Machine/Framing.lean ====
section
/-! DEFINITION. The row framing unit: FRAME (41_row_framing.md).  All arithmetic is on naturals, exact
(00_scope.md R11). -/

namespace Sys2Proof.Machine

open Sys2Proof

/-- `row_bytes(w, d) = ceil(w * d / 8)` (41_row_framing.md R120). -/
def rowBytes (w d : Nat) : Nat := (w * d + 7) / 8

/-- `padding(rb) = (4 - rb mod 4) mod 4` (R121). -/
def padding (rb : Nat) : Nat := (4 - rb % 4) % 4

/-- `stride(w, d)` (R122). -/
def strideOf (w d : Nat) : Nat := rowBytes w d + padding (rowBytes w d)

/-- `image_size(w, h, d)` (R122). -/
def imageSize (w h d : Nat) : Nat := h * strideOf w d

/-- `capacity(w, h)` in whole bytes (43_steganography.md R164, decision D25): 0 for fewer than 32
channel-units. -/
def capacity (w h : Nat) : Nat := if w * h * 3 < 32 then 0 else (w * h * 3 - 32) / 8

/-- The latching of the derived values by a successful FRAME (R125, 10_state.md R27). -/
def State.latchFrame (s : State) (d : Nat) : State :=
  { s with
    rowbytes := BitVec.ofNat 32 (rowBytes s.w d)
    pad := BitVec.ofNat 2 (padding (rowBytes s.w d))
    stride := BitVec.ofNat 32 (strideOf s.w d)
    imgsize := BitVec.ofNat 32 (imageSize s.w s.h d)
    cap := BitVec.ofNat 32 (capacity s.w s.h)
    spos := 0
    status := { s.status with cfgok := true } }

/-- `fail(E)` of R125: the frame is lost and the error kind raised. -/
def State.failFrame (s : State) (e : ErrorKind) : State := s.clearFrame.raise e

/-- FRAME (R125): the checks in the order of 60_exceptions.md R194. -/
def execFrame (s : State) : Result :=
  if s.w < 1 ∨ s.h < 1 then .next (s.failFrame .invalidDimensions)
  else match PixelDepth.ofBits s.depth.toNat with
    | none => .next (s.failFrame .invalidDepth)
    | some d =>
      if s.w * s.h > s.params.gridPixels ∨ imageSize s.w s.h d.bits > s.params.pbufBytes then
        .next (s.failFrame .allocationFailure)
      else .next (s.latchFrame d.bits).succeed

end Sys2Proof.Machine
end

