-- ==== Sys2Proof/Machine/Codec.lean ====
section
/-! DEFINITION. The multi-depth pixel codec: UNPACKR, PACKR, UNPACK, PACK (42_pixel_codec.md). -/

namespace Sys2Proof.Machine

open Sys2Proof

/-! ### Unpack, one rule per depth -/

/-- The low 8 bits of the field a mask selects (R134, R136, decision D17). -/
def component (w m : Word) : Byte := (extract w m).setWidth 8

/-- Pixel `j` of the row whose data bytes are `B` (R131 to R136); slots the depth does not carry are 0
(R143).  `B` holds row_bytes bytes, so every index below is inside it. -/
def unpackPixel (d : PixelDepth) (m : Masks) (B : List Byte) (j : Nat) : Pixel :=
  match d with
  | .d1 => { b := 0, g := 0, r := 0, x := (B.getD (j / 8) 0 >>> (7 - j % 8)) &&& 1 }
  | .d4 =>
    { b := 0, g := 0, r := 0
      x := if j % 2 = 0 then B.getD (j / 2) 0 >>> 4 else B.getD (j / 2) 0 &&& 0x0F }
  | .d8 => { b := 0, g := 0, r := 0, x := B.getD j 0 }
  | .d16 =>
    let w : Word := (le16 (B.getD (2 * j) 0) (B.getD (2 * j + 1) 0)).setWidth 32
    { b := component w m.b, g := component w m.g, r := component w m.r, x := 0 }
  | .d24 => { b := B.getD (3 * j) 0, g := B.getD (3 * j + 1) 0, r := B.getD (3 * j + 2) 0, x := 0 }
  | .d32 =>
    let w : Word :=
      le32 (B.getD (4 * j) 0) (B.getD (4 * j + 1) 0) (B.getD (4 * j + 2) 0) (B.getD (4 * j + 3) 0)
    { b := component w m.b, g := component w m.g, r := component w m.r, x := component w m.a }

/-- `unpack_row_d(B)`: `W` pixels, the leftmost first (R130). -/
def unpackRow (d : PixelDepth) (m : Masks) (W : Nat) (B : List Byte) : List Pixel :=
  (List.range W).map fun j => unpackPixel d m B j

/-! ### Pack, one rule per depth -/

/-- The word of a pixel at depth 16 (R140): OR of the deposited components, not masked, cut to 16 bits
(decision D19); AMASK and the fourth slot are not read. -/
def packWord16 (m : Masks) (p : Pixel) : BitVec 16 :=
  (deposit (p.b.setWidth 32) m.b ||| deposit (p.g.setWidth 32) m.g
    ||| deposit (p.r.setWidth 32) m.r).setWidth 16

/-- The word of a pixel at depth 32 (R142). -/
def packWord32 (m : Masks) (p : Pixel) : Word :=
  deposit (p.b.setWidth 32) m.b ||| deposit (p.g.setWidth 32) m.g
    ||| deposit (p.r.setWidth 32) m.r ||| deposit (p.x.setWidth 32) m.a

/-- Pixel `j` put into the bytes of a row (R137 to R142). -/
def packPixel (d : PixelDepth) (m : Masks) (j : Nat) (p : Pixel) (B : List Byte) : List Byte :=
  match d with
  | .d1 => B.modify (j / 8) fun v => v ||| ((p.x &&& 1) <<< (7 - j % 8))
  | .d4 =>
    if j % 2 = 0 then B.modify (j / 2) fun v => v ||| ((p.x &&& 0x0F) <<< 4)
    else B.modify (j / 2) fun v => v ||| (p.x &&& 0x0F)
  | .d8 => B.set j p.x
  | .d16 =>
    (B.set (2 * j) (byte0 (packWord16 m p))).set (2 * j + 1) (byte1 (packWord16 m p))
  | .d24 => ((B.set (3 * j) p.b).set (3 * j + 1) p.g).set (3 * j + 2) p.r
  | .d32 =>
    (((B.set (4 * j) (byte0 (packWord32 m p))).set (4 * j + 1) (byte1 (packWord32 m p))).set
      (4 * j + 2) (byte2 (packWord32 m p))).set (4 * j + 3) (byte3 (packWord32 m p))

/-- The pixels `P`, the first of them number `j`, put into the bytes of a row in ascending order. -/
def packPixels (d : PixelDepth) (m : Masks) : Nat → List Pixel → List Byte → List Byte
  | _, [], B => B
  | j, p :: P, B => packPixels d m (j + 1) P (packPixel d m j p B)

/-- `pack_row_d(P)`: `stride` bytes, starting from zeros (R144), so that the padding and the bits no
pixel occupies are 0 (41_row_framing.md R123, decision D20). -/
def packRow (d : PixelDepth) (m : Masks) (stride : Nat) (P : List Pixel) : List Byte :=
  packPixels d m 0 P (List.replicate stride 0)

/-! ### Rows of the memories -/

/-- The bytes that unpacking row `i` puts into GRID row `i` (R145). -/
def State.unpackedRow (s : State) (d : PixelDepth) (i : Nat) : List Byte :=
  (unpackRow d s.masks s.w (s.packedRow i)).flatMap Pixel.bytes

/-- GRID with row `i` unpacked into it: the body of UNPACKR (R145). -/
def State.unpackInto (s : State) (d : PixelDepth) (g : Memory) (i : Nat) : Memory :=
  g.writeBytes (gridAddr s.w i 0) (s.unpackedRow d i)

/-- GRID with rows 0 .. n-1 unpacked into it, in ascending order (R147).  Every packed row is read from
the PBUF of the state: unpacking never writes PBUF. -/
def State.unpackRows (s : State) (d : PixelDepth) : Nat → Memory
  | 0 => s.grid
  | n + 1 => s.unpackInto d (s.unpackRows d n) n

/-- PBUF with row `i` packed into it: the body of PACKR (R146). -/
def State.packInto (s : State) (d : PixelDepth) (b : Memory) (i : Nat) : Memory :=
  b.writeBytes (packedAddr s.stride.toNat i 0) (packRow d s.masks s.stride.toNat (s.gridRow i))

/-- PBUF with rows 0 .. n-1 packed into it, in ascending order (R148). -/
def State.packRows (s : State) (d : PixelDepth) : Nat → Memory
  | 0 => s.pbuf
  | n + 1 => s.packInto d (s.packRows d n) n

/-- What a codec command over rows 0 .. rows-1 needs of the registers: the depth a legal one, ROWBYTES and
STRIDE as FRAME leaves them, and the rows inside the two memories (20_memory.md R78).  A framed engine
meets it; a state no run reaches may not, and the command then faults (log entry 11). -/
def checkCodec (s : State) (rows : Nat) (k : PixelDepth → Result) : Result :=
  match PixelDepth.ofBits s.depth.toNat with
  | none => .fault .brokenFrame
  | some d =>
    if s.rowbytes.toNat = rowBytes s.w d.bits ∧ s.stride.toNat = s.rowbytes.toNat + s.pad.toNat then
      if rows * s.w ≤ s.params.gridPixels then
        if rows * s.stride.toNat ≤ s.params.pbufBytes then k d
        else .fault (.outsideSpace .pbuf)
      else .fault (.outsideSpace .grid)
    else .fault .brokenFrame

/-! ### Commands -/

/-- UNPACKR (R145). -/
def execUnpackr (s : State) : Result :=
  checkFramed s
    (if s.row.toNat ≥ s.h then .next (s.raise .rowRange)
     else checkCodec s (s.row.toNat + 1) fun d =>
       .next { s with grid := s.unpackInto d s.grid s.row.toNat }.succeed)

/-- PACKR (R146). -/
def execPackr (s : State) : Result :=
  checkFramed s
    (if s.row.toNat ≥ s.h then .next (s.raise .rowRange)
     else checkCodec s (s.row.toNat + 1) fun d =>
       .next { s with pbuf := s.packInto d s.pbuf s.row.toNat }.succeed)

/-- UNPACK (R147). -/
def execUnpack (s : State) : Result :=
  checkFramed s
    (checkCodec s s.h fun d => .next { s with grid := s.unpackRows d s.h }.succeed)

/-- PACK (R148). -/
def execPack (s : State) : Result :=
  checkFramed s
    (checkCodec s s.h fun d => .next { s with pbuf := s.packRows d s.h }.succeed)

end Sys2Proof.Machine
end

