-- ==== Sys2Proof/Machine/Steg.lean ====
section
/-! DEFINITION. The steganographic channel: SRWD, SPUT, SGET, SWRITE, SREAD (43_steganography.md).
It works on GRID only (R160). -/

namespace Sys2Proof.Machine

open Sys2Proof

/-! ### The channel -/

/-- `getbit(v) = v mod 2` (R162). -/
def getbit (v : Byte) : Bool := v.getLsbD 0

/-- `putbit(v, b)` (R163): first 255 becomes 254, then the value goes up by one if its parity is not
`b` (decision D23). -/
def putbit (v : Byte) (b : Bool) : Byte :=
  if getbit (if v = 255 then 254 else v) = b then (if v = 255 then 254 else v)
  else (if v = 255 then 254 else v) + 1

/-- `getunit(k)` of a grid (R162). -/
def getUnit (g : Memory) (k : Nat) : Bool := getbit (g.byteAt .grid (unitAddr k))

/-- `putunit(k, b)` (R163). -/
def putUnit (g : Memory) (k : Nat) (b : Bool) : Memory :=
  g.write (unitAddr k) (putbit (g.byteAt .grid (unitAddr k)) b)

/-- The bits of units k .. k+n-1. -/
def getUnits (g : Memory) (k n : Nat) : List Bool := (List.range n).map fun i => getUnit g (k + i)

/-- Writing a list of bits to consecutive units, in ascending order. -/
def putUnits : Memory → Nat → List Bool → Memory
  | g, _, [] => g
  | g, k, b :: bs => putUnits (putUnit g k b) (k + 1) bs

/-- The bits of the first `n` bytes of MSG, each byte least significant bit first (R165). -/
def State.payloadBits (s : State) (n : Nat) : List Bool :=
  (s.msg.bytesAt .msg 0 n).flatMap fun v => bitsLsbFirst 8 v.toNat

/-- The number of filler units after a payload of `n` bytes (R170, R175). -/
def State.fillerCount (s : State) (n : Nat) : Nat := s.units - (32 + 8 * n)

/-- The encoded length the first 32 units spell (R165, R171). -/
def State.decodedLength (s : State) : Nat := ofBitsLsbFirst (getUnits s.grid 0 32)

/-- Payload byte `j`, read from its 8 units (R165, R171). -/
def State.decodedByte (s : State) (j : Nat) : Byte :=
  BitVec.ofNat 8 (ofBitsLsbFirst (getUnits s.grid (32 + 8 * j) 8))

/-- The first `n` payload bytes. -/
def State.decodedBytes (s : State) (n : Nat) : List Byte := (List.range n).map s.decodedByte

/-- Units 0 .. n-1 are inside GRID (20_memory.md R78): a framed engine meets it for every unit it touches
(log entry 11). -/
def checkUnits (s : State) (n : Nat) (k : Result) : Result :=
  if n ≤ 3 * s.params.gridPixels then k else .fault (.outsideSpace .grid)

/-- Bytes 0 .. n-1 are inside MSG (20_memory.md R78). -/
def checkMsg (s : State) (n : Nat) (k : Result) : Result :=
  if n ≤ s.params.msgBytes then k else .fault (.outsideSpace .msg)

/-! ### Commands -/

/-- SRWD (R167). -/
def execSrwd (s : State) : Result := checkSteg s (.next { s with spos := 0 }.succeed)

/-- SPUT (R168): OPA bit 0 to the unit at SPOS, then SPOS + 1. -/
def execSput (s : State) : Result :=
  checkSteg s
    (if s.spos.toNat ≥ s.units then .next (s.raise .scanEnd)
     else checkUnits s (s.spos.toNat + 1)
       (.next { s with
          grid := putUnit s.grid s.spos.toNat (s.opa.getLsbD 0)
          spos := BitVec.ofNat 32 (s.spos.toNat + 1) }.succeed))

/-- SGET (R169): the bit of the unit at SPOS to RES, then SPOS + 1. -/
def execSget (s : State) : Result :=
  checkSteg s
    (if s.spos.toNat ≥ s.units then .next (s.raise .scanEnd)
     else checkUnits s (s.spos.toNat + 1)
       (.next { s with
          res := (BitVec.ofBool (getUnit s.grid s.spos.toNat)).setWidth 32
          spos := BitVec.ofNat 32 (s.spos.toNat + 1) }.succeed))

/-- The state after the filler bits of SWRITE are drawn (R175). -/
def State.afterFiller (s : State) : State := (State.draws (s.fillerCount s.plen.toNat) s).2

/-- The bits SWRITE writes, unit by unit (R165): the length, the payload, the filler. -/
def State.swriteBits (s : State) : List Bool :=
  bitsLsbFirst 32 s.plen.toNat ++ s.payloadBits s.plen.toNat
    ++ (State.draws (s.fillerCount s.plen.toNat) s).1

/-- SWRITE (R170).  All checks precede the first write and the first draw. -/
def execSwrite (s : State) : Result :=
  checkSteg s
    (if s.units < 32 ∨ s.plen.toNat > s.cap.toNat then .next (s.raise .payloadTooLarge)
     else checkUnits s (max s.units (32 + 8 * s.plen.toNat))
       (checkMsg s s.plen.toNat
         (.next { s.afterFiller with
            grid := putUnits s.grid 0 s.swriteBits
            spos := BitVec.ofNat 32 s.units }.succeed)))

/-- SREAD (R171).  With fewer than 32 units nothing but STATUS changes; a decoded length above CAP is
still written to PLEN, and SPOS becomes 32. -/
def execSread (s : State) : Result :=
  checkSteg s
    (if s.units < 32 then .next (s.raise .invalidLength)
     else checkUnits s 32
       (if s.decodedLength > s.cap.toNat then
          .next ({ s with plen := BitVec.ofNat 32 s.decodedLength, spos := 32 }.raise .invalidLength)
        else checkUnits s (32 + 8 * s.decodedLength)
          (checkMsg s s.decodedLength
            (.next { s with
               plen := BitVec.ofNat 32 s.decodedLength
               msg := s.msg.writeBytes 0 (s.decodedBytes s.decodedLength)
               spos := BitVec.ofNat 32 (32 + 8 * s.decodedLength) }.succeed))))

end Sys2Proof.Machine
end

