-- ==== Sys2Proof/Machine/Dispatch.lean ====
section
/-! DEFINITION. One arm per command: its completion (30_encoding.md R100). -/

namespace Sys2Proof.Machine

open Sys2Proof

def exec (i : Instr) (s : State) : Host.Outcome State Fault Refusal :=
  match i with
  -- the bit-mask extractor
  | .tzc => Sys2Proof.Machine.execTzc s
  | .extract => Sys2Proof.Machine.execExtract s
  | .deposit => Sys2Proof.Machine.execDeposit s
  -- the row framing unit
  | .frame => Sys2Proof.Machine.execFrame s
  -- the pixel codec
  | .unpackr => Sys2Proof.Machine.execUnpackr s
  | .packr => Sys2Proof.Machine.execPackr s
  | .unpack => Sys2Proof.Machine.execUnpack s
  | .pack => Sys2Proof.Machine.execPack s
  -- the steganographic channel
  | .srwd => Sys2Proof.Machine.execSrwd s
  | .sput => Sys2Proof.Machine.execSput s
  | .sget => Sys2Proof.Machine.execSget s
  | .swrite => Sys2Proof.Machine.execSwrite s
  | .sread => Sys2Proof.Machine.execSread s

end Sys2Proof.Machine
end

