-- ==== Sys2Proof/Machine/Host.lean ====
section
/-! DEFINITION. The host's five kinds of step (10_state.md R22): register reads and writes, memory reads
and writes, reset.  Violations of the host contract are refused (60_exceptions.md R206). -/

namespace Sys2Proof.Machine

open Sys2Proof

/-! ### The register window -/

/-- The byte offset of a register from REG_BASE (10_state.md R23). -/
def Reg.offset : Reg → Nat
  | .width => 0x00
  | .height => 0x04
  | .depth => 0x08
  | .rmask => 0x0C
  | .gmask => 0x10
  | .bmask => 0x14
  | .amask => 0x18
  | .rowbytes => 0x1C
  | .pad => 0x20
  | .stride => 0x24
  | .imgsize => 0x28
  | .cap => 0x2C
  | .opa => 0x30
  | .opb => 0x34
  | .res => 0x38
  | .row => 0x3C
  | .plen => 0x40
  | .spos => 0x44
  | .cmd => 0x48
  | .status => 0x4C
  | .ctrl => 0x50

/-- The register at an offset; an aligned offset of the window without a register is reserved (R41). -/
def Reg.ofOffset (o : Nat) : Option Reg :=
  match o with
  | 0x00 => some .width
  | 0x04 => some .height
  | 0x08 => some .depth
  | 0x0C => some .rmask
  | 0x10 => some .gmask
  | 0x14 => some .bmask
  | 0x18 => some .amask
  | 0x1C => some .rowbytes
  | 0x20 => some .pad
  | 0x24 => some .stride
  | 0x28 => some .imgsize
  | 0x2C => some .cap
  | 0x30 => some .opa
  | 0x34 => some .opb
  | 0x38 => some .res
  | 0x3C => some .row
  | 0x40 => some .plen
  | 0x44 => some .spos
  | 0x48 => some .cmd
  | 0x4C => some .status
  | 0x50 => some .ctrl
  | _ => none

/-- What a read of a register returns (R23, R35 to R37): reserved bits read 0, CMD reads 0. -/
def State.readReg (s : State) : Reg → Word
  | .width => s.width
  | .height => s.height
  | .depth => s.depth.setWidth 32
  | .rmask => s.rmask
  | .gmask => s.gmask
  | .bmask => s.bmask
  | .amask => s.amask
  | .rowbytes => s.rowbytes
  | .pad => s.pad.setWidth 32
  | .stride => s.stride
  | .imgsize => s.imgsize
  | .cap => s.cap
  | .opa => s.opa
  | .opb => s.opb
  | .res => s.res
  | .row => s.row
  | .plen => s.plen
  | .spos => s.spos
  | .cmd => 0
  | .status => s.status.toWord
  | .ctrl => ctrlWord s.ien

/-- What a write of a word to a register does while BUSY = 0: the RW registers store it (reserved bits
dropped, R41), WIDTH, HEIGHT and DEPTH also lose the frame (R39), the RO registers drop it, STATUS clears
DONE by bit 1 (R36), CMD issues a command (R35, 30_encoding.md R99). -/
def State.writeReg (s : State) (r : Reg) (v : Word) : State :=
  match r with
  | .width => { s.clearFrame with width := v }
  | .height => { s.clearFrame with height := v }
  | .depth => { s.clearFrame with depth := v.setWidth 16 }
  | .rmask => { s with rmask := v }
  | .gmask => { s with gmask := v }
  | .bmask => { s with bmask := v }
  | .amask => { s with amask := v }
  | .rowbytes | .pad | .stride | .imgsize | .cap | .res | .spos => s
  | .opa => { s with opa := v }
  | .opb => { s with opb := v }
  | .row => { s with row := v }
  | .plen => { s with plen := v }
  | .cmd => s.issue v
  | .status => { s with status := s.status.written v }
  | .ctrl => { s with ien := v.getLsbD 0 }

/-- A read at an aligned offset of the window: 0 where no register is (R41). -/
def State.readOffset (s : State) (o : Nat) : Word :=
  match Reg.ofOffset o with
  | some r => s.readReg r
  | none => 0

/-- A write at an aligned offset of the window: dropped where no register is (R41). -/
def State.writeOffset (s : State) (o : Nat) (v : Word) : State :=
  match Reg.ofOffset o with
  | some r => s.writeReg r v
  | none => s

/-- Why an access to the register window is outside the host contract, if it is: not a word, not aligned
(R42), or beyond the 256 bytes (R23). -/
def windowViolation (o : Nat) (width : AccessWidth) : Option Refusal :=
  if width ≠ .word then some .registerAccessNotWord
  else if o % 4 ≠ 0 then some .registerAccessMisaligned
  else if o ≥ 256 then some .registerAccessOutsideWindow
  else none

/-! ### Reset -/

/-- `n` consecutive bytes of a space. -/
def span (sp : Space) (a n : Nat) : List (Space × Nat) := (List.range n).map fun i => (sp, a + i)

/-- The bytes a command can write when it completes in this state (20_memory.md R70); a command that
raises an error writes none (60_exceptions.md R192). -/
def writeSet (i : Instr) (s : State) : List (Space × Nat) :=
  match i with
  | .tzc | .extract | .deposit | .frame | .srwd | .sget => []
  | .unpackr =>
    if s.status.cfgok ∧ s.row.toNat < s.h then span .grid (gridAddr s.w s.row.toNat 0) (4 * s.w)
    else []
  | .packr =>
    if s.status.cfgok ∧ s.row.toNat < s.h then
      span .pbuf (packedAddr s.stride.toNat s.row.toNat 0) s.stride.toNat
    else []
  | .unpack => if s.status.cfgok then span .grid 0 (4 * (s.h * s.w)) else []
  | .pack => if s.status.cfgok then span .pbuf 0 (s.h * s.stride.toNat) else []
  | .sput =>
    if s.status.cfgok ∧ 16 ≤ s.depth.toNat ∧ s.spos.toNat < s.units then
      [(.grid, unitAddr s.spos.toNat)]
    else []
  | .swrite =>
    if s.status.cfgok ∧ 16 ≤ s.depth.toNat ∧ 32 ≤ s.units ∧ s.plen.toNat ≤ s.cap.toNat then
      (List.range (max s.units (32 + 8 * s.plen.toNat))).map fun k => (.grid, unitAddr k)
    else []
  | .sread =>
    if s.status.cfgok ∧ 16 ≤ s.depth.toNat ∧ 32 ≤ s.units ∧ s.decodedLength ≤ s.cap.toNat then
      span .msg 0 s.decodedLength
    else []

/-- The bytes the command in flight could have written (70_reset_and_hazards.md R223); none if no command
is in flight or its word is illegal. -/
def State.abandonedWrites (s : State) : List (Space × Nat) :=
  if s.status.busy then
    match decode s.pend with
    | .ok i => writeSet i s
    | .error _ => []
  else []

/-- The registers after reset (10_state.md R43, 70_reset_and_hazards.md R221): all 0.  The memories and the
draw position are not affected; PEND is meaningless and becomes 0 (log entry 7). -/
def State.clearRegisters (s : State) : State :=
  { s with
    width := 0, height := 0, depth := 0
    rmask := 0, gmask := 0, bmask := 0, amask := 0
    rowbytes := 0, pad := 0, stride := 0, imgsize := 0, cap := 0
    opa := 0, opb := 0, res := 0, row := 0, plen := 0, spos := 0
    status := Status.reset, ien := false
    pend := 0 }

/-- Asserting `rst` (R220 to R223): every register takes its reset value, the pending command is
abandoned, and each byte it could have written becomes a fresh free value. -/
def State.assertReset (s : State) : State := (State.forgetAll s.abandonedWrites s).clearRegisters

/-! ### One host step -/

/-- A host access (R22, R42, R69, R227).  While BUSY = 1 only a read of STATUS and reset have a
meaning. -/
def hostStep (a : HostAccess) (s : State) : Result :=
  match a with
  | .reset => .next s.assertReset
  | .readReg o width =>
    match windowViolation o width with
    | some r => .refused r
    | none =>
      if s.status.busy ∧ Reg.ofOffset o ≠ some .status then .refused .hostAccessWhileBusy
      else .next { s with busData := .word (s.readOffset o) }
  | .writeReg o width v =>
    match windowViolation o width with
    | some r => .refused r
    | none =>
      if s.status.busy then .refused .hostAccessWhileBusy
      else .next (s.writeOffset o v)
  | .readMem sp o n =>
    if o + n > s.params.size sp then .refused (.memoryAccessOutsideSpace sp)
    else if s.status.busy then .refused .hostAccessWhileBusy
    else .next { s with busData := .bytes ((s.mem sp).bytesAt sp o n) }
  | .writeMem sp o bs =>
    if o + bs.length > s.params.size sp then .refused (.memoryAccessOutsideSpace sp)
    else if s.status.busy then .refused .hostAccessWhileBusy
    else .next (s.setMem sp ((s.mem sp).writeBytes o bs))

end Sys2Proof.Machine
end

