-- ==== Sys2Proof/Machine/Engine.lean ====
section
/-! DEFINITION. The two agents' turns (10_state.md R20 to R22) and the placing of a command word. -/

namespace Sys2Proof.Machine

open Sys2Proof

/-- The engine's step, complete (10_state.md R21, 30_encoding.md R100): with BUSY = 1 it decodes PEND and
runs the command, or raises IllegalCommand; with BUSY = 0 it changes nothing. -/
def engineStep (s : State) : Result :=
  if s.status.busy then
    match decode s.pend with
    | .ok i => exec i s
    | .error _ => .next (s.raise .illegalCommand)
  else .next s

/-- The turn at the head of the agenda is taken and removed; an empty agenda gives the turn to the engine
(log entry 4). -/
def takeTurn (s : State) : Result :=
  match s.agenda with
  | [] => engineStep s
  | .engine :: rest => engineStep { s with agenda := rest }
  | .host a :: rest => hostStep a { s with agenda := rest }

/-- The state in which a command word is issued and the engine has the next turn (log entry 5). -/
def State.placeWord (s : State) (w : Word) : State :=
  { s.issue w with agenda := .engine :: s.agenda }

end Sys2Proof.Machine
end

