-- ==== Sys2Proof/Machine/Step.lean ====
section
/-! DEFINITION. One step of the machine: the turn of one agent. -/

namespace Sys2Proof.Machine

open Sys2Proof

/-- One step: whichever agent the agenda names takes its turn. -/
def step (s : State) : Host.Outcome State Fault Refusal := takeTurn s

/-- The state with a command word issued, so that the very next step completes it.  Commands are fetched
from no memory: the engine's next command is what PEND latches at issue (30_encoding.md R90, R99). -/
def State.withFetchWord (s : State) (nbits w : Nat) : State :=
  s.placeWord (BitVec.ofNat 32 (w % 2 ^ nbits))

end Sys2Proof.Machine
end

