-- ==== Sys2Proof/Machine/Script.lean ====
section
/-! DEFINITION. Host scripts (30_encoding.md R97, R98; 70_reset_and_hazards.md R225): each script line and
pseudo-command as the turns it stands for.  A `wait` reads STATUS any number of times before the engine's
turn and once after it; `polls` is that number, so that every delay between issue and completion is some
script (R237). -/

namespace Sys2Proof.Machine.Script

open Sys2Proof Sys2Proof.Machine

/-- `wr NAME, value` (R97). -/
def wr (r : Reg) (v : Word) : List Turn := [.host (.writeReg r.offset .word v)]

/-- `rd NAME` (R97). -/
def rd (r : Reg) : List Turn := [.host (.readReg r.offset .word)]

/-- `cmd MNEMONIC` (R97): the command word written to CMD. -/
def cmd (i : Instr) : List Turn := wr .cmd (encode i)

/-- `wait` (R97): STATUS read until BUSY = 0; the first `polls` reads still see BUSY = 1. -/
def wait (polls : Nat) : List Turn :=
  List.replicate polls (.host (.readReg Reg.status.offset .word)) ++ .engine :: rd .status

/-- `put SPACE, offset, b0 b1 ...` (R97). -/
def put (sp : Space) (o : Nat) (bs : List Byte) : List Turn := [.host (.writeMem sp o bs)]

/-- `get SPACE, offset, n` (R97). -/
def get (sp : Space) (o n : Nat) : List Turn := [.host (.readMem sp o n)]

/-- `run MNEMONIC` (R98). -/
def run (i : Instr) (polls : Nat) : List Turn := cmd i ++ wait polls

/-- `cfg w, h, d` (R98). -/
def cfg (w h d : Word) (polls : Nat) : List Turn :=
  wr .width w ++ wr .height h ++ wr .depth d ++ run .frame polls

/-- `masks r, g, b, a` (R98). -/
def masks (r g b a : Word) : List Turn := wr .rmask r ++ wr .gmask g ++ wr .bmask b ++ wr .amask a

/-- `ack` (R98): clears DONE. -/
def ack : List Turn := wr .status 0x2

/-- `extract v, m` (R98). -/
def extract (v m : Word) (polls : Nat) : List Turn :=
  wr .opa v ++ wr .opb m ++ run .extract polls ++ rd .res

/-- `deposit c, m` (R98). -/
def deposit (c m : Word) (polls : Nat) : List Turn :=
  wr .opa c ++ wr .opb m ++ run .deposit polls ++ rd .res

/-- `tzc m` (R98). -/
def tzc (m : Word) (polls : Nat) : List Turn := wr .opb m ++ run .tzc polls ++ rd .res

/-- `unpackr i` (R98). -/
def unpackr (i : Word) (polls : Nat) : List Turn := wr .row i ++ run .unpackr polls

/-- `packr i` (R98). -/
def packr (i : Word) (polls : Nat) : List Turn := wr .row i ++ run .packr polls

/-- `sput b` (R98). -/
def sput (b : Word) (polls : Nat) : List Turn := wr .opa b ++ run .sput polls

/-- `sget` (R98). -/
def sget (polls : Nat) : List Turn := run .sget polls ++ rd .res

/-- `swrite n` (R98). -/
def swrite (n : Word) (polls : Nat) : List Turn := wr .plen n ++ run .swrite polls

/-- `sread` (R98). -/
def sread (polls : Nat) : List Turn := run .sread polls ++ rd .plen

end Sys2Proof.Machine.Script
end

