-- ==== Sys2Proof/Safety.lean ====
section
/-! DEFINITION. The terms claims use: the framed engine, the invariant, and the spec's own definitions of
valid masks, representable pixels and valid packed rows (42_pixel_codec.md R151). -/

namespace Sys2Proof.Machine

open Sys2Proof

/-! ### The invariant -/

/-- The three memories are in canonical form and list no address beyond their space. -/
def State.memOk (s : State) : Prop :=
  s.grid.wf = true ∧ s.pbuf.wf = true ∧ s.msg.wf = true
    ∧ s.grid.below (s.params.size .grid) = true ∧ s.pbuf.below (s.params.size .pbuf) = true
    ∧ s.msg.below (s.params.size .msg) = true

/-- CFGOK = 1 and the registers as a successful FRAME left them (41_row_framing.md R125, 10_state.md
R27), SPOS at most the number of units (R29). -/
structure State.FramedAs (s : State) (d : PixelDepth) : Prop where
  cfgok : s.status.cfgok = true
  depth : s.depth.toNat = d.bits
  width_pos : 1 ≤ s.w
  height_pos : 1 ≤ s.h
  grid_fits : s.w * s.h ≤ s.params.gridPixels
  pbuf_fits : imageSize s.w s.h d.bits ≤ s.params.pbufBytes
  rowbytes : s.rowbytes.toNat = rowBytes s.w d.bits
  pad : s.pad.toNat = padding (rowBytes s.w d.bits)
  stride : s.stride.toNat = strideOf s.w d.bits
  imgsize : s.imgsize.toNat = imageSize s.w s.h d.bits
  cap : s.cap.toNat = capacity s.w s.h
  spos : s.spos.toNat ≤ s.units

/-- CFGOK = 0 and the derived registers and SPOS all 0 (10_state.md R27, R29, R39). -/
structure State.Unframed (s : State) : Prop where
  cfgok : s.status.cfgok = false
  rowbytes : s.rowbytes = 0
  pad : s.pad = 0
  stride : s.stride = 0
  imgsize : s.imgsize = 0
  cap : s.cap = 0
  spos : s.spos = 0

/-- The codes a completion can leave in ERRCODE (60_exceptions.md R190): 0 and the codes of the kinds the
engine raises. -/
def producedCodes : List (BitVec 8) := [0, 1, 2, 4, 8, 9, 10, 16, 17, 18, 19]

/-- STATUS as issue, completion and the host's writes leave it (10_state.md R36, 30_encoding.md R99, R100):
while BUSY = 1, DONE, ERR and ERRCODE are 0 (70_reset_and_hazards.md R227); ERR = 0 exactly with code 0. -/
structure Status.Ok (t : Status) : Prop where
  busy : t.busy = true → t.done = false ∧ t.err = false ∧ t.errcode = 0
  code : t.errcode ∈ producedCodes
  err : t.err = true ↔ t.errcode ≠ 0

/-- What every step keeps. -/
structure State.Inv (s : State) : Prop where
  params : s.params.legal = true
  mem : s.memOk
  frame : s.Unframed ∨ ∃ d, s.FramedAs d
  status : s.status.Ok

/-- The engine has the next turn and `rest` are the turns after it: the agenda names the engine first, or is
empty (log entry 4). -/
def State.EngineNext (s : State) (rest : List Turn) : Prop :=
  s.agenda = .engine :: rest ∨ (s.agenda = [] ∧ rest = [])

/-! ### The spec's own definitions -/

/-- A contiguous run of `n` set bits starting at bit `start` (40_bitmask.md R116). -/
def IsRun (m : Word) (n start : Nat) : Prop :=
  1 ≤ n ∧ start + n ≤ 32 ∧ m.toNat = (2 ^ n - 1) * 2 ^ start

/-- Zero, or a contiguous run of at most 8 set bits (42_pixel_codec.md R151). -/
def NarrowMask (m : Word) : Prop := m = 0 ∨ ∃ n start, n ≤ 8 ∧ IsRun m n start

/-- Masks valid for depth 16 (R151). -/
def Masks.Valid16 (m : Masks) : Prop :=
  NarrowMask m.r ∧ NarrowMask m.g ∧ NarrowMask m.b
    ∧ m.r.toNat < 2 ^ 16 ∧ m.g.toNat < 2 ^ 16 ∧ m.b.toNat < 2 ^ 16
    ∧ m.r &&& m.g = 0 ∧ m.r &&& m.b = 0 ∧ m.g &&& m.b = 0

/-- Masks valid for depth 32 (R151). -/
def Masks.Valid32 (m : Masks) : Prop :=
  NarrowMask m.r ∧ NarrowMask m.g ∧ NarrowMask m.b ∧ NarrowMask m.a
    ∧ m.r &&& m.g = 0 ∧ m.r &&& m.b = 0 ∧ m.r &&& m.a = 0
    ∧ m.g &&& m.b = 0 ∧ m.g &&& m.a = 0 ∧ m.b &&& m.a = 0

/-- The largest value a mask's field holds: `extract(m, m)` (R151). -/
def fieldMax (m : Word) : Nat := (extract m m).toNat

/-- A pixel representable at a depth (R151). -/
def Pixel.Representable (d : PixelDepth) (m : Masks) (p : Pixel) : Prop :=
  match d with
  | .d1 => p.b = 0 ∧ p.g = 0 ∧ p.r = 0 ∧ p.x.toNat ≤ 1
  | .d4 => p.b = 0 ∧ p.g = 0 ∧ p.r = 0 ∧ p.x.toNat ≤ 15
  | .d8 => p.b = 0 ∧ p.g = 0 ∧ p.r = 0
  | .d16 =>
    p.x = 0 ∧ m.Valid16 ∧ p.b.toNat ≤ fieldMax m.b ∧ p.g.toNat ≤ fieldMax m.g
      ∧ p.r.toNat ≤ fieldMax m.r
  | .d24 => p.x = 0
  | .d32 =>
    m.Valid32 ∧ p.b.toNat ≤ fieldMax m.b ∧ p.g.toNat ≤ fieldMax m.g ∧ p.r.toNat ≤ fieldMax m.r
      ∧ p.x.toNat ≤ fieldMax m.a

/-- The pixel word `j` of a packed row at depth 16 (20_memory.md R60). -/
def rowWord16 (B : List Byte) (j : Nat) : Word :=
  (le16 (B.getD (2 * j) 0) (B.getD (2 * j + 1) 0)).setWidth 32

/-- The pixel word `j` of a packed row at depth 32 (20_memory.md R61). -/
def rowWord32 (B : List Byte) (j : Nat) : Word :=
  le32 (B.getD (4 * j) 0) (B.getD (4 * j + 1) 0) (B.getD (4 * j + 2) 0) (B.getD (4 * j + 3) 0)

/-- At depths 1 and 4 the bits of the last data byte that no pixel of a row of `W` pixels occupies are zero
(R151). -/
def UnusedBitsZero (d : PixelDepth) (W : Nat) (B : List Byte) : Prop :=
  match d with
  | .d1 => ∀ j, W ≤ j → j < 8 * rowBytes W 1 → (B.getD (j / 8) 0).getLsbD (7 - j % 8) = false
  | .d4 => W % 2 = 1 → (B.getD (W / 2) 0) &&& 0x0F = 0
  | .d8 | .d16 | .d24 | .d32 => True

/-- No pixel word has a bit set outside the masks (R151). -/
def WordsInsideMasks (d : PixelDepth) (m : Masks) (W : Nat) (B : List Byte) : Prop :=
  match d with
  | .d16 => m.Valid16 ∧ ∀ j, j < W → rowWord16 B j &&& ~~~(m.r ||| m.g ||| m.b) = 0
  | .d32 => m.Valid32 ∧ ∀ j, j < W → rowWord32 B j &&& ~~~(m.r ||| m.g ||| m.b ||| m.a) = 0
  | .d1 | .d4 | .d8 | .d24 => True

/-- A packed row of `stride` bytes that is valid at a depth (R151). -/
def ValidRow (d : PixelDepth) (m : Masks) (W : Nat) (B : List Byte) : Prop :=
  B.length = strideOf W d.bits
    ∧ (∀ n, rowBytes W d.bits ≤ n → B.getD n 0 = 0)
    ∧ UnusedBitsZero d W B ∧ WordsInsideMasks d m W B

/-! ### Names for whole outcomes -/

/-- STATUS after a completion without an error: BUSY 0, DONE 1, ERR 0, ERRCODE 0, CFGOK as given
(30_encoding.md R100). -/
def Status.good (cfgok : Bool) : Status :=
  { busy := false, done := true, err := false, cfgok := cfgok, errcode := 0 }

/-- STATUS after a completion with the error code `code` (30_encoding.md R100). -/
def Status.bad (cfgok : Bool) (code : BitVec 8) : Status :=
  { busy := false, done := true, err := true, cfgok := cfgok, errcode := code }

/-- The bit of SWRITE's draw number `n` (10_state.md R34). -/
def State.drawnBit (s : State) (n : Nat) : Bool :=
  (s.randomFeed[n]?).getD (Config.randomBit (s.drawPos + n))

/-- The conditions under which SWRITE embeds its payload (43_steganography.md R170). -/
structure State.CanEmbed (s : State) (d : PixelDepth) : Prop where
  params : s.params.legal = true
  framed : s.FramedAs d
  depth : 16 ≤ d.bits
  units : 32 ≤ s.units
  fits : s.plen.toNat ≤ s.cap.toNat

/-! ### Runs of several commands -/

/-- A list of state changes and commands performed one after the other, each as one completion. -/
def execAll : List (State → Result) → State → Result
  | [], s => .next s
  | f :: fs, s =>
    match f s with
    | .next t => execAll fs t
    | .fault r => .fault r
    | .refused r => .refused r

/-- Row command `i` with ROW set to `n` first. -/
def withRow (i : Instr) (n : Nat) (s : State) : Result := exec i { s with row := BitVec.ofNat 32 n }

/-- SPUT with OPA set to a bit first. -/
def sputBit (b : Bool) (s : State) : Result :=
  exec .sput { s with opa := (BitVec.ofBool b).setWidth 32 }

end Sys2Proof.Machine
end

