-- ==== Sys2Proof/Certificates/Slice0/Obligations.lean ====
section
/-! DEFINITION. The statements for the provers.  Each docstring names the rule or section of spec/ it
rests on.  A statement whose rule the spec marks as its own decision or inference says so. -/

open Sys2Proof Sys2Proof.Machine

/-! ### Bit-mask extractor -/

/-- 40_bitmask.md R110, whole: tzc(0) = tzc(1) = 0; the result is at most 31; for m other than 0 it is the
least i with m[i] = 1. -/
def Obligations.TzcIsLeastSetBit : Prop :=
  tzc 0 = 0 ∧ tzc 1 = 0 ∧ ∀ m : Word, tzc m ≤ 31 ∧
    (m ≠ 0 → m.getLsbD (tzc m) = true ∧ ∀ i, i < tzc m → m.getLsbD i = false)

/-- TZC completes in every state and changes RES and STATUS only (40_bitmask.md section 2, the command R113;
exposing it as a command is the spec's decision D6). -/
def Obligations.TzcCompletes : Prop :=
  ∀ s : State, ∃ t, exec .tzc s = .next t
    ∧ t = { s with res := t.res, status := Status.good s.status.cfgok }
    ∧ t.res.toNat ≤ 31
    ∧ (s.opb = 0 → t.res = 0)
    ∧ (s.opb ≠ 0 → s.opb.getLsbD t.res.toNat = true ∧
        ∀ i, i < t.res.toNat → s.opb.getLsbD i = false)

/-- 40_bitmask.md R111 and R114, whole: the result in every state, with the frame, the command word, the
corner cases and the example.  It completes with CFGOK 0 or 1. -/
def Obligations.ExtractCompletes : Prop :=
  (∀ s : State, exec .extract s = .next
    { s with res := (s.opa &&& s.opb) >>> tzc s.opb, status := Status.good s.status.cfgok })
  ∧ decode 0x00000002 = .ok .extract
  ∧ (∀ v m : Word, (extract v m).toNat = (v &&& m).toNat / 2 ^ tzc m)
  ∧ (∀ v : Word, extract v 0 = 0)
  ∧ (∀ v : Word, extract v 0xFFFFFFFF = v)
  ∧ (∀ v : Word, extract v 0x80000000 = (BitVec.ofBool (v.getLsbD 31)).setWidth 32)
  ∧ (∀ v v' m : Word, v &&& m = v' &&& m → extract v m = extract v' m)
  ∧ extract 0x00000F00 0x00000A00 = 0x00000005
  ∧ extract 0x0000ABCD 0x000007E0 = 0x0000001E

/-- DEPOSIT completes in every state: OPA times two to the power tzc(OPB), cut to 32 bits, not masked
(40_bitmask.md section 2, the command R115; its function and its being a command are decisions D2 and D6). -/
def Obligations.DepositCompletes : Prop :=
  (∀ s : State, ∃ t, exec .deposit s = .next t
    ∧ t = { s with res := t.res, status := Status.good s.status.cfgok }
    ∧ t.res.toNat = s.opa.toNat * 2 ^ tzc s.opb % 2 ^ 32)
  ∧ (∀ c : Word, deposit c 0 = c)
  ∧ deposit 3 0x80000000 = 0x80000000
  ∧ deposit 0x20 0x0000F800 = 0x00010000
  ∧ deposit 0x15 0x0000F800 = 0x0000A800

/-- The laws (a) to (d) of 40_bitmask.md section 3 (R116, which the spec marks as derived by itself). -/
def Obligations.MaskLaws : Prop :=
  (∀ v m : Word, deposit (extract v m) m = v &&& m)
  ∧ (∀ (m c : Word) (n start : Nat), IsRun m n start → c.toNat < 2 ^ n →
      deposit c m &&& m = deposit c m ∧ extract (deposit c m) m = c)
  ∧ (∀ (m₁ m₂ c₁ c₂ : Word) (n₁ n₂ b₁ b₂ : Nat), IsRun m₁ n₁ b₁ → IsRun m₂ n₂ b₂ →
      m₁ &&& m₂ = 0 → c₁.toNat < 2 ^ n₁ → c₂.toNat < 2 ^ n₂ →
      extract (deposit c₁ m₁ ||| deposit c₂ m₂) m₁ = c₁
      ∧ extract (deposit c₁ m₁ ||| deposit c₂ m₂) m₂ = c₂
      ∧ (deposit c₁ m₁ ||| deposit c₂ m₂).toNat = (deposit c₁ m₁).toNat + (deposit c₂ m₂).toNat)
  ∧ (∀ v m : Word, (extract v m).toNat ≤ (extract m m).toNat)
  ∧ (∀ (m : Word) (n start : Nat), IsRun m n start → (extract m m).toNat = 2 ^ n - 1)

/-! ### Row framing -/

/-- 41_row_framing.md R120, R121 and R122, whole: the row byte length is the ceiling of w * d / 8, with the
closed forms per depth; the padding with its table; the stride is the row byte length with its padding, and
the least multiple of 4 not below the row byte length; the image size. -/
def Obligations.FramingArithmetic : Prop :=
  (∀ (w : Nat) (d : PixelDepth),
    w * d.bits ≤ 8 * rowBytes w d.bits ∧ 8 * rowBytes w d.bits < w * d.bits + 8)
  ∧ (∀ w : Nat, rowBytes w 8 = w ∧ rowBytes w 16 = 2 * w ∧ rowBytes w 24 = 3 * w
      ∧ rowBytes w 32 = 4 * w ∧ rowBytes w 4 = (w + 1) / 2 ∧ rowBytes w 1 = (w + 7) / 8)
  ∧ (∀ rb : Nat, padding rb < 4 ∧ (padding rb = 0 ↔ rb % 4 = 0)
      ∧ (rb % 4 = 1 → padding rb = 3) ∧ (rb % 4 = 2 → padding rb = 2)
      ∧ (rb % 4 = 3 → padding rb = 1))
  ∧ (∀ (w : Nat) (d : PixelDepth),
      strideOf w d.bits = rowBytes w d.bits + padding (rowBytes w d.bits)
      ∧ strideOf w d.bits % 4 = 0
      ∧ rowBytes w d.bits ≤ strideOf w d.bits
      ∧ (∀ n, n % 4 = 0 → rowBytes w d.bits ≤ n → strideOf w d.bits ≤ n))
  ∧ (∀ (w h : Nat) (d : PixelDepth), imageSize w h d.bits = h * strideOf w d.bits)

/-- A FRAME that passes its checks latches the derived values, each exact in its register, sets CFGOK and
SPOS = 0, and changes nothing else (41_row_framing.md section 2, the command R125, whose order of checks and
allocation check are decisions D10 and D21). -/
def Obligations.FrameLatchesDerivedValues : Prop :=
  ∀ (s : State) (d : PixelDepth), s.params.legal = true → s.depth.toNat = d.bits →
    1 ≤ s.w → 1 ≤ s.h → s.w * s.h ≤ s.params.gridPixels →
    s.h * ((s.w * d.bits + 7) / 8 + (4 - (s.w * d.bits + 7) / 8 % 4) % 4) ≤ s.params.pbufBytes →
    ∃ t, exec .frame s = .next t
      ∧ t = { s with
          rowbytes := t.rowbytes, pad := t.pad, stride := t.stride, imgsize := t.imgsize, cap := t.cap
          spos := 0, status := Status.good true }
      ∧ t.rowbytes.toNat = (s.w * d.bits + 7) / 8
      ∧ t.pad.toNat = (4 - t.rowbytes.toNat % 4) % 4
      ∧ t.stride.toNat = t.rowbytes.toNat + t.pad.toNat
      ∧ t.imgsize.toNat = s.h * t.stride.toNat
      ∧ t.cap.toNat = (if 3 * s.w * s.h < 32 then 0 else (3 * s.w * s.h - 32) / 8)

/-- A FRAME that fails a check reports the first failing one in the order InvalidDimensions, InvalidDepth,
AllocationFailure, zeroes the derived registers and SPOS, clears CFGOK and changes nothing else
(41_row_framing.md section 2, 60_exceptions.md section 2; the order is decision D10). -/
def Obligations.FrameFailsInOrder : Prop :=
  ∀ s : State,
    let failed : BitVec 8 → State := fun code =>
      { s with
        rowbytes := 0, pad := 0, stride := 0, imgsize := 0, cap := 0, spos := 0
        status := Status.bad false code }
    (s.w = 0 ∨ s.h = 0 → exec .frame s = .next (failed 1))
    ∧ (s.w ≠ 0 → s.h ≠ 0 → (∀ d : PixelDepth, s.depth.toNat ≠ d.bits) →
        exec .frame s = .next (failed 2))
    ∧ (∀ d : PixelDepth, s.w ≠ 0 → s.h ≠ 0 → s.depth.toNat = d.bits →
        s.w * s.h > s.params.gridPixels ∨ imageSize s.w s.h d.bits > s.params.pbufBytes →
        exec .frame s = .next (failed 4))

/-- The bounds of a framed engine (41_row_framing.md section 3, R126, which the spec marks as derived by
itself). -/
def Obligations.FramedEngineBounds : Prop :=
  ∀ (s : State) (d : PixelDepth), s.params.legal = true → s.FramedAs d →
    s.w * s.h ≤ 2 ^ 30
    ∧ 1 ≤ s.rowbytes.toNat ∧ s.rowbytes.toNat ≤ s.stride.toNat
    ∧ s.stride.toNat ≤ s.imgsize.toNat ∧ s.imgsize.toNat ≤ 2 ^ 32 - 1
    ∧ s.units ≤ 3 * 2 ^ 30 ∧ s.cap.toNat < 2 ^ 29
    ∧ s.cap.toNat ≤ s.params.msgBytes

/-! ### Pixel codec: the row functions -/

/-- 42_pixel_codec.md R131, R132 and R133, whole: unpacking at depths 1, 4 and 8, pixel by pixel, in numbers;
blue, green and red are 0; at depths 1 and 4 only the bits of the row's own pixels matter; the examples. -/
def Obligations.UnpackIndexedRows : Prop :=
  (∀ (m : Masks) (W : Nat) (B : List Byte) (j : Nat), j < W →
    (∃ x : Byte, (unpackRow .d1 m W B)[j]? = some { b := 0, g := 0, r := 0, x := x }
      ∧ x.toNat = (B.getD (j / 8) 0).toNat / 2 ^ (7 - j % 8) % 2)
    ∧ (∃ x : Byte, (unpackRow .d4 m W B)[j]? = some { b := 0, g := 0, r := 0, x := x }
      ∧ x.toNat = if j % 2 = 0 then (B.getD (j / 2) 0).toNat / 16 else (B.getD (j / 2) 0).toNat % 16)
    ∧ (unpackRow .d8 m W B)[j]? = some { b := 0, g := 0, r := 0, x := B.getD j 0 })
  ∧ (∀ (d : PixelDepth) (m : Masks) (W : Nat) (B : List Byte), (unpackRow d m W B).length = W)
  ∧ (∀ (m : Masks) (W : Nat) (B B' : List Byte),
      (∀ j, j < W → (B.getD (j / 8) 0).getLsbD (7 - j % 8) = (B'.getD (j / 8) 0).getLsbD (7 - j % 8)) →
      unpackRow .d1 m W B = unpackRow .d1 m W B')
  ∧ (∀ (m : Masks) (W : Nat) (B B' : List Byte),
      (∀ j, j < W → j % 2 = 0 → (B.getD (j / 2) 0).toNat / 16 = (B'.getD (j / 2) 0).toNat / 16) →
      (∀ j, j < W → j % 2 = 1 → (B.getD (j / 2) 0).toNat % 16 = (B'.getD (j / 2) 0).toNat % 16) →
      unpackRow .d4 m W B = unpackRow .d4 m W B')
  ∧ (∀ m : Masks, (unpackRow .d1 m 5 [0xB0]).map Pixel.x = [1, 0, 1, 1, 0]
      ∧ (unpackRow .d4 m 5 [0x12, 0x3F, 0xA7]).map Pixel.x = [1, 2, 3, 15, 10]
      ∧ (unpackRow .d8 m 3 [0x00, 0x7F, 0xFF]).map Pixel.x = [0, 127, 255])

/-- 42_pixel_codec.md R135, whole: unpacking at depth 24 in the order blue, green, red, the fourth slot 0,
whatever the masks; the example. -/
def Obligations.UnpackDepth24 : Prop :=
  (∀ (m : Masks) (W : Nat) (B : List Byte) (j : Nat), j < W →
    (unpackRow .d24 m W B)[j]? =
      some { b := B.getD (3 * j) 0, g := B.getD (3 * j + 1) 0, r := B.getD (3 * j + 2) 0, x := 0 })
  ∧ (∀ (m m' : Masks) (W : Nat) (B : List Byte), unpackRow .d24 m W B = unpackRow .d24 m' W B)
  ∧ (∀ m : Masks, unpackRow .d24 m 1 [1, 2, 3] = [{ b := 1, g := 2, r := 3, x := 0 }])

/-- Unpacking at depths 16 and 32: each component is the low 8 bits of the field its mask selects in the
little-endian pixel word, in numbers (42_pixel_codec.md section 2; the cut to 8 bits is decision D17 and the
byte order at depth 32 decision D15). -/
def Obligations.UnpackMaskedRows : Prop :=
  ∀ (m : Masks) (W : Nat) (B : List Byte) (j : Nat), j < W →
    (∃ p w, (unpackRow .d16 m W B)[j]? = some p ∧ p.x = 0
      ∧ w.toNat = (B.getD (2 * j) 0).toNat + 2 ^ 8 * (B.getD (2 * j + 1) 0).toNat
      ∧ p.b.toNat = (extract w m.b).toNat % 2 ^ 8
      ∧ p.g.toNat = (extract w m.g).toNat % 2 ^ 8
      ∧ p.r.toNat = (extract w m.r).toNat % 2 ^ 8)
    ∧ (∃ p w, (unpackRow .d32 m W B)[j]? = some p
      ∧ w.toNat = (B.getD (4 * j) 0).toNat + 2 ^ 8 * (B.getD (4 * j + 1) 0).toNat
          + 2 ^ 16 * (B.getD (4 * j + 2) 0).toNat + 2 ^ 24 * (B.getD (4 * j + 3) 0).toNat
      ∧ p.b.toNat = (extract w m.b).toNat % 2 ^ 8
      ∧ p.g.toNat = (extract w m.g).toNat % 2 ^ 8
      ∧ p.r.toNat = (extract w m.r).toNat % 2 ^ 8
      ∧ p.x.toNat = (extract w m.a).toNat % 2 ^ 8)

/-- Packing at depths 1, 4 and 8: which bit or nibble of which byte holds which pixel, and that every other
bit of the row is 0 (42_pixel_codec.md section 3; the reduction modulo 2 and 16 is decision D18, the zero
bits are decision D20). -/
def Obligations.PackIndexedRows : Prop :=
  ∀ (m : Masks) (P : List Pixel) (n : Nat),
    (∀ stride, rowBytes P.length 1 ≤ stride → ∀ t, t < 8 →
      ((packRow .d1 m stride P).getD n 0).getLsbD (7 - t)
        = ((P[8 * n + t]?).map fun p => p.x.getLsbD 0).getD false)
    ∧ (∀ stride, rowBytes P.length 4 ≤ stride →
      ((packRow .d4 m stride P).getD n 0).toNat
        = 16 * (((P[2 * n]?).map fun p => p.x.toNat % 16).getD 0)
          + ((P[2 * n + 1]?).map fun p => p.x.toNat % 16).getD 0)
    ∧ (∀ stride, rowBytes P.length 8 ≤ stride →
      (packRow .d8 m stride P).getD n 0 = ((P[n]?).map Pixel.x).getD 0)

/-- Packing at depths 16, 24 and 32: the bytes of pixel `j`, the words little-endian (42_pixel_codec.md
section 3; OR without masking is decision D19). -/
def Obligations.PackColourRows : Prop :=
  ∀ (m : Masks) (P : List Pixel) (j : Nat) (p : Pixel), P[j]? = some p →
    (∀ stride, rowBytes P.length 16 ≤ stride → ∃ w : Word,
      w = deposit (p.b.setWidth 32) m.b ||| deposit (p.g.setWidth 32) m.g
            ||| deposit (p.r.setWidth 32) m.r
      ∧ ((packRow .d16 m stride P).getD (2 * j) 0).toNat = w.toNat % 2 ^ 8
      ∧ ((packRow .d16 m stride P).getD (2 * j + 1) 0).toNat = w.toNat / 2 ^ 8 % 2 ^ 8)
    ∧ (∀ stride, rowBytes P.length 24 ≤ stride →
      (packRow .d24 m stride P).getD (3 * j) 0 = p.b
      ∧ (packRow .d24 m stride P).getD (3 * j + 1) 0 = p.g
      ∧ (packRow .d24 m stride P).getD (3 * j + 2) 0 = p.r)
    ∧ (∀ stride, rowBytes P.length 32 ≤ stride → ∃ w : Word,
      w = deposit (p.b.setWidth 32) m.b ||| deposit (p.g.setWidth 32) m.g
            ||| deposit (p.r.setWidth 32) m.r ||| deposit (p.x.setWidth 32) m.a
      ∧ ((packRow .d32 m stride P).getD (4 * j) 0).toNat = w.toNat % 2 ^ 8
      ∧ ((packRow .d32 m stride P).getD (4 * j + 1) 0).toNat = w.toNat / 2 ^ 8 % 2 ^ 8
      ∧ ((packRow .d32 m stride P).getD (4 * j + 2) 0).toNat = w.toNat / 2 ^ 16 % 2 ^ 8
      ∧ ((packRow .d32 m stride P).getD (4 * j + 3) 0).toNat = w.toNat / 2 ^ 24)

/-- Unpack after pack is the identity on representable rows (42_pixel_codec.md section 5, the law R149, which
the spec derives from its rules; "representable" is `Pixel.Representable`). -/
def Obligations.UnpackAfterPack : Prop :=
  ∀ (d : PixelDepth) (m : Masks) (P : List Pixel), (∀ p ∈ P, p.Representable d m) →
    unpackRow d m P.length
      ((packRow d m (strideOf P.length d.bits) P).take (rowBytes P.length d.bits)) = P

/-- Pack after unpack is the identity on valid packed rows (42_pixel_codec.md section 5, the law R150, which
the spec derives from its rules; "valid" is `ValidRow`). -/
def Obligations.PackAfterUnpack : Prop :=
  ∀ (d : PixelDepth) (m : Masks) (W : Nat) (B : List Byte), ValidRow d m W B →
    packRow d m (strideOf W d.bits) (unpackRow d m W (B.take (rowBytes W d.bits))) = B

/-! ### Pixel codec: the commands -/

/-- UNPACKR on a framed engine with ROW below HEIGHT completes: GRID row ROW holds the unpacked pixels of
packed row ROW, every other byte of every memory and every register but STATUS is unchanged
(42_pixel_codec.md section 4; the row command is decision D6). -/
def Obligations.UnpackrCompletes : Prop :=
  ∀ (s : State) (d : PixelDepth), s.FramedAs d → s.row.toNat < s.h →
    ∃ t, exec .unpackr s = .next t
      ∧ t = { s with grid := t.grid, status := Status.good true }
      ∧ (∀ c, c < s.w → t.pixelAt s.row.toNat c = unpackPixel d s.masks
          ((List.range s.rowbytes.toNat).map fun n => s.byte .pbuf (s.row.toNat * s.stride.toNat + n)) c)
      ∧ (∀ a, a < 4 * (s.row.toNat * s.w) ∨ 4 * (s.row.toNat * s.w + s.w) ≤ a →
          t.byte .grid a = s.byte .grid a)

/-- PACKR on a framed engine with ROW below HEIGHT completes: packed row ROW holds the STRIDE bytes of the
packed grid row, every other byte of every memory and every register but STATUS is unchanged
(42_pixel_codec.md section 4; the row command is decision D6). -/
def Obligations.PackrCompletes : Prop :=
  ∀ (s : State) (d : PixelDepth), s.FramedAs d → s.row.toNat < s.h →
    ∃ t, exec .packr s = .next t
      ∧ t = { s with pbuf := t.pbuf, status := Status.good true }
      ∧ (∀ n, n < s.stride.toNat → t.byte .pbuf (s.row.toNat * s.stride.toNat + n)
          = (packRow d s.masks s.stride.toNat
              ((List.range s.w).map fun c => s.pixelAt s.row.toNat c)).getD n 0)
      ∧ (∀ a, a < s.row.toNat * s.stride.toNat ∨ (s.row.toNat + 1) * s.stride.toNat ≤ a →
          t.byte .pbuf a = s.byte .pbuf a)

/-- 42_pixel_codec.md R147: UNPACK on a framed engine completes: every grid row holds the unpacked pixels of
its packed row; GRID beyond the grid, the other memories and every register but STATUS are unchanged; with
CFGOK = 0 the error is NotConfigured and nothing else changes. -/
def Obligations.UnpackCompletes : Prop :=
  (∀ (s : State) (d : PixelDepth), s.FramedAs d →
    ∃ t, exec .unpack s = .next t
      ∧ t = { s with grid := t.grid, status := Status.good true }
      ∧ (∀ i c, i < s.h → c < s.w → t.pixelAt i c = unpackPixel d s.masks
          ((List.range s.rowbytes.toNat).map fun n => s.byte .pbuf (i * s.stride.toNat + n)) c)
      ∧ (∀ a, 4 * (s.h * s.w) ≤ a → t.byte .grid a = s.byte .grid a))
  ∧ (∀ s : State, s.status.cfgok = false →
      exec .unpack s = .next { s with status := Status.bad false 17 })

/-- 42_pixel_codec.md R148: PACK on a framed engine completes: every byte of PBUF below IMGSIZE belongs to a
packed row and holds its byte, padding included; PBUF from IMGSIZE on, the other memories and every register
but STATUS are unchanged; with CFGOK = 0 the error is NotConfigured and nothing else changes. -/
def Obligations.PackCompletes : Prop :=
  (∀ (s : State) (d : PixelDepth), s.FramedAs d →
    ∃ t, exec .pack s = .next t
      ∧ t = { s with pbuf := t.pbuf, status := Status.good true }
      ∧ (∀ i n, i < s.h → n < s.stride.toNat → t.byte .pbuf (i * s.stride.toNat + n)
          = (packRow d s.masks s.stride.toNat ((List.range s.w).map fun c => s.pixelAt i c)).getD n 0)
      ∧ (∀ a, s.imgsize.toNat ≤ a → t.byte .pbuf a = s.byte .pbuf a))
  ∧ (∀ s : State, s.status.cfgok = false →
      exec .pack s = .next { s with status := Status.bad false 17 })

/-- 41_row_framing.md R123, whole: PACKR and PACK write 0 into every padding byte; UNPACKR and UNPACK give
the same GRID, and no error, for two engines that differ only in padding bytes of PBUF. -/
def Obligations.PaddingZeroOnPackSkippedOnUnpack : Prop :=
  (∀ (s : State) (d : PixelDepth), s.FramedAs d → s.row.toNat < s.h →
    ∃ t, exec .packr s = .next t ∧ ∀ n, s.rowbytes.toNat ≤ n → n < s.stride.toNat →
      t.byte .pbuf (s.row.toNat * s.stride.toNat + n) = 0)
  ∧ (∀ (s : State) (d : PixelDepth), s.FramedAs d →
    ∃ t, exec .pack s = .next t ∧ ∀ i n, i < s.h → s.rowbytes.toNat ≤ n → n < s.stride.toNat →
      t.byte .pbuf (i * s.stride.toNat + n) = 0)
  ∧ (∀ (s : State) (d : PixelDepth) (b : Memory), s.FramedAs d →
    (∀ i n, i < s.h → n < s.rowbytes.toNat →
      b.byteAt .pbuf (i * s.stride.toNat + n) = s.byte .pbuf (i * s.stride.toNat + n)) →
    (s.row.toNat < s.h → ∃ t u, exec .unpackr s = .next t ∧ exec .unpackr { s with pbuf := b } = .next u
      ∧ u.grid = t.grid ∧ u.status.err = false ∧ t.status.err = false)
    ∧ ∃ t u, exec .unpack s = .next t ∧ exec .unpack { s with pbuf := b } = .next u
      ∧ u.grid = t.grid ∧ u.status.err = false ∧ t.status.err = false)

/-- UNPACK equals HEIGHT UNPACKR commands in any order, and PACK equals HEIGHT PACKR commands in any order,
but for ROW (20_memory.md section 6 R79, 42_pixel_codec.md section 4 R147). -/
def Obligations.WholeImageEqualsRowsInAnyOrder : Prop :=
  ∀ (s : State) (d : PixelDepth) (order : List Nat), s.Inv → s.FramedAs d →
    order.Perm (List.range s.h) →
    (∃ t u, exec .unpack s = .next t ∧ execAll (order.map (withRow .unpackr)) s = .next u
      ∧ u = { t with row := u.row })
    ∧ (∃ t u, exec .pack s = .next t ∧ execAll (order.map (withRow .packr)) s = .next u
      ∧ u = { t with row := u.row })

/-- PACK then UNPACK leaves every byte of GRID as it was when every pixel of the grid is representable
(42_pixel_codec.md section 5 R149, 70_reset_and_hazards.md section 3 R231, both derived by the spec). -/
def Obligations.PackThenUnpackKeepsGrid : Prop :=
  ∀ (s : State) (d : PixelDepth), s.FramedAs d →
    (∀ r c, r < s.h → c < s.w → (s.pixelAt r c).Representable d s.masks) →
    ∃ t u, exec .pack s = .next t ∧ exec .unpack t = .next u
      ∧ ∀ a, u.byte .grid a = s.byte .grid a

/-! ### Steganographic channel -/

/-- The parity bit cell: the table and the laws of writing a bit (43_steganography.md sections 1 and 4; that
the adjustment goes up is decision D23). -/
def Obligations.PutbitLaws : Prop :=
  ∀ (v : Byte) (b : Bool),
    getbit v = (v.toNat % 2 == 1)
    ∧ getbit (putbit v b) = b
    ∧ (putbit v b).toNat ≤ v.toNat + 1 ∧ v.toNat ≤ (putbit v b).toNat + 1
    ∧ putbit (putbit v b) b = putbit v b
    ∧ (v.toNat < 255 → (putbit v b).toNat = if getbit v = b then v.toNat else v.toNat + 1)
    ∧ (v = 255 → putbit v b = if b then 255 else 254)

/-- The unit map: the units are the blue, green and red bytes of the pixels in row-major order, and no unit
is a fourth slot (43_steganography.md section 1: R160, and R161, which the spec derives). -/
def Obligations.UnitMapScansRowMajor : Prop :=
  (∀ w h r c ch : Nat, r < h → c < w → ch < 3 →
    3 * (r * w + c) + ch < 3 * w * h ∧ unitAddr (3 * (r * w + c) + ch) = gridAddr w r c + ch)
  ∧ (∀ w h k : Nat, k < 3 * w * h → ∃ r c ch, r < h ∧ c < w ∧ ch < 3 ∧ k = 3 * (r * w + c) + ch)
  ∧ (∀ k : Nat, unitAddr k % 4 ≠ 3)
  ∧ (∀ k k' : Nat, k < k' → unitAddr k < unitAddr k')

/-- SRWD on a framed engine with DEPTH at least 16 completes: SPOS becomes 0, nothing else but STATUS changes
(43_steganography.md section 2; the command is decision D28). -/
def Obligations.SrwdCompletes : Prop :=
  ∀ s : State, s.status.cfgok = true → 16 ≤ s.depth.toNat →
    exec .srwd s = .next { s with spos := 0, status := Status.good true }

/-- SPUT with SPOS below the number of units completes: the byte of unit SPOS takes the parity of OPA bit 0,
SPOS goes up by one, every other byte and every other register but STATUS is unchanged (43_steganography.md
section 2; the command is decision D28). -/
def Obligations.SputCompletes : Prop :=
  ∀ (s : State) (d : PixelDepth), s.params.legal = true → s.FramedAs d → 16 ≤ d.bits →
    s.spos.toNat < s.units →
    ∃ t, exec .sput s = .next t
      ∧ t = { s with grid := t.grid, spos := t.spos, status := Status.good true }
      ∧ t.spos.toNat = s.spos.toNat + 1
      ∧ t.byte .grid (unitAddr s.spos.toNat)
          = putbit (s.byte .grid (unitAddr s.spos.toNat)) (s.opa.getLsbD 0)
      ∧ ∀ a, a ≠ unitAddr s.spos.toNat → t.byte .grid a = s.byte .grid a

/-- SGET with SPOS below the number of units completes: RES is the parity of the byte of unit SPOS, SPOS goes
up by one, nothing else but STATUS changes (43_steganography.md section 2; the command is decision D28). -/
def Obligations.SgetCompletes : Prop :=
  ∀ (s : State) (d : PixelDepth), s.params.legal = true → s.FramedAs d → 16 ≤ d.bits →
    s.spos.toNat < s.units →
    ∃ t, exec .sget s = .next t
      ∧ t = { s with res := t.res, spos := t.spos, status := Status.good true }
      ∧ t.spos.toNat = s.spos.toNat + 1
      ∧ t.res.toNat = (s.byte .grid (unitAddr s.spos.toNat)).toNat % 2

/-- SPUT and SGET at the end of the scan raise ScanEnd and change nothing but STATUS (43_steganography.md
section 2; the kind is decision D9). -/
def Obligations.ScanEndChangesOnlyStatus : Prop :=
  ∀ s : State, s.status.cfgok = true → 16 ≤ s.depth.toNat → s.units ≤ s.spos.toNat →
    exec .sput s = .next { s with status := Status.bad true 19 }
    ∧ exec .sget s = .next { s with status := Status.bad true 19 }

/-- SWRITE on an engine that can embed completes: the first 32 units spell PLEN, the next 8 * PLEN units the
payload bytes, all least significant bit first, and every remaining unit the drawn bits in order; each unit's
byte is the old byte with the bit put into it; no other byte changes; SPOS is the number of units; one bit is
drawn per filler unit (43_steganography.md sections 1 and 3, the layout R165, the command R170; the filler is
decision D27). -/
def Obligations.SwriteCompletes : Prop :=
  ∀ (s : State) (d : PixelDepth), s.CanEmbed d →
    ∃ t, exec .swrite s = .next t
      ∧ t = { s with
          grid := t.grid, spos := t.spos, status := Status.good true
          randomFeed := s.randomFeed.drop (s.units - (32 + 8 * s.plen.toNat))
          drawPos := s.drawPos + (s.units - (32 + 8 * s.plen.toNat)) }
      ∧ t.spos.toNat = s.units
      ∧ (∀ i, i < 32 → getUnit t.grid i = s.plen.getLsbD i)
      ∧ (∀ j i, j < s.plen.toNat → i < 8 →
          getUnit t.grid (32 + 8 * j + i) = (s.byte .msg j).getLsbD i)
      ∧ (∀ k, 32 + 8 * s.plen.toNat ≤ k → k < s.units →
          getUnit t.grid k = s.drawnBit (k - (32 + 8 * s.plen.toNat)))
      ∧ (∀ k, k < s.units →
          t.byte .grid (unitAddr k) = putbit (s.byte .grid (unitAddr k)) (getUnit t.grid k))
      ∧ (∀ a, (∀ k, k < s.units → a ≠ unitAddr k) → t.byte .grid a = s.byte .grid a)

/-- SWRITE with fewer than 32 units, or with PLEN above CAP, raises PayloadTooLarge and changes nothing but
STATUS: no byte is written and no bit drawn (43_steganography.md section 3; the first case is decision D25). -/
def Obligations.PayloadTooLargeChangesOnlyStatus : Prop :=
  ∀ s : State, s.status.cfgok = true → 16 ≤ s.depth.toNat →
    s.units < 32 ∨ s.cap.toNat < s.plen.toNat →
    exec .swrite s = .next { s with status := Status.bad true 9 }

/-- SREAD of a length `L` at most CAP completes: PLEN is `L`, the first `L` bytes of MSG are the bytes the
units spell, SPOS is 32 + 8 * L; GRID, the other bytes of MSG, PBUF and every other register but STATUS are
unchanged (43_steganography.md sections 1 and 3; SPOS is decision D28). -/
def Obligations.SreadCompletes : Prop :=
  ∀ (s : State) (d : PixelDepth) (L : Nat), s.params.legal = true → s.FramedAs d → 16 ≤ d.bits →
    32 ≤ s.units → L < 2 ^ 32 → (∀ i, i < 32 → L.testBit i = getUnit s.grid i) → L ≤ s.cap.toNat →
    ∃ t, exec .sread s = .next t
      ∧ t = { s with plen := t.plen, msg := t.msg, spos := t.spos, status := Status.good true }
      ∧ t.plen.toNat = L ∧ t.spos.toNat = 32 + 8 * L
      ∧ (∀ j i, j < L → i < 8 → (t.byte .msg j).getLsbD i = getUnit s.grid (32 + 8 * j + i))
      ∧ (∀ j, L ≤ j → t.byte .msg j = s.byte .msg j)

/-- SREAD of a length above CAP raises InvalidLength with PLEN the decoded length and SPOS = 32; with fewer
than 32 units it raises InvalidLength and changes nothing but STATUS (43_steganography.md section 3;
decisions D25 and D29). -/
def Obligations.SreadInvalidLength : Prop :=
  (∀ (s : State) (d : PixelDepth) (L : Nat), s.FramedAs d → 16 ≤ d.bits →
    32 ≤ s.units → L < 2 ^ 32 → (∀ i, i < 32 → L.testBit i = getUnit s.grid i) → s.cap.toNat < L →
    exec .sread s = .next
      { s with plen := BitVec.ofNat 32 L, spos := 32, status := Status.bad true 10 })
  ∧ (∀ s : State, s.status.cfgok = true → 16 ≤ s.depth.toNat → s.units < 32 →
      exec .sread s = .next { s with status := Status.bad true 10 })

/-- The payload survives: after a successful SWRITE, any engine with the same frame whose bytes at unit
offsets are those SWRITE left reads back PLEN and the payload, for every sequence of drawn bits
(43_steganography.md section 4, R173 (b), which the spec derives). -/
def Obligations.EmbeddedPayloadIsExtracted : Prop :=
  ∀ (s : State) (d : PixelDepth), s.CanEmbed d →
    ∃ t, exec .swrite s = .next t ∧ t.status.err = false
      ∧ ∀ u : State, u.params = s.params → u.width = s.width → u.height = s.height → u.FramedAs d →
          (∀ k, k < s.units → u.byte .grid (unitAddr k) = t.byte .grid (unitAddr k)) →
          ∃ v, exec .sread u = .next v ∧ v.status.err = false ∧ v.plen = s.plen
            ∧ ∀ j, j < s.plen.toNat → v.byte .msg j = s.byte .msg j

/-- SWRITE equals SRWD followed by one SPUT per unit, whose bits are the 32 length bits, the payload bits and
the drawn bits: the same GRID and the same SPOS (43_steganography.md section 4, R173 (c), which the spec
derives). -/
def Obligations.SwriteEqualsSputs : Prop :=
  ∀ (s : State) (d : PixelDepth), s.CanEmbed d →
    ∃ (t u : State) (bits : List Bool), exec .swrite s = .next t
      ∧ bits.length = s.units
      ∧ (∀ i, i < 32 → bits[i]? = some (s.plen.getLsbD i))
      ∧ (∀ j i, j < s.plen.toNat → i < 8 → bits[32 + 8 * j + i]? = some ((s.byte .msg j).getLsbD i))
      ∧ (∀ n, 32 + 8 * s.plen.toNat + n < s.units →
          bits[32 + 8 * s.plen.toNat + n]? = some (s.drawnBit n))
      ∧ execAll (exec .srwd :: bits.map sputBit) s = .next u
      ∧ u.grid = t.grid ∧ u.spos = t.spos

/-- The units below 32 + 8 * PLEN do not depend on the drawn bits: two engines that differ only in the random
source leave the same bytes there, and both succeed (43_steganography.md section 4 R175, decision D27;
70_reset_and_hazards.md section 3 R235). -/
def Obligations.FillerDoesNotReachPayload : Prop :=
  ∀ (s : State) (d : PixelDepth) (feed : List Bool) (pos : Nat), s.CanEmbed d →
    ∃ t u, exec .swrite s = .next t
      ∧ exec .swrite { s with randomFeed := feed, drawPos := pos } = .next u
      ∧ u.status = t.status ∧ u.spos = t.spos
      ∧ ∀ k, k < 32 + 8 * s.plen.toNat →
          u.byte .grid (unitAddr k) = t.byte .grid (unitAddr k)

/-! ### Errors common to several commands -/

/-- The nine commands that need a framed engine raise NotConfigured with CFGOK = 0 and change nothing but
STATUS (60_exceptions.md sections 1 and 2; the kind is decision D9). -/
def Obligations.NotConfiguredChangesOnlyStatus : Prop :=
  ∀ (i : Instr) (s : State),
    i ∈ [Instr.unpackr, .packr, .unpack, .pack, .srwd, .sput, .sget, .swrite, .sread] →
    s.status.cfgok = false → exec i s = .next { s with status := Status.bad false 17 }

/-- The five steganographic commands raise UnsupportedDepth on a framed engine with DEPTH below 16 and change
nothing but STATUS (43_steganography.md section 1; that all five check is decision D24). -/
def Obligations.UnsupportedDepthChangesOnlyStatus : Prop :=
  ∀ (i : Instr) (s : State), i ∈ [Instr.srwd, .sput, .sget, .swrite, .sread] →
    s.status.cfgok = true → s.depth.toNat < 16 →
    exec i s = .next { s with status := Status.bad true 8 }

/-- UNPACKR and PACKR raise RowRange with ROW at least HEIGHT and change nothing but STATUS
(42_pixel_codec.md section 4; the kind is decision D9). -/
def Obligations.RowRangeChangesOnlyStatus : Prop :=
  ∀ (i : Instr) (s : State), i ∈ [Instr.unpackr, .packr] →
    s.status.cfgok = true → s.h ≤ s.row.toNat →
    exec i s = .next { s with status := Status.bad true 18 }

/-- A failing command writes no memory and draws no bit, and changes no register but STATUS, except that a
failing FRAME zeroes the derived registers and SPOS and that a failing SREAD may write PLEN and SPOS
(60_exceptions.md section 1, R192, decision D8). -/
def Obligations.FailingCommandsLeaveNoHalfDoneWork : Prop :=
  ∀ (i : Instr) (s t : State), exec i s = .next t → t.status.err = true →
    t.grid = s.grid ∧ t.pbuf = s.pbuf ∧ t.msg = s.msg
    ∧ t.drawPos = s.drawPos ∧ t.randomFeed = s.randomFeed
    ∧ (i ≠ .frame → i ≠ .sread → t = { s with status := t.status })
    ∧ (i = .frame → t = { s with
        rowbytes := 0, pad := 0, stride := 0, imgsize := 0, cap := 0, spos := 0, status := t.status })
    ∧ (i = .sread → t = { s with plen := t.plen, spos := t.spos, status := t.status })

/-! ### The machine -/

/-- Every command that ends in a next state leaves BUSY 0 and DONE 1, a code the engine produces in ERRCODE,
0 exactly when ERR = 0, and only FRAME changes CFGOK (30_encoding.md section 5 R100, 10_state.md R36, decisions
D7 and D8). -/
def Obligations.CompletionSetsStatus : Prop :=
  ∀ (i : Instr) (s t : State), exec i s = .next t →
    t.status.busy = false ∧ t.status.done = true
    ∧ t.status.errcode ∈ producedCodes ∧ (t.status.err = true ↔ t.status.errcode ≠ 0)
    ∧ (i ≠ .frame → t.status.cfgok = s.status.cfgok)

/-- Each register is written only by the commands whose result it is (30_encoding.md R91, 10_state.md R23): the
configuration, mask and operand registers, CTRL and PEND by none, RES by TZC, EXTRACT, DEPOSIT and SGET, PLEN
by SREAD, SPOS by FRAME and the channel, the derived registers by FRAME (decisions D4 and D6). -/
def Obligations.CommandsWriteOnlyTheirResults : Prop :=
  ∀ (i : Instr) (s t : State), exec i s = .next t →
    (t.width = s.width ∧ t.height = s.height ∧ t.depth = s.depth ∧ t.masks = s.masks
      ∧ t.opa = s.opa ∧ t.opb = s.opb ∧ t.row = s.row ∧ t.ien = s.ien ∧ t.pend = s.pend
      ∧ t.params = s.params ∧ t.agenda = s.agenda ∧ t.busData = s.busData)
    ∧ (i ∉ [Instr.tzc, .extract, .deposit, .sget] → t.res = s.res)
    ∧ (i ≠ .sread → t.plen = s.plen)
    ∧ (i ∉ [Instr.frame, .srwd, .sput, .sget, .swrite, .sread] → t.spos = s.spos)
    ∧ (i ≠ .frame → t.rowbytes = s.rowbytes ∧ t.pad = s.pad ∧ t.stride = s.stride
        ∧ t.imgsize = s.imgsize ∧ t.cap = s.cap)
    ∧ (i ≠ .swrite → t.drawPos = s.drawPos ∧ t.randomFeed = s.randomFeed)

/-- Every byte of every memory that a command does not list among its writes keeps its value
(20_memory.md section 4, the table R70, which the spec derives; the list is `writeSet`). -/
def Obligations.CommandsWriteOnlyTheirBytes : Prop :=
  ∀ (i : Instr) (s t : State) (sp : Space) (a : Nat), exec i s = .next t →
    (sp, a) ∉ writeSet i s → t.byte sp a = s.byte sp a

/-- Decoding and encoding agree on every 32-bit word: a word decodes to a command exactly when it is that
command's word (30_encoding.md section 2, R93, decision D6). -/
def Obligations.DecodeInvertsEncode : Prop :=
  ∀ (w : Word) (i : Instr), decode w = .ok i ↔ w = encode i

/-- The thirteen command words of 30_encoding.md section 2 (R93), written out, decode to their commands, and
three words that 95_test_vectors.md names as illegal decode to none (decision D6).  The two names under which
the decoder rejects a word are the model's own choice (log entry 15). -/
def Obligations.SpecWordsDecode : Prop :=
  decode 0x00000001 = .ok .tzc ∧ decode 0x00000002 = .ok .extract ∧ decode 0x00000003 = .ok .deposit
  ∧ decode 0x00000010 = .ok .frame
  ∧ decode 0x00000020 = .ok .unpackr ∧ decode 0x00000021 = .ok .packr
  ∧ decode 0x00000022 = .ok .unpack ∧ decode 0x00000023 = .ok .pack
  ∧ decode 0x00000030 = .ok .srwd ∧ decode 0x00000031 = .ok .sput ∧ decode 0x00000032 = .ok .sget
  ∧ decode 0x00000033 = .ok .swrite ∧ decode 0x00000034 = .ok .sread
  ∧ decode 0x00000000 = .error (.unassignedOpcode 0x00)
  ∧ decode 0x00000024 = .error (.unassignedOpcode 0x24)
  ∧ decode 0x00000102 = .error (.reservedBits 0x000001)

/-- An illegal command word completes with IllegalCommand and changes nothing else, whether the agenda names
the engine's turn or is empty (30_encoding.md section 3, decisions D6 and D9; the agenda is the model's, log
entry 4). -/
def Obligations.IllegalWordRaisesIllegalCommand : Prop :=
  ∀ (s : State) (rest : List Turn), s.status.busy = true → s.EngineNext rest →
    (∀ i : Instr, s.pend ≠ encode i) →
    step s = .next { s with status := Status.bad s.status.cfgok 16, agenda := rest }

/-- A step runs the decoded command: when BUSY = 1, PEND holds the word of a command and the engine has the
turn, the step is that command's meaning; with BUSY = 0 the engine's turn changes nothing (10_state.md
section 1, 30_encoding.md section 5, decision D7; the agenda is the model's, log entry 4). -/
def Obligations.StepRunsDecodedCommand : Prop :=
  (∀ (s : State) (i : Instr), s.status.busy = true → s.agenda = [] → decode s.pend = .ok i →
    step s = exec i s)
  ∧ (∀ (s : State) (i : Instr) (rest : List Turn), s.status.busy = true →
      s.agenda = .engine :: rest → decode s.pend = .ok i → step s = exec i { s with agenda := rest })
  ∧ (∀ s : State, s.status.busy = false → s.agenda = [] → step s = .next s)
  ∧ (∀ (s : State) (rest : List Turn), s.status.busy = false → s.agenda = .engine :: rest →
      step s = .next { s with agenda := rest })

/-- A host write of any word to CMD at an idle engine, a command's or an illegal one, only latches PEND and
sets BUSY, clearing DONE, ERR and ERRCODE; after a command's word the engine's next turn is the command's
meaning (30_encoding.md section 5, R99 and R100, decision D7; what follows an illegal word is stated by
IllegalWordRaisesIllegalCommand; the agenda is the model's, log entry 4). -/
def Obligations.IssueThenComplete : Prop :=
  (∀ (s : State) (w : Word) (rest : List Turn), s.status.busy = false →
    s.agenda = .host (.writeReg 0x48 .word w) :: rest →
    step s = .next { s with
      pend := w, agenda := rest
      status :=
        { busy := true, done := false, err := false, cfgok := s.status.cfgok, errcode := 0 } })
  ∧ (∀ (s : State) (i : Instr) (rest : List Turn), s.status.busy = false →
    s.agenda = .host (.writeReg 0x48 .word (encode i)) :: .engine :: rest →
    ∃ t, step s = .next t
      ∧ t = { s with
          pend := encode i, agenda := .engine :: rest
          status :=
            { busy := true, done := false, err := false, cfgok := s.status.cfgok, errcode := 0 } }
      ∧ step t = exec i { t with agenda := rest })

/-- The state after reset meets the invariant (10_state.md section 5; the sizes are the model's choice, log
entry 2). -/
def Obligations.ResetMeetsInvariant : Prop := State.reset.Inv

/-- Every step from a state that meets the invariant leads to a state that meets it: legal sizes, canonical
memories inside their spaces, CFGOK = 1 only with the registers a successful FRAME leaves, CFGOK = 0 only
with the derived registers 0, a legal STATUS (10_state.md sections 2 and 3, 41_row_framing.md section 3). -/
def Obligations.StepKeepsInvariant : Prop :=
  ∀ s t : State, s.Inv → step s = .next t → t.Inv

/-- From a state that meets the invariant no step faults: the engine never generates an address outside a
space (20_memory.md section 5, R78, which the spec derives). -/
def Obligations.InvariantStepNeverFaults : Prop :=
  ∀ (s : State) (r : Fault), s.Inv → step s ≠ .fault r

/-- BUSY never lasts: from a state that meets the invariant the engine's turn ends the command in flight,
whether the agenda names that turn or is empty (70_reset_and_hazards.md section 4, R238, which the spec
derives; the agenda is the model's, log entry 4). -/
def Obligations.EnginesTurnEndsBusy : Prop :=
  ∀ (s : State) (rest : List Turn), s.Inv → s.status.busy = true → s.EngineNext rest →
    ∃ t, step s = .next t ∧ t.status.busy = false ∧ t.status.done = true ∧ t.agenda = rest

/-! ### The host -/

/-- A host write to a register of an idle engine: an RW register then reads as written, reserved bits dropped,
an RO register is unchanged, CMD reads 0; a write to anything but WIDTH, HEIGHT, DEPTH and CMD changes no
other register and no memory; a write to a reserved offset is dropped (10_state.md section 2, decision D4). -/
def Obligations.RegisterWriteThenRead : Prop :=
  (∀ (s : State) (r : Reg) (v : Word) (rest : List Turn), s.status.busy = false →
    s.agenda = .host (.writeReg r.offset .word v) :: rest →
    ∃ t, step s = .next t ∧ t.agenda = rest
      ∧ (∀ sp a, t.byte sp a = s.byte sp a)
      ∧ (r ∈ [Reg.width, .height, .rmask, .gmask, .bmask, .amask, .opa, .opb, .row, .plen] →
          t.readReg r = v)
      ∧ (r = .depth → t.readReg r = v &&& 0x0000FFFF)
      ∧ (r = .ctrl → t.readReg r = v &&& 1)
      ∧ (r ∈ [Reg.rowbytes, .pad, .stride, .imgsize, .cap, .res, .spos] → t = { s with agenda := rest })
      ∧ (r = .status → t.readReg r =
          if v.getLsbD 1 then s.readReg r &&& 0xFFFFFFFD else s.readReg r)
      ∧ t.readReg .cmd = 0
      ∧ (r ∉ [Reg.width, .height, .depth, .cmd] → ∀ r', r' ≠ r → t.readReg r' = s.readReg r'))
  ∧ (∀ (s : State) (o : Nat) (v : Word) (rest : List Turn), s.status.busy = false → o % 4 = 0 →
    0x54 ≤ o → o < 256 → s.agenda = .host (.writeReg o .word v) :: rest →
    step s = .next { s with agenda := rest })

/-- A host write to WIDTH, HEIGHT or DEPTH, even of the old value, clears CFGOK, the derived registers and
SPOS, keeps DONE, ERR and ERRCODE, and changes nothing else (10_state.md section 2, R39, decision D21). -/
def Obligations.ConfigurationWriteLosesFrame : Prop :=
  ∀ (s : State) (r : Reg) (v : Word) (rest : List Turn), s.status.busy = false →
    r ∈ [Reg.width, .height, .depth] → s.agenda = .host (.writeReg r.offset .word v) :: rest →
    ∃ t, step s = .next t
      ∧ t = { s with
          width := t.width, height := t.height, depth := t.depth
          rowbytes := 0, pad := 0, stride := 0, imgsize := 0, cap := 0, spos := 0
          status := { s.status with cfgok := false }, agenda := rest }
      ∧ (r ≠ .width → t.width = s.width) ∧ (r ≠ .height → t.height = s.height)
      ∧ (r ≠ .depth → t.depth = s.depth)

/-- A host read of a register or of bytes changes nothing but the record of what it returned, and returns the
register's value, or 0 at a reserved offset, or the bytes (20_memory.md section 4, R72, decision D4; the record
is the model's, log entry 6). -/
def Obligations.HostReadsHaveNoSideEffect : Prop :=
  (∀ (s : State) (o : Nat) (rest : List Turn), s.status.busy = false → o % 4 = 0 → o < 256 →
    s.agenda = .host (.readReg o .word) :: rest →
    ∃ w, step s = .next { s with agenda := rest, busData := .word w }
      ∧ (∀ r : Reg, r.offset = o → w = s.readReg r) ∧ (0x54 ≤ o → w = 0))
  ∧ (∀ (s : State) (sp : Space) (o n : Nat) (rest : List Turn), s.status.busy = false →
    o + n ≤ s.params.size sp → s.agenda = .host (.readMem sp o n) :: rest →
    ∃ l, step s = .next { s with agenda := rest, busData := .bytes l }
      ∧ l.length = n ∧ ∀ i, i < n → l[i]? = some (s.byte sp (o + i)))

/-- A host write of bytes inside a space of an idle engine: those bytes read as written, every other byte of
the three spaces and every register is unchanged (20_memory.md sections 3 and 6, decision D31). -/
def Obligations.HostMemoryWriteThenRead : Prop :=
  ∀ (s : State) (sp : Space) (o : Nat) (bs : List Byte) (rest : List Turn), s.status.busy = false →
    o + bs.length ≤ s.params.size sp → s.agenda = .host (.writeMem sp o bs) :: rest →
    ∃ t, step s = .next t ∧ t.agenda = rest
      ∧ (∀ i, i < bs.length → some (t.byte sp (o + i)) = bs[i]?)
      ∧ (∀ a, a < o ∨ o + bs.length ≤ a → t.byte sp a = s.byte sp a)
      ∧ (∀ sp' a, sp' ≠ sp → t.byte sp' a = s.byte sp' a)
      ∧ t = { s with grid := t.grid, pbuf := t.pbuf, msg := t.msg, agenda := rest }

/-- Outside the host contract the model refuses: while BUSY = 1 everything but an aligned word read of STATUS
and reset; at any time a register access that is no word or not aligned, and a memory access beyond the end of
a space (70_reset_and_hazards.md section 3 R227, 10_state.md R42, 20_memory.md R69, decisions D30 and D31; log
entry 9).  That a register access beyond the 256 bytes of the window is refused too is the model's own
reading, of which the spec says nothing (log entry 20, DEDUCED). -/
def Obligations.ContractViolationsAreRefused : Prop :=
  ∀ (s : State) (a : HostAccess) (rest : List Turn), s.agenda = .host a :: rest →
    (s.status.busy = true → a ≠ .reset → a ≠ .readReg 0x4C .word → ∃ r, step s = .refused r)
    ∧ (s.status.busy = true → a = .readReg 0x4C .word → s.Inv →
        step s = .next { s with
          agenda := rest
          busData := .word (if s.status.cfgok then 0x00000009 else 0x00000001) })
    ∧ (∀ o w, a = .readReg o w ∨ (∃ v, a = .writeReg o w v) → w ≠ .word ∨ o % 4 ≠ 0 ∨ 256 ≤ o →
        ∃ r, step s = .refused r)
    ∧ (∀ sp o n, a = .readMem sp o n ∨ (∃ bs, a = .writeMem sp o bs ∧ bs.length = n) →
        s.params.size sp < o + n → ∃ r, step s = .refused r)

/-- Reset makes every register read 0 and leaves the sizes, the draw position and, with BUSY = 0 or an illegal
word in flight, every byte of the memories; with a command in flight it leaves every byte that command could
not have written (70_reset_and_hazards.md section 1, R220 to R223, 30_encoding.md section 3, 10_state.md
section 5, decisions D5 and D35). -/
def Obligations.ResetClearsRegistersKeepsMemories : Prop :=
  ∀ (s : State) (rest : List Turn), s.agenda = .host .reset :: rest →
    ∃ t, step s = .next t ∧ (∀ r : Reg, t.readReg r = 0) ∧ t.irq = false
      ∧ t.status.busy = false ∧ t.params = s.params ∧ t.drawPos = s.drawPos ∧ t.agenda = rest
      ∧ (s.status.busy = false → ∀ sp a, t.byte sp a = s.byte sp a)
      ∧ (s.status.busy = true → (∀ i : Instr, s.pend ≠ encode i) →
          ∀ sp a, t.byte sp a = s.byte sp a)
      ∧ (∀ i, s.status.busy = true → decode s.pend = .ok i →
          ∀ sp a, (sp, a) ∉ writeSet i s → t.byte sp a = s.byte sp a)

/-- The interrupt output is CTRL.IEN AND STATUS.DONE in every state: with IEN = 1 it rises with every
completion, that of an illegal word included, and falls with the acknowledging write and with the next issue
(60_exceptions.md section 3, R195 and R196, decision D11; the agenda is the model's, log entry 4). -/
def Obligations.InterruptFollowsDone : Prop :=
  (∀ s : State, s.irq = (s.ien && s.status.done))
  ∧ (∀ (i : Instr) (s t : State), exec i s = .next t → t.irq = s.ien)
  ∧ (∀ (s : State) (rest : List Turn), s.status.busy = true → s.EngineNext rest →
      (∀ i : Instr, s.pend ≠ encode i) → ∃ t, step s = .next t ∧ t.irq = s.ien)
  ∧ (∀ (s : State) (v : Word) (rest : List Turn), s.status.busy = false →
      s.agenda = .host (.writeReg 0x4C .word v) :: rest → v.getLsbD 1 = true →
      ∃ t, step s = .next t ∧ t.irq = false)
  ∧ (∀ (s : State) (v : Word) (rest : List Turn), s.status.busy = false →
      s.agenda = .host (.writeReg 0x48 .word v) :: rest → ∃ t, step s = .next t ∧ t.irq = false)
end

