-- ==== Sys2Proof/Laws/Memory.lean ====
section
/-! SUPPORT. The laws of the memories: read after write, the canonical form, blocks of bytes. -/

namespace Sys2Proof.Machine

open Sys2Proof

/-! ### One byte -/

@[simp] theorem Memory.read_nil (a : Nat) : Memory.read [] a = none := rfl

theorem Memory.read_cons (k : Nat) (b : Byte) (m : Memory) (a : Nat) :
    Memory.read ((k, b) :: m) a = if a = k then some b else Memory.read m a := rfl

@[simp] theorem Memory.read_write_same (m : Memory) (a : Nat) (v : Byte) :
    (m.write a v).read a = some v := by
  induction m with
  | nil => simp [Memory.write, Memory.read]
  | cons c m ih =>
    obtain ⟨k, b⟩ := c
    by_cases h : a < k
    · simp [Memory.write, Memory.read, h]
    · by_cases h2 : a = k
      · subst h2; simp [Memory.write, Memory.read]
      · simp [Memory.write, Memory.read, h, h2, ih]

theorem Memory.read_write_ne (m : Memory) {a a' : Nat} (v : Byte) (hne : a' ≠ a) :
    (m.write a v).read a' = m.read a' := by
  induction m with
  | nil => simp [Memory.write, Memory.read, hne]
  | cons c m ih =>
    obtain ⟨k, b⟩ := c
    by_cases h : a < k
    · simp [Memory.write, Memory.read, h, hne]
    · by_cases h2 : a = k
      · subst h2; simp [Memory.write, Memory.read, hne]
      · simp [Memory.write, Memory.read, h, h2, ih]

@[simp] theorem Memory.byteAt_write_same (m : Memory) (sp : Space) (a : Nat) (v : Byte) :
    (m.write a v).byteAt sp a = v := by simp [Memory.byteAt]

theorem Memory.byteAt_write_ne (m : Memory) (sp : Space) {a a' : Nat} (v : Byte) (hne : a' ≠ a) :
    (m.write a v).byteAt sp a' = m.byteAt sp a' := by
  simp [Memory.byteAt, Memory.read_write_ne m v hne]

theorem Memory.byteAt_write (m : Memory) (sp : Space) (a a' : Nat) (v : Byte) :
    (m.write a v).byteAt sp a' = if a' = a then v else m.byteAt sp a' := by
  by_cases h : a' = a
  · subst h; simp
  · simp [h, Memory.byteAt_write_ne m sp v h]

/-! ### The canonical form -/

theorem Memory.wfFrom_mono {m : Memory} : ∀ {lo lo' : Nat}, lo ≤ lo' → m.wfFrom lo' = true →
    m.wfFrom lo = true := by
  cases m with
  | nil => intros; rfl
  | cons c m =>
    obtain ⟨k, b⟩ := c
    intro lo lo' hle h
    simp only [Memory.wfFrom, Bool.and_eq_true, decide_eq_true_eq] at h ⊢
    exact ⟨hle.trans h.1, h.2⟩

theorem Memory.wfFrom_write (m : Memory) (v : Byte) : ∀ {lo a : Nat}, lo ≤ a →
    m.wfFrom lo = true → (m.write a v).wfFrom lo = true := by
  induction m with
  | nil => intro lo a hle _; simp [Memory.write, Memory.wfFrom, hle]
  | cons c m ih =>
    obtain ⟨k, b⟩ := c
    intro lo a hle h
    simp only [Memory.wfFrom, Bool.and_eq_true, decide_eq_true_eq] at h
    by_cases h1 : a < k
    · simp only [Memory.write, h1, if_true, Memory.wfFrom, Bool.and_eq_true, decide_eq_true_eq]
      exact ⟨hle, h1, h.2⟩
    · by_cases h2 : a = k
      · subst h2
        simp only [Memory.write, h1, if_false, if_true, Memory.wfFrom, Bool.and_eq_true,
          decide_eq_true_eq]
        exact ⟨hle, h.2⟩
      · simp only [Memory.write, h1, h2, if_false, Memory.wfFrom, Bool.and_eq_true,
          decide_eq_true_eq]
        exact ⟨h.1, ih (by omega) h.2⟩

/-- A write keeps the canonical form. -/
theorem Memory.wf_write {m : Memory} (h : m.wf = true) (a : Nat) (v : Byte) :
    (m.write a v).wf = true := Memory.wfFrom_write m v (Nat.zero_le a) h

theorem Memory.below_write {m : Memory} {n : Nat} (h : m.below n = true) {a : Nat} (ha : a < n)
    (v : Byte) : (m.write a v).below n = true := by
  induction m with
  | nil => simpa [Memory.write, Memory.below] using ha
  | cons c m ih =>
    obtain ⟨k, b⟩ := c
    have h' : k < n ∧ Memory.below n m = true := by simpa [Memory.below] using h
    have hm : ∀ x ∈ m, x.1 < n := by simpa [Memory.below] using h'.2
    have ih' : ∀ x ∈ Memory.write m a v, x.1 < n := by simpa [Memory.below] using ih h'.2
    by_cases h1 : a < k
    · simpa [Memory.write, Memory.below, h1] using ⟨ha, h'.1, by simpa using hm⟩
    · by_cases h2 : a = k
      · subst h2
        simpa [Memory.write, Memory.below] using ⟨ha, by simpa using hm⟩
      · simpa [Memory.write, Memory.below, h1, h2] using ⟨h'.1, by simpa using ih'⟩

theorem Memory.read_eq_none_of_wfFrom {m : Memory} : ∀ {lo a : Nat}, m.wfFrom lo = true → a < lo →
    m.read a = none := by
  induction m with
  | nil => intros; rfl
  | cons c m ih =>
    obtain ⟨k, b⟩ := c
    intro lo a h hlt
    simp only [Memory.wfFrom, Bool.and_eq_true, decide_eq_true_eq] at h
    have hne : a ≠ k := by omega
    simp only [Memory.read, hne, if_false]
    exact ih h.2 (by omega)

/-- Two memories in canonical form that read the same everywhere are equal data. -/
theorem Memory.ext_of_wf : ∀ {m m' : Memory} {lo lo' : Nat}, m.wfFrom lo = true →
    m'.wfFrom lo' = true → (∀ a, m.read a = m'.read a) → m = m'
  | [], [], _, _, _, _, _ => rfl
  | [], (k, b) :: m', _, _, _, _, hr => by simpa [Memory.read] using hr k
  | (k, b) :: m, [], _, _, _, _, hr => by simpa [Memory.read] using hr k
  | (k, b) :: m, (k', b') :: m', lo, lo', h, h', hr => by
    simp only [Memory.wfFrom, Bool.and_eq_true, decide_eq_true_eq] at h h'
    have hk : k = k' := by
      rcases Nat.lt_trichotomy k k' with hlt | heq | hgt
      · have := hr k
        simp only [Memory.read, if_true, Nat.ne_of_lt hlt, if_false] at this
        rw [Memory.read_eq_none_of_wfFrom h'.2 (by omega)] at this
        exact absurd this (by simp)
      · exact heq
      · have := hr k'
        simp only [Memory.read, if_true, Nat.ne_of_lt hgt, if_false] at this
        rw [Memory.read_eq_none_of_wfFrom h.2 (by omega)] at this
        exact absurd this (by simp)
    subst hk
    have hb : b = b' := by simpa [Memory.read] using hr k
    subst hb
    have hm : m = m' := by
      refine Memory.ext_of_wf h.2 h'.2 fun a => ?_
      by_cases ha : a = k
      · subst ha
        rw [Memory.read_eq_none_of_wfFrom h.2 (by omega),
          Memory.read_eq_none_of_wfFrom h'.2 (by omega)]
      · simpa [Memory.read, ha] using hr a
    rw [hm]

/-! ### Blocks of bytes -/

@[simp] theorem Memory.writeBytes_nil (m : Memory) (a : Nat) : m.writeBytes a [] = m := rfl

theorem Memory.writeBytes_cons (m : Memory) (a : Nat) (b : Byte) (bs : List Byte) :
    m.writeBytes a (b :: bs) = (m.write a b).writeBytes (a + 1) bs := rfl

theorem Memory.read_writeBytes_outside (bs : List Byte) : ∀ (m : Memory) {a a' : Nat},
    (a' < a ∨ a + bs.length ≤ a') → (m.writeBytes a bs).read a' = m.read a' := by
  induction bs with
  | nil => intros; rfl
  | cons b bs ih =>
    intro m a a' h
    simp only [List.length_cons] at h
    rw [Memory.writeBytes_cons, ih _ (by omega), Memory.read_write_ne _ _ (by omega)]

theorem Memory.read_writeBytes_inside (bs : List Byte) : ∀ (m : Memory) (a : Nat) {n : Nat}
    (h : n < bs.length), (m.writeBytes a bs).read (a + n) = some bs[n] := by
  induction bs with
  | nil => intro m a n h; simp at h
  | cons b bs ih =>
    intro m a n h
    cases n with
    | zero =>
      rw [Memory.writeBytes_cons, Nat.add_zero, Memory.read_writeBytes_outside bs _ (by omega)]
      simp
    | succ n =>
      have hn : n < bs.length := by simpa using h
      rw [Memory.writeBytes_cons, show a + (n + 1) = a + 1 + n by omega, ih _ _ hn]
      simp

theorem Memory.byteAt_writeBytes_outside (m : Memory) (sp : Space) {a a' : Nat} {bs : List Byte}
    (h : a' < a ∨ a + bs.length ≤ a') : (m.writeBytes a bs).byteAt sp a' = m.byteAt sp a' := by
  simp [Memory.byteAt, Memory.read_writeBytes_outside bs m h]

theorem Memory.byteAt_writeBytes_inside (m : Memory) (sp : Space) (a : Nat) {n : Nat}
    {bs : List Byte} (h : n < bs.length) : (m.writeBytes a bs).byteAt sp (a + n) = bs[n] := by
  simp [Memory.byteAt, Memory.read_writeBytes_inside bs m a h]

theorem Memory.wf_writeBytes (bs : List Byte) : ∀ {m : Memory} (a : Nat), m.wf = true →
    (m.writeBytes a bs).wf = true := by
  induction bs with
  | nil => intro m a h; exact h
  | cons b bs ih => intro m a h; exact ih (a + 1) (Memory.wf_write h a b)

theorem Memory.below_writeBytes {n : Nat} (bs : List Byte) : ∀ {m : Memory} {a : Nat},
    m.below n = true → a + bs.length ≤ n → (m.writeBytes a bs).below n = true := by
  induction bs with
  | nil => intro m a h _; exact h
  | cons b bs ih =>
    intro m a h hle
    simp only [List.length_cons] at hle
    exact ih (Memory.below_write h (by omega) b) (by omega)

@[simp] theorem Memory.bytesAt_length (m : Memory) (sp : Space) (a n : Nat) :
    (m.bytesAt sp a n).length = n := by simp [Memory.bytesAt]

@[simp] theorem Memory.bytesAt_getElem (m : Memory) (sp : Space) (a n i : Nat)
    (h : i < (m.bytesAt sp a n).length) : (m.bytesAt sp a n)[i] = m.byteAt sp (a + i) := by
  simp [Memory.bytesAt]

theorem Memory.bytesAt_getD (m : Memory) (sp : Space) {a n i : Nat} (h : i < n) (v : Byte) :
    (m.bytesAt sp a n).getD i v = m.byteAt sp (a + i) := by
  rw [List.getD_eq_getElem _ _ (by simpa using h)]; simp

end Sys2Proof.Machine
end

