-- ==== Sys2Proof/Laws/State.lean ====
section
/-! SUPPORT. What each named update of State does to each field, and to the values read from fields.
One lemma per field per update, true by rfl; later proofs rewrite with these and unfold no record. -/

namespace Sys2Proof.Machine

open Sys2Proof

/-! ### succeed -/

@[simp] theorem State.succeed_params (s : State) : (s.succeed).params = s.params := rfl
@[simp] theorem State.succeed_width (s : State) : (s.succeed).width = s.width := rfl
@[simp] theorem State.succeed_height (s : State) : (s.succeed).height = s.height := rfl
@[simp] theorem State.succeed_depth (s : State) : (s.succeed).depth = s.depth := rfl
@[simp] theorem State.succeed_rmask (s : State) : (s.succeed).rmask = s.rmask := rfl
@[simp] theorem State.succeed_gmask (s : State) : (s.succeed).gmask = s.gmask := rfl
@[simp] theorem State.succeed_bmask (s : State) : (s.succeed).bmask = s.bmask := rfl
@[simp] theorem State.succeed_amask (s : State) : (s.succeed).amask = s.amask := rfl
@[simp] theorem State.succeed_rowbytes (s : State) : (s.succeed).rowbytes = s.rowbytes := rfl
@[simp] theorem State.succeed_pad (s : State) : (s.succeed).pad = s.pad := rfl
@[simp] theorem State.succeed_stride (s : State) : (s.succeed).stride = s.stride := rfl
@[simp] theorem State.succeed_imgsize (s : State) : (s.succeed).imgsize = s.imgsize := rfl
@[simp] theorem State.succeed_cap (s : State) : (s.succeed).cap = s.cap := rfl
@[simp] theorem State.succeed_opa (s : State) : (s.succeed).opa = s.opa := rfl
@[simp] theorem State.succeed_opb (s : State) : (s.succeed).opb = s.opb := rfl
@[simp] theorem State.succeed_res (s : State) : (s.succeed).res = s.res := rfl
@[simp] theorem State.succeed_row (s : State) : (s.succeed).row = s.row := rfl
@[simp] theorem State.succeed_plen (s : State) : (s.succeed).plen = s.plen := rfl
@[simp] theorem State.succeed_spos (s : State) : (s.succeed).spos = s.spos := rfl
@[simp] theorem State.succeed_status (s : State) : (s.succeed).status = s.status.succeeded := rfl
@[simp] theorem State.succeed_ien (s : State) : (s.succeed).ien = s.ien := rfl
@[simp] theorem State.succeed_pend (s : State) : (s.succeed).pend = s.pend := rfl
@[simp] theorem State.succeed_grid (s : State) : (s.succeed).grid = s.grid := rfl
@[simp] theorem State.succeed_pbuf (s : State) : (s.succeed).pbuf = s.pbuf := rfl
@[simp] theorem State.succeed_msg (s : State) : (s.succeed).msg = s.msg := rfl
@[simp] theorem State.succeed_drawPos (s : State) : (s.succeed).drawPos = s.drawPos := rfl
@[simp] theorem State.succeed_randomFeed (s : State) : (s.succeed).randomFeed = s.randomFeed := rfl
@[simp] theorem State.succeed_freeCount (s : State) : (s.succeed).freeCount = s.freeCount := rfl
@[simp] theorem State.succeed_agenda (s : State) : (s.succeed).agenda = s.agenda := rfl
@[simp] theorem State.succeed_busData (s : State) : (s.succeed).busData = s.busData := rfl

@[simp] theorem State.succeed_w (s : State) : (s.succeed).w = s.w := rfl
@[simp] theorem State.succeed_h (s : State) : (s.succeed).h = s.h := rfl
@[simp] theorem State.succeed_units (s : State) : (s.succeed).units = s.units := rfl
@[simp] theorem State.succeed_masks (s : State) : (s.succeed).masks = s.masks := rfl
@[simp] theorem State.succeed_mem (s : State) (sp : Space) : (s.succeed).mem sp = s.mem sp := by
  cases sp <;> rfl
@[simp] theorem State.succeed_byte (s : State) (sp : Space) (a : Nat) :
    (s.succeed).byte sp a = s.byte sp a := by cases sp <;> rfl

/-! ### raise -/

@[simp] theorem State.raise_params (s : State) (e : ErrorKind) : (s.raise e).params = s.params := rfl
@[simp] theorem State.raise_width (s : State) (e : ErrorKind) : (s.raise e).width = s.width := rfl
@[simp] theorem State.raise_height (s : State) (e : ErrorKind) : (s.raise e).height = s.height := rfl
@[simp] theorem State.raise_depth (s : State) (e : ErrorKind) : (s.raise e).depth = s.depth := rfl
@[simp] theorem State.raise_rmask (s : State) (e : ErrorKind) : (s.raise e).rmask = s.rmask := rfl
@[simp] theorem State.raise_gmask (s : State) (e : ErrorKind) : (s.raise e).gmask = s.gmask := rfl
@[simp] theorem State.raise_bmask (s : State) (e : ErrorKind) : (s.raise e).bmask = s.bmask := rfl
@[simp] theorem State.raise_amask (s : State) (e : ErrorKind) : (s.raise e).amask = s.amask := rfl
@[simp] theorem State.raise_rowbytes (s : State) (e : ErrorKind) : (s.raise e).rowbytes = s.rowbytes := rfl
@[simp] theorem State.raise_pad (s : State) (e : ErrorKind) : (s.raise e).pad = s.pad := rfl
@[simp] theorem State.raise_stride (s : State) (e : ErrorKind) : (s.raise e).stride = s.stride := rfl
@[simp] theorem State.raise_imgsize (s : State) (e : ErrorKind) : (s.raise e).imgsize = s.imgsize := rfl
@[simp] theorem State.raise_cap (s : State) (e : ErrorKind) : (s.raise e).cap = s.cap := rfl
@[simp] theorem State.raise_opa (s : State) (e : ErrorKind) : (s.raise e).opa = s.opa := rfl
@[simp] theorem State.raise_opb (s : State) (e : ErrorKind) : (s.raise e).opb = s.opb := rfl
@[simp] theorem State.raise_res (s : State) (e : ErrorKind) : (s.raise e).res = s.res := rfl
@[simp] theorem State.raise_row (s : State) (e : ErrorKind) : (s.raise e).row = s.row := rfl
@[simp] theorem State.raise_plen (s : State) (e : ErrorKind) : (s.raise e).plen = s.plen := rfl
@[simp] theorem State.raise_spos (s : State) (e : ErrorKind) : (s.raise e).spos = s.spos := rfl
@[simp] theorem State.raise_status (s : State) (e : ErrorKind) : (s.raise e).status = s.status.failed e.code := rfl
@[simp] theorem State.raise_ien (s : State) (e : ErrorKind) : (s.raise e).ien = s.ien := rfl
@[simp] theorem State.raise_pend (s : State) (e : ErrorKind) : (s.raise e).pend = s.pend := rfl
@[simp] theorem State.raise_grid (s : State) (e : ErrorKind) : (s.raise e).grid = s.grid := rfl
@[simp] theorem State.raise_pbuf (s : State) (e : ErrorKind) : (s.raise e).pbuf = s.pbuf := rfl
@[simp] theorem State.raise_msg (s : State) (e : ErrorKind) : (s.raise e).msg = s.msg := rfl
@[simp] theorem State.raise_drawPos (s : State) (e : ErrorKind) : (s.raise e).drawPos = s.drawPos := rfl
@[simp] theorem State.raise_randomFeed (s : State) (e : ErrorKind) : (s.raise e).randomFeed = s.randomFeed := rfl
@[simp] theorem State.raise_freeCount (s : State) (e : ErrorKind) : (s.raise e).freeCount = s.freeCount := rfl
@[simp] theorem State.raise_agenda (s : State) (e : ErrorKind) : (s.raise e).agenda = s.agenda := rfl
@[simp] theorem State.raise_busData (s : State) (e : ErrorKind) : (s.raise e).busData = s.busData := rfl

@[simp] theorem State.raise_w (s : State) (e : ErrorKind) : (s.raise e).w = s.w := rfl
@[simp] theorem State.raise_h (s : State) (e : ErrorKind) : (s.raise e).h = s.h := rfl
@[simp] theorem State.raise_units (s : State) (e : ErrorKind) : (s.raise e).units = s.units := rfl
@[simp] theorem State.raise_masks (s : State) (e : ErrorKind) : (s.raise e).masks = s.masks := rfl
@[simp] theorem State.raise_mem (s : State) (e : ErrorKind) (sp : Space) : (s.raise e).mem sp = s.mem sp := by
  cases sp <;> rfl
@[simp] theorem State.raise_byte (s : State) (e : ErrorKind) (sp : Space) (a : Nat) :
    (s.raise e).byte sp a = s.byte sp a := by cases sp <;> rfl

/-! ### issue -/

@[simp] theorem State.issue_params (s : State) (w : Word) : (s.issue w).params = s.params := rfl
@[simp] theorem State.issue_width (s : State) (w : Word) : (s.issue w).width = s.width := rfl
@[simp] theorem State.issue_height (s : State) (w : Word) : (s.issue w).height = s.height := rfl
@[simp] theorem State.issue_depth (s : State) (w : Word) : (s.issue w).depth = s.depth := rfl
@[simp] theorem State.issue_rmask (s : State) (w : Word) : (s.issue w).rmask = s.rmask := rfl
@[simp] theorem State.issue_gmask (s : State) (w : Word) : (s.issue w).gmask = s.gmask := rfl
@[simp] theorem State.issue_bmask (s : State) (w : Word) : (s.issue w).bmask = s.bmask := rfl
@[simp] theorem State.issue_amask (s : State) (w : Word) : (s.issue w).amask = s.amask := rfl
@[simp] theorem State.issue_rowbytes (s : State) (w : Word) : (s.issue w).rowbytes = s.rowbytes := rfl
@[simp] theorem State.issue_pad (s : State) (w : Word) : (s.issue w).pad = s.pad := rfl
@[simp] theorem State.issue_stride (s : State) (w : Word) : (s.issue w).stride = s.stride := rfl
@[simp] theorem State.issue_imgsize (s : State) (w : Word) : (s.issue w).imgsize = s.imgsize := rfl
@[simp] theorem State.issue_cap (s : State) (w : Word) : (s.issue w).cap = s.cap := rfl
@[simp] theorem State.issue_opa (s : State) (w : Word) : (s.issue w).opa = s.opa := rfl
@[simp] theorem State.issue_opb (s : State) (w : Word) : (s.issue w).opb = s.opb := rfl
@[simp] theorem State.issue_res (s : State) (w : Word) : (s.issue w).res = s.res := rfl
@[simp] theorem State.issue_row (s : State) (w : Word) : (s.issue w).row = s.row := rfl
@[simp] theorem State.issue_plen (s : State) (w : Word) : (s.issue w).plen = s.plen := rfl
@[simp] theorem State.issue_spos (s : State) (w : Word) : (s.issue w).spos = s.spos := rfl
@[simp] theorem State.issue_status (s : State) (w : Word) : (s.issue w).status = s.status.issued := rfl
@[simp] theorem State.issue_ien (s : State) (w : Word) : (s.issue w).ien = s.ien := rfl
@[simp] theorem State.issue_pend (s : State) (w : Word) : (s.issue w).pend = w := rfl
@[simp] theorem State.issue_grid (s : State) (w : Word) : (s.issue w).grid = s.grid := rfl
@[simp] theorem State.issue_pbuf (s : State) (w : Word) : (s.issue w).pbuf = s.pbuf := rfl
@[simp] theorem State.issue_msg (s : State) (w : Word) : (s.issue w).msg = s.msg := rfl
@[simp] theorem State.issue_drawPos (s : State) (w : Word) : (s.issue w).drawPos = s.drawPos := rfl
@[simp] theorem State.issue_randomFeed (s : State) (w : Word) : (s.issue w).randomFeed = s.randomFeed := rfl
@[simp] theorem State.issue_freeCount (s : State) (w : Word) : (s.issue w).freeCount = s.freeCount := rfl
@[simp] theorem State.issue_agenda (s : State) (w : Word) : (s.issue w).agenda = s.agenda := rfl
@[simp] theorem State.issue_busData (s : State) (w : Word) : (s.issue w).busData = s.busData := rfl

@[simp] theorem State.issue_w (s : State) (w : Word) : (s.issue w).w = s.w := rfl
@[simp] theorem State.issue_h (s : State) (w : Word) : (s.issue w).h = s.h := rfl
@[simp] theorem State.issue_units (s : State) (w : Word) : (s.issue w).units = s.units := rfl
@[simp] theorem State.issue_masks (s : State) (w : Word) : (s.issue w).masks = s.masks := rfl
@[simp] theorem State.issue_mem (s : State) (w : Word) (sp : Space) : (s.issue w).mem sp = s.mem sp := by
  cases sp <;> rfl
@[simp] theorem State.issue_byte (s : State) (w : Word) (sp : Space) (a : Nat) :
    (s.issue w).byte sp a = s.byte sp a := by cases sp <;> rfl

/-! ### clearFrame -/

@[simp] theorem State.clearFrame_params (s : State) : (s.clearFrame).params = s.params := rfl
@[simp] theorem State.clearFrame_width (s : State) : (s.clearFrame).width = s.width := rfl
@[simp] theorem State.clearFrame_height (s : State) : (s.clearFrame).height = s.height := rfl
@[simp] theorem State.clearFrame_depth (s : State) : (s.clearFrame).depth = s.depth := rfl
@[simp] theorem State.clearFrame_rmask (s : State) : (s.clearFrame).rmask = s.rmask := rfl
@[simp] theorem State.clearFrame_gmask (s : State) : (s.clearFrame).gmask = s.gmask := rfl
@[simp] theorem State.clearFrame_bmask (s : State) : (s.clearFrame).bmask = s.bmask := rfl
@[simp] theorem State.clearFrame_amask (s : State) : (s.clearFrame).amask = s.amask := rfl
@[simp] theorem State.clearFrame_rowbytes (s : State) : (s.clearFrame).rowbytes = 0 := rfl
@[simp] theorem State.clearFrame_pad (s : State) : (s.clearFrame).pad = 0 := rfl
@[simp] theorem State.clearFrame_stride (s : State) : (s.clearFrame).stride = 0 := rfl
@[simp] theorem State.clearFrame_imgsize (s : State) : (s.clearFrame).imgsize = 0 := rfl
@[simp] theorem State.clearFrame_cap (s : State) : (s.clearFrame).cap = 0 := rfl
@[simp] theorem State.clearFrame_opa (s : State) : (s.clearFrame).opa = s.opa := rfl
@[simp] theorem State.clearFrame_opb (s : State) : (s.clearFrame).opb = s.opb := rfl
@[simp] theorem State.clearFrame_res (s : State) : (s.clearFrame).res = s.res := rfl
@[simp] theorem State.clearFrame_row (s : State) : (s.clearFrame).row = s.row := rfl
@[simp] theorem State.clearFrame_plen (s : State) : (s.clearFrame).plen = s.plen := rfl
@[simp] theorem State.clearFrame_spos (s : State) : (s.clearFrame).spos = 0 := rfl
@[simp] theorem State.clearFrame_status (s : State) : (s.clearFrame).status = { s.status with cfgok := false } := rfl
@[simp] theorem State.clearFrame_ien (s : State) : (s.clearFrame).ien = s.ien := rfl
@[simp] theorem State.clearFrame_pend (s : State) : (s.clearFrame).pend = s.pend := rfl
@[simp] theorem State.clearFrame_grid (s : State) : (s.clearFrame).grid = s.grid := rfl
@[simp] theorem State.clearFrame_pbuf (s : State) : (s.clearFrame).pbuf = s.pbuf := rfl
@[simp] theorem State.clearFrame_msg (s : State) : (s.clearFrame).msg = s.msg := rfl
@[simp] theorem State.clearFrame_drawPos (s : State) : (s.clearFrame).drawPos = s.drawPos := rfl
@[simp] theorem State.clearFrame_randomFeed (s : State) : (s.clearFrame).randomFeed = s.randomFeed := rfl
@[simp] theorem State.clearFrame_freeCount (s : State) : (s.clearFrame).freeCount = s.freeCount := rfl
@[simp] theorem State.clearFrame_agenda (s : State) : (s.clearFrame).agenda = s.agenda := rfl
@[simp] theorem State.clearFrame_busData (s : State) : (s.clearFrame).busData = s.busData := rfl

@[simp] theorem State.clearFrame_w (s : State) : (s.clearFrame).w = s.w := rfl
@[simp] theorem State.clearFrame_h (s : State) : (s.clearFrame).h = s.h := rfl
@[simp] theorem State.clearFrame_units (s : State) : (s.clearFrame).units = s.units := rfl
@[simp] theorem State.clearFrame_masks (s : State) : (s.clearFrame).masks = s.masks := rfl
@[simp] theorem State.clearFrame_mem (s : State) (sp : Space) : (s.clearFrame).mem sp = s.mem sp := by
  cases sp <;> rfl
@[simp] theorem State.clearFrame_byte (s : State) (sp : Space) (a : Nat) :
    (s.clearFrame).byte sp a = s.byte sp a := by cases sp <;> rfl

/-! ### latchFrame -/

@[simp] theorem State.latchFrame_params (s : State) (d : Nat) : (s.latchFrame d).params = s.params := rfl
@[simp] theorem State.latchFrame_width (s : State) (d : Nat) : (s.latchFrame d).width = s.width := rfl
@[simp] theorem State.latchFrame_height (s : State) (d : Nat) : (s.latchFrame d).height = s.height := rfl
@[simp] theorem State.latchFrame_depth (s : State) (d : Nat) : (s.latchFrame d).depth = s.depth := rfl
@[simp] theorem State.latchFrame_rmask (s : State) (d : Nat) : (s.latchFrame d).rmask = s.rmask := rfl
@[simp] theorem State.latchFrame_gmask (s : State) (d : Nat) : (s.latchFrame d).gmask = s.gmask := rfl
@[simp] theorem State.latchFrame_bmask (s : State) (d : Nat) : (s.latchFrame d).bmask = s.bmask := rfl
@[simp] theorem State.latchFrame_amask (s : State) (d : Nat) : (s.latchFrame d).amask = s.amask := rfl
@[simp] theorem State.latchFrame_rowbytes (s : State) (d : Nat) : (s.latchFrame d).rowbytes = BitVec.ofNat 32 (rowBytes s.w d) := rfl
@[simp] theorem State.latchFrame_pad (s : State) (d : Nat) : (s.latchFrame d).pad = BitVec.ofNat 2 (padding (rowBytes s.w d)) := rfl
@[simp] theorem State.latchFrame_stride (s : State) (d : Nat) : (s.latchFrame d).stride = BitVec.ofNat 32 (strideOf s.w d) := rfl
@[simp] theorem State.latchFrame_imgsize (s : State) (d : Nat) : (s.latchFrame d).imgsize = BitVec.ofNat 32 (imageSize s.w s.h d) := rfl
@[simp] theorem State.latchFrame_cap (s : State) (d : Nat) : (s.latchFrame d).cap = BitVec.ofNat 32 (capacity s.w s.h) := rfl
@[simp] theorem State.latchFrame_opa (s : State) (d : Nat) : (s.latchFrame d).opa = s.opa := rfl
@[simp] theorem State.latchFrame_opb (s : State) (d : Nat) : (s.latchFrame d).opb = s.opb := rfl
@[simp] theorem State.latchFrame_res (s : State) (d : Nat) : (s.latchFrame d).res = s.res := rfl
@[simp] theorem State.latchFrame_row (s : State) (d : Nat) : (s.latchFrame d).row = s.row := rfl
@[simp] theorem State.latchFrame_plen (s : State) (d : Nat) : (s.latchFrame d).plen = s.plen := rfl
@[simp] theorem State.latchFrame_spos (s : State) (d : Nat) : (s.latchFrame d).spos = 0 := rfl
@[simp] theorem State.latchFrame_status (s : State) (d : Nat) : (s.latchFrame d).status = { s.status with cfgok := true } := rfl
@[simp] theorem State.latchFrame_ien (s : State) (d : Nat) : (s.latchFrame d).ien = s.ien := rfl
@[simp] theorem State.latchFrame_pend (s : State) (d : Nat) : (s.latchFrame d).pend = s.pend := rfl
@[simp] theorem State.latchFrame_grid (s : State) (d : Nat) : (s.latchFrame d).grid = s.grid := rfl
@[simp] theorem State.latchFrame_pbuf (s : State) (d : Nat) : (s.latchFrame d).pbuf = s.pbuf := rfl
@[simp] theorem State.latchFrame_msg (s : State) (d : Nat) : (s.latchFrame d).msg = s.msg := rfl
@[simp] theorem State.latchFrame_drawPos (s : State) (d : Nat) : (s.latchFrame d).drawPos = s.drawPos := rfl
@[simp] theorem State.latchFrame_randomFeed (s : State) (d : Nat) : (s.latchFrame d).randomFeed = s.randomFeed := rfl
@[simp] theorem State.latchFrame_freeCount (s : State) (d : Nat) : (s.latchFrame d).freeCount = s.freeCount := rfl
@[simp] theorem State.latchFrame_agenda (s : State) (d : Nat) : (s.latchFrame d).agenda = s.agenda := rfl
@[simp] theorem State.latchFrame_busData (s : State) (d : Nat) : (s.latchFrame d).busData = s.busData := rfl

@[simp] theorem State.latchFrame_w (s : State) (d : Nat) : (s.latchFrame d).w = s.w := rfl
@[simp] theorem State.latchFrame_h (s : State) (d : Nat) : (s.latchFrame d).h = s.h := rfl
@[simp] theorem State.latchFrame_units (s : State) (d : Nat) : (s.latchFrame d).units = s.units := rfl
@[simp] theorem State.latchFrame_masks (s : State) (d : Nat) : (s.latchFrame d).masks = s.masks := rfl
@[simp] theorem State.latchFrame_mem (s : State) (d : Nat) (sp : Space) : (s.latchFrame d).mem sp = s.mem sp := by
  cases sp <;> rfl
@[simp] theorem State.latchFrame_byte (s : State) (d : Nat) (sp : Space) (a : Nat) :
    (s.latchFrame d).byte sp a = s.byte sp a := by cases sp <;> rfl

/-! ### clearRegisters -/

@[simp] theorem State.clearRegisters_params (s : State) : (s.clearRegisters).params = s.params := rfl
@[simp] theorem State.clearRegisters_width (s : State) : (s.clearRegisters).width = 0 := rfl
@[simp] theorem State.clearRegisters_height (s : State) : (s.clearRegisters).height = 0 := rfl
@[simp] theorem State.clearRegisters_depth (s : State) : (s.clearRegisters).depth = 0 := rfl
@[simp] theorem State.clearRegisters_rmask (s : State) : (s.clearRegisters).rmask = 0 := rfl
@[simp] theorem State.clearRegisters_gmask (s : State) : (s.clearRegisters).gmask = 0 := rfl
@[simp] theorem State.clearRegisters_bmask (s : State) : (s.clearRegisters).bmask = 0 := rfl
@[simp] theorem State.clearRegisters_amask (s : State) : (s.clearRegisters).amask = 0 := rfl
@[simp] theorem State.clearRegisters_rowbytes (s : State) : (s.clearRegisters).rowbytes = 0 := rfl
@[simp] theorem State.clearRegisters_pad (s : State) : (s.clearRegisters).pad = 0 := rfl
@[simp] theorem State.clearRegisters_stride (s : State) : (s.clearRegisters).stride = 0 := rfl
@[simp] theorem State.clearRegisters_imgsize (s : State) : (s.clearRegisters).imgsize = 0 := rfl
@[simp] theorem State.clearRegisters_cap (s : State) : (s.clearRegisters).cap = 0 := rfl
@[simp] theorem State.clearRegisters_opa (s : State) : (s.clearRegisters).opa = 0 := rfl
@[simp] theorem State.clearRegisters_opb (s : State) : (s.clearRegisters).opb = 0 := rfl
@[simp] theorem State.clearRegisters_res (s : State) : (s.clearRegisters).res = 0 := rfl
@[simp] theorem State.clearRegisters_row (s : State) : (s.clearRegisters).row = 0 := rfl
@[simp] theorem State.clearRegisters_plen (s : State) : (s.clearRegisters).plen = 0 := rfl
@[simp] theorem State.clearRegisters_spos (s : State) : (s.clearRegisters).spos = 0 := rfl
@[simp] theorem State.clearRegisters_status (s : State) : (s.clearRegisters).status = Status.reset := rfl
@[simp] theorem State.clearRegisters_ien (s : State) : (s.clearRegisters).ien = false := rfl
@[simp] theorem State.clearRegisters_pend (s : State) : (s.clearRegisters).pend = 0 := rfl
@[simp] theorem State.clearRegisters_grid (s : State) : (s.clearRegisters).grid = s.grid := rfl
@[simp] theorem State.clearRegisters_pbuf (s : State) : (s.clearRegisters).pbuf = s.pbuf := rfl
@[simp] theorem State.clearRegisters_msg (s : State) : (s.clearRegisters).msg = s.msg := rfl
@[simp] theorem State.clearRegisters_drawPos (s : State) : (s.clearRegisters).drawPos = s.drawPos := rfl
@[simp] theorem State.clearRegisters_randomFeed (s : State) : (s.clearRegisters).randomFeed = s.randomFeed := rfl
@[simp] theorem State.clearRegisters_freeCount (s : State) : (s.clearRegisters).freeCount = s.freeCount := rfl
@[simp] theorem State.clearRegisters_agenda (s : State) : (s.clearRegisters).agenda = s.agenda := rfl
@[simp] theorem State.clearRegisters_busData (s : State) : (s.clearRegisters).busData = s.busData := rfl

@[simp] theorem State.clearRegisters_mem (s : State) (sp : Space) : (s.clearRegisters).mem sp = s.mem sp := by
  cases sp <;> rfl
@[simp] theorem State.clearRegisters_byte (s : State) (sp : Space) (a : Nat) :
    (s.clearRegisters).byte sp a = s.byte sp a := by cases sp <;> rfl

/-! ### placeWord -/

@[simp] theorem State.placeWord_params (s : State) (w : Word) : (s.placeWord w).params = s.params := rfl
@[simp] theorem State.placeWord_width (s : State) (w : Word) : (s.placeWord w).width = s.width := rfl
@[simp] theorem State.placeWord_height (s : State) (w : Word) : (s.placeWord w).height = s.height := rfl
@[simp] theorem State.placeWord_depth (s : State) (w : Word) : (s.placeWord w).depth = s.depth := rfl
@[simp] theorem State.placeWord_rmask (s : State) (w : Word) : (s.placeWord w).rmask = s.rmask := rfl
@[simp] theorem State.placeWord_gmask (s : State) (w : Word) : (s.placeWord w).gmask = s.gmask := rfl
@[simp] theorem State.placeWord_bmask (s : State) (w : Word) : (s.placeWord w).bmask = s.bmask := rfl
@[simp] theorem State.placeWord_amask (s : State) (w : Word) : (s.placeWord w).amask = s.amask := rfl
@[simp] theorem State.placeWord_rowbytes (s : State) (w : Word) : (s.placeWord w).rowbytes = s.rowbytes := rfl
@[simp] theorem State.placeWord_pad (s : State) (w : Word) : (s.placeWord w).pad = s.pad := rfl
@[simp] theorem State.placeWord_stride (s : State) (w : Word) : (s.placeWord w).stride = s.stride := rfl
@[simp] theorem State.placeWord_imgsize (s : State) (w : Word) : (s.placeWord w).imgsize = s.imgsize := rfl
@[simp] theorem State.placeWord_cap (s : State) (w : Word) : (s.placeWord w).cap = s.cap := rfl
@[simp] theorem State.placeWord_opa (s : State) (w : Word) : (s.placeWord w).opa = s.opa := rfl
@[simp] theorem State.placeWord_opb (s : State) (w : Word) : (s.placeWord w).opb = s.opb := rfl
@[simp] theorem State.placeWord_res (s : State) (w : Word) : (s.placeWord w).res = s.res := rfl
@[simp] theorem State.placeWord_row (s : State) (w : Word) : (s.placeWord w).row = s.row := rfl
@[simp] theorem State.placeWord_plen (s : State) (w : Word) : (s.placeWord w).plen = s.plen := rfl
@[simp] theorem State.placeWord_spos (s : State) (w : Word) : (s.placeWord w).spos = s.spos := rfl
@[simp] theorem State.placeWord_status (s : State) (w : Word) : (s.placeWord w).status = s.status.issued := rfl
@[simp] theorem State.placeWord_ien (s : State) (w : Word) : (s.placeWord w).ien = s.ien := rfl
@[simp] theorem State.placeWord_pend (s : State) (w : Word) : (s.placeWord w).pend = w := rfl
@[simp] theorem State.placeWord_grid (s : State) (w : Word) : (s.placeWord w).grid = s.grid := rfl
@[simp] theorem State.placeWord_pbuf (s : State) (w : Word) : (s.placeWord w).pbuf = s.pbuf := rfl
@[simp] theorem State.placeWord_msg (s : State) (w : Word) : (s.placeWord w).msg = s.msg := rfl
@[simp] theorem State.placeWord_drawPos (s : State) (w : Word) : (s.placeWord w).drawPos = s.drawPos := rfl
@[simp] theorem State.placeWord_randomFeed (s : State) (w : Word) : (s.placeWord w).randomFeed = s.randomFeed := rfl
@[simp] theorem State.placeWord_freeCount (s : State) (w : Word) : (s.placeWord w).freeCount = s.freeCount := rfl
@[simp] theorem State.placeWord_agenda (s : State) (w : Word) : (s.placeWord w).agenda = .engine :: s.agenda := rfl
@[simp] theorem State.placeWord_busData (s : State) (w : Word) : (s.placeWord w).busData = s.busData := rfl

@[simp] theorem State.placeWord_w (s : State) (w : Word) : (s.placeWord w).w = s.w := rfl
@[simp] theorem State.placeWord_h (s : State) (w : Word) : (s.placeWord w).h = s.h := rfl
@[simp] theorem State.placeWord_units (s : State) (w : Word) : (s.placeWord w).units = s.units := rfl
@[simp] theorem State.placeWord_masks (s : State) (w : Word) : (s.placeWord w).masks = s.masks := rfl
@[simp] theorem State.placeWord_mem (s : State) (w : Word) (sp : Space) : (s.placeWord w).mem sp = s.mem sp := by
  cases sp <;> rfl
@[simp] theorem State.placeWord_byte (s : State) (w : Word) (sp : Space) (a : Nat) :
    (s.placeWord w).byte sp a = s.byte sp a := by cases sp <;> rfl

/-! ### setMem -/

@[simp] theorem State.setMem_params (s : State) (sp : Space) (m : Memory) :
    (s.setMem sp m).params = s.params := by cases sp <;> rfl
@[simp] theorem State.setMem_width (s : State) (sp : Space) (m : Memory) :
    (s.setMem sp m).width = s.width := by cases sp <;> rfl
@[simp] theorem State.setMem_height (s : State) (sp : Space) (m : Memory) :
    (s.setMem sp m).height = s.height := by cases sp <;> rfl
@[simp] theorem State.setMem_depth (s : State) (sp : Space) (m : Memory) :
    (s.setMem sp m).depth = s.depth := by cases sp <;> rfl
@[simp] theorem State.setMem_rmask (s : State) (sp : Space) (m : Memory) :
    (s.setMem sp m).rmask = s.rmask := by cases sp <;> rfl
@[simp] theorem State.setMem_gmask (s : State) (sp : Space) (m : Memory) :
    (s.setMem sp m).gmask = s.gmask := by cases sp <;> rfl
@[simp] theorem State.setMem_bmask (s : State) (sp : Space) (m : Memory) :
    (s.setMem sp m).bmask = s.bmask := by cases sp <;> rfl
@[simp] theorem State.setMem_amask (s : State) (sp : Space) (m : Memory) :
    (s.setMem sp m).amask = s.amask := by cases sp <;> rfl
@[simp] theorem State.setMem_rowbytes (s : State) (sp : Space) (m : Memory) :
    (s.setMem sp m).rowbytes = s.rowbytes := by cases sp <;> rfl
@[simp] theorem State.setMem_pad (s : State) (sp : Space) (m : Memory) :
    (s.setMem sp m).pad = s.pad := by cases sp <;> rfl
@[simp] theorem State.setMem_stride (s : State) (sp : Space) (m : Memory) :
    (s.setMem sp m).stride = s.stride := by cases sp <;> rfl
@[simp] theorem State.setMem_imgsize (s : State) (sp : Space) (m : Memory) :
    (s.setMem sp m).imgsize = s.imgsize := by cases sp <;> rfl
@[simp] theorem State.setMem_cap (s : State) (sp : Space) (m : Memory) :
    (s.setMem sp m).cap = s.cap := by cases sp <;> rfl
@[simp] theorem State.setMem_opa (s : State) (sp : Space) (m : Memory) :
    (s.setMem sp m).opa = s.opa := by cases sp <;> rfl
@[simp] theorem State.setMem_opb (s : State) (sp : Space) (m : Memory) :
    (s.setMem sp m).opb = s.opb := by cases sp <;> rfl
@[simp] theorem State.setMem_res (s : State) (sp : Space) (m : Memory) :
    (s.setMem sp m).res = s.res := by cases sp <;> rfl
@[simp] theorem State.setMem_row (s : State) (sp : Space) (m : Memory) :
    (s.setMem sp m).row = s.row := by cases sp <;> rfl
@[simp] theorem State.setMem_plen (s : State) (sp : Space) (m : Memory) :
    (s.setMem sp m).plen = s.plen := by cases sp <;> rfl
@[simp] theorem State.setMem_spos (s : State) (sp : Space) (m : Memory) :
    (s.setMem sp m).spos = s.spos := by cases sp <;> rfl
@[simp] theorem State.setMem_status (s : State) (sp : Space) (m : Memory) :
    (s.setMem sp m).status = s.status := by cases sp <;> rfl
@[simp] theorem State.setMem_ien (s : State) (sp : Space) (m : Memory) :
    (s.setMem sp m).ien = s.ien := by cases sp <;> rfl
@[simp] theorem State.setMem_pend (s : State) (sp : Space) (m : Memory) :
    (s.setMem sp m).pend = s.pend := by cases sp <;> rfl
@[simp] theorem State.setMem_drawPos (s : State) (sp : Space) (m : Memory) :
    (s.setMem sp m).drawPos = s.drawPos := by cases sp <;> rfl
@[simp] theorem State.setMem_randomFeed (s : State) (sp : Space) (m : Memory) :
    (s.setMem sp m).randomFeed = s.randomFeed := by cases sp <;> rfl
@[simp] theorem State.setMem_freeCount (s : State) (sp : Space) (m : Memory) :
    (s.setMem sp m).freeCount = s.freeCount := by cases sp <;> rfl
@[simp] theorem State.setMem_agenda (s : State) (sp : Space) (m : Memory) :
    (s.setMem sp m).agenda = s.agenda := by cases sp <;> rfl
@[simp] theorem State.setMem_busData (s : State) (sp : Space) (m : Memory) :
    (s.setMem sp m).busData = s.busData := by cases sp <;> rfl

@[simp] theorem State.setMem_mem_same (s : State) (sp : Space) (m : Memory) :
    (s.setMem sp m).mem sp = m := by cases sp <;> rfl

theorem State.setMem_mem_ne (s : State) {sp sp' : Space} (h : sp' ≠ sp) (m : Memory) :
    (s.setMem sp m).mem sp' = s.mem sp' := by cases sp <;> cases sp' <;> first | rfl | exact absurd rfl h

/-! ### The random-bit port -/

/-- One draw takes the head of the feed and advances the draw position. -/
theorem State.draw_snd (s : State) :
    s.draw.2 = { s with randomFeed := s.randomFeed.drop 1, drawPos := s.drawPos + 1 } := by
  unfold State.draw; split <;> rename_i h <;> simp [h]

/-- One draw answers the head of the feed, or the free value at the draw position. -/
theorem State.draw_fst (s : State) :
    s.draw.1 = s.randomFeed.headD (Config.randomBit s.drawPos) := by
  unfold State.draw; split <;> rename_i h <;> simp [h]

/-- `n` draws change the feed and the draw position and nothing else. -/
theorem State.draws_snd (n : Nat) : ∀ s : State, (State.draws n s).2 =
    { s with randomFeed := s.randomFeed.drop n, drawPos := s.drawPos + n } := by
  induction n with
  | zero => intro s; simp [State.draws]
  | succ n ih =>
    intro s
    simp only [State.draws, ih, State.draw_snd, List.drop_drop]
    simp only [Nat.add_comm 1 n, Nat.add_assoc]

@[simp] theorem State.draws_fst_length (n : Nat) : ∀ s : State, (State.draws n s).1.length = n := by
  induction n with
  | zero => intro s; rfl
  | succ n ih => intro s; simp [State.draws, ih]

/-- The bit of draw number `i`: from the feed while it lasts, then the free value. -/
theorem State.draws_fst_getElem (n : Nat) : ∀ (s : State) (i : Nat) (h : i < (State.draws n s).1.length),
    (State.draws n s).1[i] = (s.randomFeed[i]?).getD (Config.randomBit (s.drawPos + i)) := by
  induction n with
  | zero => intro s i h; simp [State.draws] at h
  | succ n ih =>
    intro s i h
    cases i with
    | zero =>
      simp only [State.draws, List.getElem_cons_zero, State.draw_fst, Nat.add_zero]
      cases s.randomFeed <;> rfl
    | succ i =>
      simp only [State.draws, List.getElem_cons_succ]
      rw [ih, State.draw_snd]
      simp only [List.getElem?_drop, Nat.add_comm 1 i, Nat.add_assoc]

/-- What drawing the filler leaves. -/
theorem State.afterFiller_eq (s : State) : s.afterFiller =
    { s with
      randomFeed := s.randomFeed.drop (s.fillerCount s.plen.toNat)
      drawPos := s.drawPos + s.fillerCount s.plen.toNat } := State.draws_snd _ s

/-! ### Free bytes -/

@[simp] theorem State.forget_params (s : State) (sp : Space) (a : Nat) :
    (s.forget sp a).params = s.params := by unfold State.forget; split <;> simp
@[simp] theorem State.forget_width (s : State) (sp : Space) (a : Nat) :
    (s.forget sp a).width = s.width := by unfold State.forget; split <;> simp
@[simp] theorem State.forget_height (s : State) (sp : Space) (a : Nat) :
    (s.forget sp a).height = s.height := by unfold State.forget; split <;> simp
@[simp] theorem State.forget_depth (s : State) (sp : Space) (a : Nat) :
    (s.forget sp a).depth = s.depth := by unfold State.forget; split <;> simp
@[simp] theorem State.forget_rmask (s : State) (sp : Space) (a : Nat) :
    (s.forget sp a).rmask = s.rmask := by unfold State.forget; split <;> simp
@[simp] theorem State.forget_gmask (s : State) (sp : Space) (a : Nat) :
    (s.forget sp a).gmask = s.gmask := by unfold State.forget; split <;> simp
@[simp] theorem State.forget_bmask (s : State) (sp : Space) (a : Nat) :
    (s.forget sp a).bmask = s.bmask := by unfold State.forget; split <;> simp
@[simp] theorem State.forget_amask (s : State) (sp : Space) (a : Nat) :
    (s.forget sp a).amask = s.amask := by unfold State.forget; split <;> simp
@[simp] theorem State.forget_rowbytes (s : State) (sp : Space) (a : Nat) :
    (s.forget sp a).rowbytes = s.rowbytes := by unfold State.forget; split <;> simp
@[simp] theorem State.forget_pad (s : State) (sp : Space) (a : Nat) :
    (s.forget sp a).pad = s.pad := by unfold State.forget; split <;> simp
@[simp] theorem State.forget_stride (s : State) (sp : Space) (a : Nat) :
    (s.forget sp a).stride = s.stride := by unfold State.forget; split <;> simp
@[simp] theorem State.forget_imgsize (s : State) (sp : Space) (a : Nat) :
    (s.forget sp a).imgsize = s.imgsize := by unfold State.forget; split <;> simp
@[simp] theorem State.forget_cap (s : State) (sp : Space) (a : Nat) :
    (s.forget sp a).cap = s.cap := by unfold State.forget; split <;> simp
@[simp] theorem State.forget_opa (s : State) (sp : Space) (a : Nat) :
    (s.forget sp a).opa = s.opa := by unfold State.forget; split <;> simp
@[simp] theorem State.forget_opb (s : State) (sp : Space) (a : Nat) :
    (s.forget sp a).opb = s.opb := by unfold State.forget; split <;> simp
@[simp] theorem State.forget_res (s : State) (sp : Space) (a : Nat) :
    (s.forget sp a).res = s.res := by unfold State.forget; split <;> simp
@[simp] theorem State.forget_row (s : State) (sp : Space) (a : Nat) :
    (s.forget sp a).row = s.row := by unfold State.forget; split <;> simp
@[simp] theorem State.forget_plen (s : State) (sp : Space) (a : Nat) :
    (s.forget sp a).plen = s.plen := by unfold State.forget; split <;> simp
@[simp] theorem State.forget_spos (s : State) (sp : Space) (a : Nat) :
    (s.forget sp a).spos = s.spos := by unfold State.forget; split <;> simp
@[simp] theorem State.forget_status (s : State) (sp : Space) (a : Nat) :
    (s.forget sp a).status = s.status := by unfold State.forget; split <;> simp
@[simp] theorem State.forget_ien (s : State) (sp : Space) (a : Nat) :
    (s.forget sp a).ien = s.ien := by unfold State.forget; split <;> simp
@[simp] theorem State.forget_pend (s : State) (sp : Space) (a : Nat) :
    (s.forget sp a).pend = s.pend := by unfold State.forget; split <;> simp
@[simp] theorem State.forget_drawPos (s : State) (sp : Space) (a : Nat) :
    (s.forget sp a).drawPos = s.drawPos := by unfold State.forget; split <;> simp
@[simp] theorem State.forget_randomFeed (s : State) (sp : Space) (a : Nat) :
    (s.forget sp a).randomFeed = s.randomFeed := by unfold State.forget; split <;> simp
@[simp] theorem State.forget_agenda (s : State) (sp : Space) (a : Nat) :
    (s.forget sp a).agenda = s.agenda := by unfold State.forget; split <;> simp
@[simp] theorem State.forget_busData (s : State) (sp : Space) (a : Nat) :
    (s.forget sp a).busData = s.busData := by unfold State.forget; split <;> simp

@[simp] theorem State.forgetAll_params (l : List (Space × Nat)) : ∀ s : State,
    (State.forgetAll l s).params = s.params := by
  induction l with
  | nil => intro s; rfl
  | cons c l ih => intro s; simp [State.forgetAll, ih]
@[simp] theorem State.forgetAll_width (l : List (Space × Nat)) : ∀ s : State,
    (State.forgetAll l s).width = s.width := by
  induction l with
  | nil => intro s; rfl
  | cons c l ih => intro s; simp [State.forgetAll, ih]
@[simp] theorem State.forgetAll_height (l : List (Space × Nat)) : ∀ s : State,
    (State.forgetAll l s).height = s.height := by
  induction l with
  | nil => intro s; rfl
  | cons c l ih => intro s; simp [State.forgetAll, ih]
@[simp] theorem State.forgetAll_depth (l : List (Space × Nat)) : ∀ s : State,
    (State.forgetAll l s).depth = s.depth := by
  induction l with
  | nil => intro s; rfl
  | cons c l ih => intro s; simp [State.forgetAll, ih]
@[simp] theorem State.forgetAll_rmask (l : List (Space × Nat)) : ∀ s : State,
    (State.forgetAll l s).rmask = s.rmask := by
  induction l with
  | nil => intro s; rfl
  | cons c l ih => intro s; simp [State.forgetAll, ih]
@[simp] theorem State.forgetAll_gmask (l : List (Space × Nat)) : ∀ s : State,
    (State.forgetAll l s).gmask = s.gmask := by
  induction l with
  | nil => intro s; rfl
  | cons c l ih => intro s; simp [State.forgetAll, ih]
@[simp] theorem State.forgetAll_bmask (l : List (Space × Nat)) : ∀ s : State,
    (State.forgetAll l s).bmask = s.bmask := by
  induction l with
  | nil => intro s; rfl
  | cons c l ih => intro s; simp [State.forgetAll, ih]
@[simp] theorem State.forgetAll_amask (l : List (Space × Nat)) : ∀ s : State,
    (State.forgetAll l s).amask = s.amask := by
  induction l with
  | nil => intro s; rfl
  | cons c l ih => intro s; simp [State.forgetAll, ih]
@[simp] theorem State.forgetAll_rowbytes (l : List (Space × Nat)) : ∀ s : State,
    (State.forgetAll l s).rowbytes = s.rowbytes := by
  induction l with
  | nil => intro s; rfl
  | cons c l ih => intro s; simp [State.forgetAll, ih]
@[simp] theorem State.forgetAll_pad (l : List (Space × Nat)) : ∀ s : State,
    (State.forgetAll l s).pad = s.pad := by
  induction l with
  | nil => intro s; rfl
  | cons c l ih => intro s; simp [State.forgetAll, ih]
@[simp] theorem State.forgetAll_stride (l : List (Space × Nat)) : ∀ s : State,
    (State.forgetAll l s).stride = s.stride := by
  induction l with
  | nil => intro s; rfl
  | cons c l ih => intro s; simp [State.forgetAll, ih]
@[simp] theorem State.forgetAll_imgsize (l : List (Space × Nat)) : ∀ s : State,
    (State.forgetAll l s).imgsize = s.imgsize := by
  induction l with
  | nil => intro s; rfl
  | cons c l ih => intro s; simp [State.forgetAll, ih]
@[simp] theorem State.forgetAll_cap (l : List (Space × Nat)) : ∀ s : State,
    (State.forgetAll l s).cap = s.cap := by
  induction l with
  | nil => intro s; rfl
  | cons c l ih => intro s; simp [State.forgetAll, ih]
@[simp] theorem State.forgetAll_opa (l : List (Space × Nat)) : ∀ s : State,
    (State.forgetAll l s).opa = s.opa := by
  induction l with
  | nil => intro s; rfl
  | cons c l ih => intro s; simp [State.forgetAll, ih]
@[simp] theorem State.forgetAll_opb (l : List (Space × Nat)) : ∀ s : State,
    (State.forgetAll l s).opb = s.opb := by
  induction l with
  | nil => intro s; rfl
  | cons c l ih => intro s; simp [State.forgetAll, ih]
@[simp] theorem State.forgetAll_res (l : List (Space × Nat)) : ∀ s : State,
    (State.forgetAll l s).res = s.res := by
  induction l with
  | nil => intro s; rfl
  | cons c l ih => intro s; simp [State.forgetAll, ih]
@[simp] theorem State.forgetAll_row (l : List (Space × Nat)) : ∀ s : State,
    (State.forgetAll l s).row = s.row := by
  induction l with
  | nil => intro s; rfl
  | cons c l ih => intro s; simp [State.forgetAll, ih]
@[simp] theorem State.forgetAll_plen (l : List (Space × Nat)) : ∀ s : State,
    (State.forgetAll l s).plen = s.plen := by
  induction l with
  | nil => intro s; rfl
  | cons c l ih => intro s; simp [State.forgetAll, ih]
@[simp] theorem State.forgetAll_spos (l : List (Space × Nat)) : ∀ s : State,
    (State.forgetAll l s).spos = s.spos := by
  induction l with
  | nil => intro s; rfl
  | cons c l ih => intro s; simp [State.forgetAll, ih]
@[simp] theorem State.forgetAll_status (l : List (Space × Nat)) : ∀ s : State,
    (State.forgetAll l s).status = s.status := by
  induction l with
  | nil => intro s; rfl
  | cons c l ih => intro s; simp [State.forgetAll, ih]
@[simp] theorem State.forgetAll_ien (l : List (Space × Nat)) : ∀ s : State,
    (State.forgetAll l s).ien = s.ien := by
  induction l with
  | nil => intro s; rfl
  | cons c l ih => intro s; simp [State.forgetAll, ih]
@[simp] theorem State.forgetAll_pend (l : List (Space × Nat)) : ∀ s : State,
    (State.forgetAll l s).pend = s.pend := by
  induction l with
  | nil => intro s; rfl
  | cons c l ih => intro s; simp [State.forgetAll, ih]
@[simp] theorem State.forgetAll_drawPos (l : List (Space × Nat)) : ∀ s : State,
    (State.forgetAll l s).drawPos = s.drawPos := by
  induction l with
  | nil => intro s; rfl
  | cons c l ih => intro s; simp [State.forgetAll, ih]
@[simp] theorem State.forgetAll_randomFeed (l : List (Space × Nat)) : ∀ s : State,
    (State.forgetAll l s).randomFeed = s.randomFeed := by
  induction l with
  | nil => intro s; rfl
  | cons c l ih => intro s; simp [State.forgetAll, ih]
@[simp] theorem State.forgetAll_agenda (l : List (Space × Nat)) : ∀ s : State,
    (State.forgetAll l s).agenda = s.agenda := by
  induction l with
  | nil => intro s; rfl
  | cons c l ih => intro s; simp [State.forgetAll, ih]
@[simp] theorem State.forgetAll_busData (l : List (Space × Nat)) : ∀ s : State,
    (State.forgetAll l s).busData = s.busData := by
  induction l with
  | nil => intro s; rfl
  | cons c l ih => intro s; simp [State.forgetAll, ih]

theorem State.forget_byte_ne (s : State) {sp sp' : Space} {a a' : Nat} (h : (sp', a') ≠ (sp, a)) :
    (s.forget sp a).byte sp' a' = s.byte sp' a' := by
  unfold State.forget
  split
  · by_cases hsp : sp' = sp
    · subst hsp
      have ha : a' ≠ a := fun e => h (by rw [e])
      have : ({ s.setMem sp' ((s.mem sp').write a (Config.freeByte s.freeCount)) with
          freeCount := s.freeCount + 1 } : State).mem sp'
            = (s.mem sp').write a (Config.freeByte s.freeCount) := by cases sp' <;> rfl
      simp only [State.byte, this]
      exact Memory.byteAt_write_ne _ _ _ ha
    · have : ({ s.setMem sp ((s.mem sp).write a (Config.freeByte s.freeCount)) with
          freeCount := s.freeCount + 1 } : State).mem sp' = s.mem sp' := by
        cases sp <;> cases sp' <;> first | rfl | exact absurd rfl hsp
      simp only [State.byte, this]
  · rfl

/-- A byte outside the list keeps its value. -/
theorem State.forgetAll_byte (l : List (Space × Nat)) : ∀ (s : State) {sp : Space} {a : Nat},
    (sp, a) ∉ l → (State.forgetAll l s).byte sp a = s.byte sp a := by
  induction l with
  | nil => intro s sp a _; rfl
  | cons c l ih =>
    obtain ⟨sp0, a0⟩ := c
    intro s sp a h
    simp only [List.mem_cons, not_or] at h
    simp only [State.forgetAll]
    rw [ih _ h.2, State.forget_byte_ne s h.1]

end Sys2Proof.Machine
end

