-- ==== Sys2Proof/Laws/Ops.lean ====
section
/-! SUPPORT. What the preambles can do: each answers exactly one of the listed outcomes. -/

namespace Sys2Proof.Machine

open Sys2Proof

/-! ### checkFramed and checkSteg -/

@[simp] theorem checkFramed_of_cfgok {s : State} (h : s.status.cfgok = true) (k : Result) :
    checkFramed s k = k := by simp [checkFramed, h]

@[simp] theorem checkFramed_of_not_cfgok {s : State} (h : s.status.cfgok = false) (k : Result) :
    checkFramed s k = .next (s.raise .notConfigured) := by simp [checkFramed, h]

/-- Either the engine is not framed and the command raises NotConfigured, or the check passes. -/
theorem checkFramed_cases (s : State) (k : Result) :
    (s.status.cfgok = false ∧ checkFramed s k = .next (s.raise .notConfigured))
      ∨ (s.status.cfgok = true ∧ checkFramed s k = k) := by
  cases h : s.status.cfgok <;> simp [checkFramed, h]

@[simp] theorem checkSteg_of_ok {s : State} (h : s.status.cfgok = true) (hd : 16 ≤ s.depth.toNat)
    (k : Result) : checkSteg s k = k := by
  simp [checkSteg, h, Nat.not_lt.mpr hd]

@[simp] theorem checkSteg_of_not_cfgok {s : State} (h : s.status.cfgok = false) (k : Result) :
    checkSteg s k = .next (s.raise .notConfigured) := by simp [checkSteg, h]

@[simp] theorem checkSteg_of_depth {s : State} (h : s.status.cfgok = true) (hd : s.depth.toNat < 16)
    (k : Result) : checkSteg s k = .next (s.raise .unsupportedDepth) := by
  simp [checkSteg, h, hd]

/-- Not framed, or depth below 16, or the checks pass. -/
theorem checkSteg_cases (s : State) (k : Result) :
    (s.status.cfgok = false ∧ checkSteg s k = .next (s.raise .notConfigured))
      ∨ (s.status.cfgok = true ∧ s.depth.toNat < 16
          ∧ checkSteg s k = .next (s.raise .unsupportedDepth))
      ∨ (s.status.cfgok = true ∧ 16 ≤ s.depth.toNat ∧ checkSteg s k = k) := by
  cases h : s.status.cfgok
  · exact .inl ⟨rfl, checkSteg_of_not_cfgok h k⟩
  · rcases Nat.lt_or_ge s.depth.toNat 16 with hd | hd
    · exact .inr (.inl ⟨rfl, hd, checkSteg_of_depth h hd k⟩)
    · exact .inr (.inr ⟨rfl, hd, checkSteg_of_ok h hd k⟩)

/-! ### STATUS at completion -/

theorem Status.succeeded_eq {t : Status} {c : Bool} (h : t.cfgok = c) :
    t.succeeded = Status.good c := by subst h; rfl

theorem Status.failed_eq {t : Status} {c : Bool} (h : t.cfgok = c) (code : BitVec 8) :
    t.failed code = Status.bad c code := by subst h; rfl

/-! ### The guards against accesses outside a space -/

@[simp] theorem checkUnits_of_le {s : State} {n : Nat} (h : n ≤ 3 * s.params.gridPixels) (k : Result) :
    checkUnits s n k = k := by simp [checkUnits, h]

theorem checkUnits_next {s t : State} {n : Nat} {k : Result} (h : checkUnits s n k = .next t) :
    n ≤ 3 * s.params.gridPixels ∧ k = .next t := by
  unfold checkUnits at h; split at h
  · exact ⟨‹_›, h⟩
  · cases h

@[simp] theorem checkMsg_of_le {s : State} {n : Nat} (h : n ≤ s.params.msgBytes) (k : Result) :
    checkMsg s n k = k := by simp [checkMsg, h]

theorem checkMsg_next {s t : State} {n : Nat} {k : Result} (h : checkMsg s n k = .next t) :
    n ≤ s.params.msgBytes ∧ k = .next t := by
  unfold checkMsg at h; split at h
  · exact ⟨‹_›, h⟩
  · cases h

/-! ### Depths -/

@[simp] theorem PixelDepth.ofBits_bits (d : PixelDepth) : PixelDepth.ofBits d.bits = some d := by
  cases d <;> rfl

theorem PixelDepth.bits_of_ofBits {n : Nat} {d : PixelDepth} (h : PixelDepth.ofBits n = some d) :
    n = d.bits := by
  unfold PixelDepth.ofBits at h
  split at h <;> first | (cases h; rfl) | cases h

theorem PixelDepth.bits_injective {d d' : PixelDepth} (h : d.bits = d'.bits) : d = d' := by
  have := PixelDepth.ofBits_bits d
  rw [h, PixelDepth.ofBits_bits] at this
  exact (Option.some.inj this).symm

theorem PixelDepth.bits_pos (d : PixelDepth) : 1 ≤ d.bits := by cases d <;> decide

/-! ### The codec's guard -/

theorem checkCodec_next {s t : State} {rows : Nat} {k : PixelDepth → Result}
    (h : checkCodec s rows k = .next t) : ∃ d, s.depth.toNat = d.bits
      ∧ s.rowbytes.toNat = rowBytes s.w d.bits ∧ s.stride.toNat = s.rowbytes.toNat + s.pad.toNat
      ∧ rows * s.w ≤ s.params.gridPixels ∧ rows * s.stride.toNat ≤ s.params.pbufBytes
      ∧ k d = .next t := by
  unfold checkCodec at h
  split at h
  · cases h
  · rename_i d hd
    split at h
    · rename_i h1
      split at h
      · rename_i h2
        split at h
        · exact ⟨d, PixelDepth.bits_of_ofBits hd, h1.1, h1.2, h2, ‹_›, h⟩
        · cases h
      · cases h
    · cases h

/-- A framed engine passes the codec's guard for every row of its image. -/
theorem State.FramedAs.checkCodec_eq {s : State} {d : PixelDepth} (hf : s.FramedAs d) {rows : Nat}
    (hr : rows ≤ s.h) (k : PixelDepth → Result) : checkCodec s rows k = k d := by
  have h1 : s.stride.toNat = s.rowbytes.toNat + s.pad.toNat := by
    rw [hf.stride, hf.rowbytes, hf.pad]; rfl
  have h2 : rows * s.w ≤ s.params.gridPixels :=
    (Nat.mul_le_mul_right _ hr).trans ((Nat.mul_comm _ _).le.trans hf.grid_fits)
  have h3 : rows * s.stride.toNat ≤ s.params.pbufBytes := by
    rw [hf.stride]
    exact (Nat.mul_le_mul_right _ hr).trans hf.pbuf_fits
  unfold checkCodec
  rw [hf.depth, PixelDepth.ofBits_bits]
  simp only
  rw [if_pos ⟨hf.rowbytes, h1⟩, if_pos h2, if_pos h3]

/-! ### The bounds of a framed engine -/

theorem Params.legal_iff (p : Params) : p.legal = true ↔
    (1 ≤ p.gridPixels ∧ p.gridPixels ≤ 2 ^ 30)
    ∧ (4 ≤ p.pbufBytes ∧ p.pbufBytes ≤ 2 ^ 32 - 1 ∧ p.pbufBytes % 4 = 0)
    ∧ (3 * p.gridPixels < 32 ∨ (3 * p.gridPixels - 32) / 8 ≤ p.msgBytes) := by
  simp [Params.legal, Params.gridLegal, Params.pbufLegal, Params.msgLegal, and_assoc]

theorem State.units_eq (s : State) : s.units = 3 * (s.w * s.h) := by
  simp [State.units, Nat.mul_assoc]

theorem State.FramedAs.units_le {s : State} {d : PixelDepth} (hf : s.FramedAs d) :
    s.units ≤ 3 * s.params.gridPixels := by
  rw [State.units_eq]; exact Nat.mul_le_mul_left 3 hf.grid_fits

theorem State.FramedAs.cap_eq {s : State} {d : PixelDepth} (hf : s.FramedAs d) :
    s.cap.toNat = if s.units < 32 then 0 else (s.units - 32) / 8 := by
  rw [hf.cap, capacity, State.units_eq, Nat.mul_comm 3]

theorem State.FramedAs.cap_le_msg {s : State} {d : PixelDepth} (hp : s.params.legal = true)
    (hf : s.FramedAs d) : s.cap.toNat ≤ s.params.msgBytes := by
  have h1 := hf.units_le
  have h2 := ((Params.legal_iff _).1 hp).2.2
  rw [hf.cap_eq]
  split <;> omega

theorem State.FramedAs.units_lt {s : State} {d : PixelDepth} (hp : s.params.legal = true)
    (hf : s.FramedAs d) : s.units < 2 ^ 32 := by
  have h1 := hf.units_le
  have h2 := ((Params.legal_iff _).1 hp).1
  omega

end Sys2Proof.Machine
end

