-- ==== Sys2Proof/Laws/Steg.lean ====
section
/-! SUPPORT. The channel-units of a grid: addresses, reading and writing lists of bits, and the numbers
lists of bits spell. -/

namespace Sys2Proof.Machine

open Sys2Proof

/-! ### Unit addresses -/

theorem unitAddr_lt {k k' : Nat} (h : k < k') : unitAddr k < unitAddr k' := by
  unfold unitAddr; omega

theorem unitAddr_inj {k k' : Nat} (h : unitAddr k = unitAddr k') : k = k' := by
  unfold unitAddr at h; omega

theorem unitAddr_lt_grid {k n : Nat} (h : k < 3 * n) : unitAddr k < 4 * n := by
  unfold unitAddr; omega

/-! ### Writing bits -/

@[simp] theorem getbit_putbit (v : Byte) (b : Bool) : getbit (putbit v b) = b := by
  revert v b; decide

theorem byteAt_putUnit_same (g : Memory) (k : Nat) (b : Bool) :
    (putUnit g k b).byteAt .grid (unitAddr k) = putbit (g.byteAt .grid (unitAddr k)) b := by
  simp [putUnit]

theorem byteAt_putUnit_ne (g : Memory) {k a : Nat} (b : Bool) (h : a ≠ unitAddr k) :
    (putUnit g k b).byteAt .grid a = g.byteAt .grid a := by
  simp [putUnit, Memory.byteAt_write_ne _ _ _ h]

/-- Writing a list of bits leaves every byte that is none of their units. -/
theorem byteAt_putUnits_outside (bs : List Bool) : ∀ (g : Memory) (k : Nat) {a : Nat},
    (∀ i, i < bs.length → a ≠ unitAddr (k + i)) →
    (putUnits g k bs).byteAt .grid a = g.byteAt .grid a := by
  induction bs with
  | nil => intros; rfl
  | cons b bs ih =>
    intro g k a h
    have h0 : a ≠ unitAddr k := h 0 (by simp)
    simp only [putUnits]
    rw [ih _ _ (fun i hi => by
      have := h (i + 1) (by simpa using hi)
      rwa [show k + (i + 1) = k + 1 + i by omega] at this), byteAt_putUnit_ne _ _ h0]

/-- Writing a list of bits puts bit `i` into the byte of unit `k + i`. -/
theorem byteAt_putUnits_inside (bs : List Bool) : ∀ (g : Memory) (k : Nat) {i : Nat}
    (h : i < bs.length), (putUnits g k bs).byteAt .grid (unitAddr (k + i))
      = putbit (g.byteAt .grid (unitAddr (k + i))) bs[i] := by
  induction bs with
  | nil => intro g k i h; simp at h
  | cons b bs ih =>
    intro g k i h
    simp only [putUnits]
    cases i with
    | zero =>
      simp only [Nat.add_zero, List.getElem_cons_zero]
      rw [byteAt_putUnits_outside bs _ _ (fun i _ e => by
        have := unitAddr_inj e; omega), byteAt_putUnit_same]
    | succ i =>
      have hi : i < bs.length := by simpa using h
      rw [show k + (i + 1) = k + 1 + i by omega, ih _ _ hi, byteAt_putUnit_ne _ _ (fun e => by
        have := unitAddr_inj e; omega)]
      simp

theorem getUnit_putUnits (bs : List Bool) (g : Memory) (k : Nat) {i : Nat} (h : i < bs.length) :
    getUnit (putUnits g k bs) (k + i) = bs[i] := by
  simp [getUnit, byteAt_putUnits_inside bs g k h]

theorem wf_putUnits (bs : List Bool) : ∀ {g : Memory} (k : Nat), g.wf = true →
    (putUnits g k bs).wf = true := by
  induction bs with
  | nil => intro g k h; exact h
  | cons b bs ih => intro g k h; exact ih (k + 1) (Memory.wf_write h _ _)

theorem below_putUnits {n : Nat} (bs : List Bool) : ∀ {g : Memory} {k : Nat},
    g.below (4 * n) = true → k + bs.length ≤ 3 * n → (putUnits g k bs).below (4 * n) = true := by
  induction bs with
  | nil => intro g k h _; exact h
  | cons b bs ih =>
    intro g k h hle
    simp only [List.length_cons] at hle
    exact ih (Memory.below_write h (unitAddr_lt_grid (by omega)) _) (by omega)

/-! ### Bits and numbers -/

@[simp] theorem bitsLsbFirst_length (n v : Nat) : (bitsLsbFirst n v).length = n := by
  simp [bitsLsbFirst]

@[simp] theorem bitsLsbFirst_getElem (n v i : Nat) (h : i < (bitsLsbFirst n v).length) :
    (bitsLsbFirst n v)[i] = v.testBit i := by simp [bitsLsbFirst]

@[simp] theorem getUnits_length (g : Memory) (k n : Nat) : (getUnits g k n).length = n := by
  simp [getUnits]

@[simp] theorem getUnits_getElem (g : Memory) (k n i : Nat) (h : i < (getUnits g k n).length) :
    (getUnits g k n)[i] = getUnit g (k + i) := by simp [getUnits]

theorem ofBitsLsbFirst_lt (bs : List Bool) : ofBitsLsbFirst bs < 2 ^ bs.length := by
  induction bs with
  | nil => simp [ofBitsLsbFirst]
  | cons b bs ih =>
    have : b.toNat ≤ 1 := Bool.toNat_le b
    simp only [ofBitsLsbFirst, List.length_cons, Nat.pow_succ]
    omega

theorem testBit_ofBitsLsbFirst (bs : List Bool) : ∀ i, (ofBitsLsbFirst bs).testBit i = (bs[i]?).getD false := by
  induction bs with
  | nil => intro i; simp [ofBitsLsbFirst]
  | cons b bs ih =>
    intro i
    cases i with
    | zero =>
      simp only [ofBitsLsbFirst, Nat.testBit_zero, List.getElem?_cons_zero, Option.getD_some]
      cases b <;> simp [Nat.add_mod]
    | succ i =>
      have h2 : (b.toNat + 2 * ofBitsLsbFirst bs) / 2 = ofBitsLsbFirst bs := by
        have : b.toNat ≤ 1 := Bool.toNat_le b
        omega
      simp only [ofBitsLsbFirst, Nat.testBit_succ, h2, ih, List.getElem?_cons_succ]

/-- A number below `2 ^ n` is what its first `n` bits spell. -/
theorem ofBitsLsbFirst_eq {bs : List Bool} {v : Nat} (hv : v < 2 ^ bs.length)
    (h : ∀ i (hi : i < bs.length), bs[i] = v.testBit i) : ofBitsLsbFirst bs = v := by
  refine Nat.eq_of_testBit_eq fun i => ?_
  rw [testBit_ofBitsLsbFirst]
  by_cases hi : i < bs.length
  · rw [List.getElem?_eq_getElem hi, Option.getD_some, h i hi]
  · rw [List.getElem?_eq_none (by omega), Option.getD_none]
    exact (Nat.testBit_eq_false_of_lt (hv.trans_le (Nat.pow_le_pow_right (by omega) (by omega)))).symm

/-- The length the first 32 units spell is the number with those bits. -/
theorem State.decodedLength_eq {s : State} {L : Nat} (hL : L < 2 ^ 32)
    (h : ∀ i, i < 32 → L.testBit i = getUnit s.grid i) : s.decodedLength = L := by
  refine ofBitsLsbFirst_eq (by simpa using hL) fun i hi => ?_
  have hi' : i < 32 := by simpa using hi
  simp [h i hi']

theorem State.decodedLength_lt (s : State) : s.decodedLength < 2 ^ 32 := by
  have := ofBitsLsbFirst_lt (getUnits s.grid 0 32)
  rwa [getUnits_length] at this

theorem State.decodedByte_getLsbD (s : State) (j : Nat) {i : Nat} (hi : i < 8) :
    (s.decodedByte j).getLsbD i = getUnit s.grid (32 + 8 * j + i) := by
  rw [State.decodedByte, BitVec.getLsbD_ofNat, testBit_ofBitsLsbFirst]
  simp [hi, getUnits]

/-! ### The bits SWRITE writes -/

theorem State.payloadBits_length (s : State) (n : Nat) : (s.payloadBits n).length = 8 * n := by
  simp [State.payloadBits, List.length_flatMap, Nat.mul_comm]

theorem State.swriteBits_length (s : State) :
    s.swriteBits.length = 32 + 8 * s.plen.toNat + s.fillerCount s.plen.toNat := by
  simp [State.swriteBits, State.payloadBits_length]; omega

/-- Bit `i` of the bytes of a list, each byte least significant bit first. -/
theorem flatMap_bits_getElem? (l : List Byte) : ∀ {j i : Nat}, j < l.length → i < 8 →
    (l.flatMap fun v => bitsLsbFirst 8 v.toNat)[8 * j + i]? = some ((l.getD j 0).getLsbD i) := by
  induction l with
  | nil => intro j i h; simp at h
  | cons v l ih =>
    intro j i h hi
    rw [List.flatMap_cons]
    cases j with
    | zero =>
      rw [List.getElem?_append_left (by simpa using hi)]
      simp [bitsLsbFirst, hi, BitVec.getLsbD]
    | succ j =>
      rw [List.getElem?_append_right (by simp; omega), bitsLsbFirst_length,
        show 8 * (j + 1) + i - 8 = 8 * j + i by omega, ih (by simpa using h) hi]
      simp

theorem State.payloadBits_getElem? (s : State) {n j i : Nat} (hj : j < n) (hi : i < 8) :
    (s.payloadBits n)[8 * j + i]? = some ((s.byte .msg j).getLsbD i) := by
  rw [State.payloadBits, flatMap_bits_getElem? _ (by simpa using hj) hi, Memory.bytesAt_getD _ _ hj,
    Nat.zero_add]
  rfl

theorem State.draws_fst_getElem? (s : State) {n i : Nat} (h : i < n) :
    (State.draws n s).1[i]? = some (s.drawnBit i) := by
  rw [List.getElem?_eq_getElem (by simpa using h), State.draws_fst_getElem]
  rfl

/-- Units 0 to 31 carry the length. -/
theorem State.swriteBits_length_part (s : State) {i : Nat} (hi : i < 32) :
    s.swriteBits[i]? = some (s.plen.getLsbD i) := by
  rw [State.swriteBits, List.append_assoc, List.getElem?_append_left (by simpa using hi)]
  simp [bitsLsbFirst, hi, BitVec.getLsbD]

/-- The next 8 * PLEN units carry the payload. -/
theorem State.swriteBits_payload_part (s : State) {j i : Nat} (hj : j < s.plen.toNat) (hi : i < 8) :
    s.swriteBits[32 + 8 * j + i]? = some ((s.byte .msg j).getLsbD i) := by
  rw [State.swriteBits, List.append_assoc, List.getElem?_append_right (by simp; omega),
    bitsLsbFirst_length, List.getElem?_append_left (by simp [State.payloadBits_length]; omega),
    show 32 + 8 * j + i - 32 = 8 * j + i by omega, State.payloadBits_getElem? s hj hi]

/-- The remaining units carry the drawn bits in order. -/
theorem State.swriteBits_filler_part (s : State) {n : Nat}
    (hn : 32 + 8 * s.plen.toNat + n < s.units) :
    s.swriteBits[32 + 8 * s.plen.toNat + n]? = some (s.drawnBit n) := by
  rw [State.swriteBits, List.getElem?_append_right (by simp [State.payloadBits_length])]
  simp only [bitsLsbFirst_length, List.length_append, State.payloadBits_length]
  rw [Nat.add_sub_cancel_left, State.draws_fst_getElem? s (by unfold State.fillerCount; omega)]

/-- On an engine that can embed, the bits fill every unit exactly. -/
theorem State.CanEmbed.bits_length {s : State} {d : PixelDepth} (h : s.CanEmbed d) :
    s.swriteBits.length = s.units := by
  have h1 := h.fits
  have h2 := h.units
  rw [h.framed.cap_eq, if_neg (by omega)] at h1
  rw [State.swriteBits_length, State.fillerCount]
  omega

theorem State.CanEmbed.payload_le {s : State} {d : PixelDepth} (h : s.CanEmbed d) :
    32 + 8 * s.plen.toNat ≤ s.units := by
  have h1 := h.fits
  have h2 := h.units
  rw [h.framed.cap_eq, if_neg (by omega)] at h1
  omega

/-! ### The meanings where they have their own effect -/

theorem execSput_eq {s : State} {d : PixelDepth} (hf : s.FramedAs d) (hd : 16 ≤ d.bits)
    (hlt : s.spos.toNat < s.units) : execSput s = .next { s with
      grid := putUnit s.grid s.spos.toNat (s.opa.getLsbD 0)
      spos := BitVec.ofNat 32 (s.spos.toNat + 1), status := Status.good true } := by
  have hu := hf.units_le
  rw [execSput, checkSteg_of_ok hf.cfgok (hf.depth ▸ hd), if_neg (Nat.not_le.mpr hlt),
    checkUnits_of_le (by omega), State.succeed, Status.succeeded_eq hf.cfgok]

theorem execSget_eq {s : State} {d : PixelDepth} (hf : s.FramedAs d) (hd : 16 ≤ d.bits)
    (hlt : s.spos.toNat < s.units) : execSget s = .next { s with
      res := (BitVec.ofBool (getUnit s.grid s.spos.toNat)).setWidth 32
      spos := BitVec.ofNat 32 (s.spos.toNat + 1), status := Status.good true } := by
  have hu := hf.units_le
  rw [execSget, checkSteg_of_ok hf.cfgok (hf.depth ▸ hd), if_neg (Nat.not_le.mpr hlt),
    checkUnits_of_le (by omega), State.succeed, Status.succeeded_eq hf.cfgok]

theorem execSwrite_eq {s : State} {d : PixelDepth} (h : s.CanEmbed d) : execSwrite s = .next
    { s with
      grid := putUnits s.grid 0 s.swriteBits, spos := BitVec.ofNat 32 s.units
      status := Status.good true
      randomFeed := s.randomFeed.drop (s.fillerCount s.plen.toNat)
      drawPos := s.drawPos + s.fillerCount s.plen.toNat } := by
  have hu := h.framed.units_le
  have hm := h.framed.cap_le_msg h.params
  have hl := h.payload_le
  have h1 := h.fits
  have h2 := h.units
  rw [execSwrite, checkSteg_of_ok h.framed.cfgok (h.framed.depth ▸ h.depth), if_neg (by omega),
    checkUnits_of_le (by omega), checkMsg_of_le (by omega), State.succeed, State.afterFiller_eq,
    Status.succeeded_eq h.framed.cfgok]

theorem execSread_eq {s : State} {d : PixelDepth} (hp : s.params.legal = true) (hf : s.FramedAs d)
    (hd : 16 ≤ d.bits) (hu : 32 ≤ s.units) (hL : s.decodedLength ≤ s.cap.toNat) :
    execSread s = .next { s with
      plen := BitVec.ofNat 32 s.decodedLength
      msg := s.msg.writeBytes 0 (s.decodedBytes s.decodedLength)
      spos := BitVec.ofNat 32 (32 + 8 * s.decodedLength), status := Status.good true } := by
  have h1 := hf.units_le
  have hm := hf.cap_le_msg hp
  have hc := hf.cap_eq
  rw [if_neg (by omega)] at hc
  rw [execSread, checkSteg_of_ok hf.cfgok (hf.depth ▸ hd), if_neg (by omega),
    checkUnits_of_le (by omega), if_neg (by omega), checkUnits_of_le (by omega),
    checkMsg_of_le (by omega), State.succeed, Status.succeeded_eq hf.cfgok]

theorem execSread_invalid {s : State} {d : PixelDepth} (hf : s.FramedAs d) (hd : 16 ≤ d.bits)
    (hu : 32 ≤ s.units) (hL : s.cap.toNat < s.decodedLength) :
    execSread s = .next { s with
      plen := BitVec.ofNat 32 s.decodedLength, spos := 32, status := Status.bad true 10 } := by
  have h1 := hf.units_le
  rw [execSread, checkSteg_of_ok hf.cfgok (hf.depth ▸ hd), if_neg (by omega),
    checkUnits_of_le (by omega), if_pos hL, State.raise, Status.failed_eq hf.cfgok]
  rfl

end Sys2Proof.Machine
end

