-- ==== Sys2Proof/Laws/Exec.lean ====
section
/-! SUPPORT. What each meaning can answer: for every command, every next state it can lead to, with the
conditions that held.  Whole-machine claims are derived from these and unfold no meaning. -/

namespace Sys2Proof.Machine

open Sys2Proof

/-- A raise or a preamble's raise, on a command of the codec. -/
theorem checkFramed_next {s t : State} {k : Result} (h : checkFramed s k = .next t) :
    (s.status.cfgok = false ∧ t = s.raise .notConfigured) ∨ (s.status.cfgok = true ∧ k = .next t) := by
  rcases checkFramed_cases s k with ⟨hc, e⟩ | ⟨hc, e⟩
  · rw [e] at h; cases h; exact .inl ⟨hc, rfl⟩
  · rw [e] at h; exact .inr ⟨hc, h⟩

theorem checkSteg_next {s t : State} {k : Result} (h : checkSteg s k = .next t) :
    (s.status.cfgok = false ∧ t = s.raise .notConfigured)
      ∨ (s.status.cfgok = true ∧ s.depth.toNat < 16 ∧ t = s.raise .unsupportedDepth)
      ∨ (s.status.cfgok = true ∧ 16 ≤ s.depth.toNat ∧ k = .next t) := by
  rcases checkSteg_cases s k with ⟨hc, e⟩ | ⟨hc, hd, e⟩ | ⟨hc, hd, e⟩ <;> rw [e] at h
  · cases h; exact .inl ⟨hc, rfl⟩
  · cases h; exact .inr (.inl ⟨hc, hd, rfl⟩)
  · exact .inr (.inr ⟨hc, hd, h⟩)

/-- FRAME fails one of its three checks or latches the derived values. -/
theorem execFrame_next {s t : State} (h : execFrame s = .next t) :
    (∃ e, (e = .invalidDimensions ∨ e = .invalidDepth ∨ e = .allocationFailure) ∧ t = s.failFrame e)
      ∨ (∃ d, s.depth.toNat = PixelDepth.bits d ∧ 1 ≤ s.w ∧ 1 ≤ s.h
          ∧ s.w * s.h ≤ s.params.gridPixels ∧ imageSize s.w s.h d.bits ≤ s.params.pbufBytes
          ∧ t = (s.latchFrame d.bits).succeed) := by
  unfold execFrame at h
  split at h
  · cases h; exact .inl ⟨_, .inl rfl, rfl⟩
  · rename_i h1
    split at h
    · cases h; exact .inl ⟨_, .inr (.inl rfl), rfl⟩
    · rename_i d hd
      split at h
      · cases h; exact .inl ⟨_, .inr (.inr rfl), rfl⟩
      · rename_i h2
        cases h
        exact .inr ⟨d, PixelDepth.bits_of_ofBits hd, by omega, by omega, by omega, by omega, rfl⟩

/-- UNPACKR raises NotConfigured or RowRange, or unpacks row ROW. -/
theorem execUnpackr_next {s t : State} (h : execUnpackr s = .next t) :
    (s.status.cfgok = false ∧ t = s.raise .notConfigured)
      ∨ (s.status.cfgok = true ∧ s.h ≤ s.row.toNat ∧ t = s.raise .rowRange)
      ∨ (s.status.cfgok = true ∧ s.row.toNat < s.h ∧ ∃ d, s.depth.toNat = PixelDepth.bits d
          ∧ (s.row.toNat + 1) * s.w ≤ s.params.gridPixels
          ∧ t = { s with grid := s.unpackInto d s.grid s.row.toNat }.succeed) := by
  rcases checkFramed_next h with h | ⟨hc, h⟩
  · exact .inl h
  · split at h
    · cases h; exact .inr (.inl ⟨hc, ‹_›, rfl⟩)
    · obtain ⟨d, hd, _, _, hg, _, hk⟩ := checkCodec_next h
      cases hk; exact .inr (.inr ⟨hc, by omega, d, hd, hg, rfl⟩)

/-- PACKR raises NotConfigured or RowRange, or packs row ROW. -/
theorem execPackr_next {s t : State} (h : execPackr s = .next t) :
    (s.status.cfgok = false ∧ t = s.raise .notConfigured)
      ∨ (s.status.cfgok = true ∧ s.h ≤ s.row.toNat ∧ t = s.raise .rowRange)
      ∨ (s.status.cfgok = true ∧ s.row.toNat < s.h ∧ ∃ d, s.depth.toNat = PixelDepth.bits d
          ∧ (s.row.toNat + 1) * s.stride.toNat ≤ s.params.pbufBytes
          ∧ t = { s with pbuf := s.packInto d s.pbuf s.row.toNat }.succeed) := by
  rcases checkFramed_next h with h | ⟨hc, h⟩
  · exact .inl h
  · split at h
    · cases h; exact .inr (.inl ⟨hc, ‹_›, rfl⟩)
    · obtain ⟨d, hd, _, _, _, hb, hk⟩ := checkCodec_next h
      cases hk; exact .inr (.inr ⟨hc, by omega, d, hd, hb, rfl⟩)

/-- UNPACK raises NotConfigured or unpacks every row. -/
theorem execUnpack_next {s t : State} (h : execUnpack s = .next t) :
    (s.status.cfgok = false ∧ t = s.raise .notConfigured)
      ∨ (s.status.cfgok = true ∧ ∃ d, s.depth.toNat = PixelDepth.bits d
          ∧ s.h * s.w ≤ s.params.gridPixels
          ∧ t = { s with grid := s.unpackRows d s.h }.succeed) := by
  rcases checkFramed_next h with h | ⟨hc, h⟩
  · exact .inl h
  · obtain ⟨d, hd, _, _, hg, _, hk⟩ := checkCodec_next h
    cases hk; exact .inr ⟨hc, d, hd, hg, rfl⟩

/-- PACK raises NotConfigured or packs every row. -/
theorem execPack_next {s t : State} (h : execPack s = .next t) :
    (s.status.cfgok = false ∧ t = s.raise .notConfigured)
      ∨ (s.status.cfgok = true ∧ ∃ d, s.depth.toNat = PixelDepth.bits d
          ∧ s.h * s.stride.toNat ≤ s.params.pbufBytes
          ∧ t = { s with pbuf := s.packRows d s.h }.succeed) := by
  rcases checkFramed_next h with h | ⟨hc, h⟩
  · exact .inl h
  · obtain ⟨d, hd, _, _, _, hb, hk⟩ := checkCodec_next h
    cases hk; exact .inr ⟨hc, d, hd, hb, rfl⟩

/-- SRWD raises NotConfigured or UnsupportedDepth, or rewinds. -/
theorem execSrwd_next {s t : State} (h : execSrwd s = .next t) :
    (s.status.cfgok = false ∧ t = s.raise .notConfigured)
      ∨ (s.status.cfgok = true ∧ s.depth.toNat < 16 ∧ t = s.raise .unsupportedDepth)
      ∨ (s.status.cfgok = true ∧ 16 ≤ s.depth.toNat ∧ t = { s with spos := 0 }.succeed) := by
  rcases checkSteg_next h with h | h | ⟨hc, hd, h⟩
  · exact .inl h
  · exact .inr (.inl h)
  · cases h; exact .inr (.inr ⟨hc, hd, rfl⟩)

/-- SPUT raises one of its three errors, or writes one unit and advances. -/
theorem execSput_next {s t : State} (h : execSput s = .next t) :
    (s.status.cfgok = false ∧ t = s.raise .notConfigured)
      ∨ (s.status.cfgok = true ∧ s.depth.toNat < 16 ∧ t = s.raise .unsupportedDepth)
      ∨ (s.status.cfgok = true ∧ 16 ≤ s.depth.toNat ∧ s.units ≤ s.spos.toNat ∧ t = s.raise .scanEnd)
      ∨ (s.status.cfgok = true ∧ 16 ≤ s.depth.toNat ∧ s.spos.toNat < s.units
          ∧ s.spos.toNat + 1 ≤ 3 * s.params.gridPixels
          ∧ t = { s with
              grid := putUnit s.grid s.spos.toNat (s.opa.getLsbD 0)
              spos := BitVec.ofNat 32 (s.spos.toNat + 1) }.succeed) := by
  rcases checkSteg_next h with h | h | ⟨hc, hd, h⟩
  · exact .inl h
  · exact .inr (.inl h)
  · split at h
    · cases h; exact .inr (.inr (.inl ⟨hc, hd, ‹_›, rfl⟩))
    · obtain ⟨hu, hk⟩ := checkUnits_next h
      cases hk; exact .inr (.inr (.inr ⟨hc, hd, by omega, hu, rfl⟩))

/-- SGET raises one of its three errors, or reads one unit and advances. -/
theorem execSget_next {s t : State} (h : execSget s = .next t) :
    (s.status.cfgok = false ∧ t = s.raise .notConfigured)
      ∨ (s.status.cfgok = true ∧ s.depth.toNat < 16 ∧ t = s.raise .unsupportedDepth)
      ∨ (s.status.cfgok = true ∧ 16 ≤ s.depth.toNat ∧ s.units ≤ s.spos.toNat ∧ t = s.raise .scanEnd)
      ∨ (s.status.cfgok = true ∧ 16 ≤ s.depth.toNat ∧ s.spos.toNat < s.units
          ∧ t = { s with
              res := (BitVec.ofBool (getUnit s.grid s.spos.toNat)).setWidth 32
              spos := BitVec.ofNat 32 (s.spos.toNat + 1) }.succeed) := by
  rcases checkSteg_next h with h | h | ⟨hc, hd, h⟩
  · exact .inl h
  · exact .inr (.inl h)
  · split at h
    · cases h; exact .inr (.inr (.inl ⟨hc, hd, ‹_›, rfl⟩))
    · obtain ⟨_, hk⟩ := checkUnits_next h
      cases hk; exact .inr (.inr (.inr ⟨hc, hd, by omega, rfl⟩))

/-- SWRITE raises one of its three errors, or embeds the payload. -/
theorem execSwrite_next {s t : State} (h : execSwrite s = .next t) :
    (s.status.cfgok = false ∧ t = s.raise .notConfigured)
      ∨ (s.status.cfgok = true ∧ s.depth.toNat < 16 ∧ t = s.raise .unsupportedDepth)
      ∨ (s.status.cfgok = true ∧ 16 ≤ s.depth.toNat ∧ (s.units < 32 ∨ s.cap.toNat < s.plen.toNat)
          ∧ t = s.raise .payloadTooLarge)
      ∨ (s.status.cfgok = true ∧ 16 ≤ s.depth.toNat ∧ 32 ≤ s.units ∧ s.plen.toNat ≤ s.cap.toNat
          ∧ max s.units (32 + 8 * s.plen.toNat) ≤ 3 * s.params.gridPixels
          ∧ t = { s.afterFiller with
              grid := putUnits s.grid 0 s.swriteBits, spos := BitVec.ofNat 32 s.units }.succeed) := by
  rcases checkSteg_next h with h | h | ⟨hc, hd, h⟩
  · exact .inl h
  · exact .inr (.inl h)
  · split at h
    · cases h; exact .inr (.inr (.inl ⟨hc, hd, ‹_›, rfl⟩))
    · obtain ⟨hu, h⟩ := checkUnits_next h
      obtain ⟨_, hk⟩ := checkMsg_next h
      cases hk; exact .inr (.inr (.inr ⟨hc, hd, by omega, by omega, hu, rfl⟩))

/-- SREAD raises one of its errors, with or without the decoded length, or extracts the payload. -/
theorem execSread_next {s t : State} (h : execSread s = .next t) :
    (s.status.cfgok = false ∧ t = s.raise .notConfigured)
      ∨ (s.status.cfgok = true ∧ s.depth.toNat < 16 ∧ t = s.raise .unsupportedDepth)
      ∨ (s.status.cfgok = true ∧ 16 ≤ s.depth.toNat ∧ s.units < 32 ∧ t = s.raise .invalidLength)
      ∨ (s.status.cfgok = true ∧ 16 ≤ s.depth.toNat ∧ 32 ≤ s.units ∧ s.cap.toNat < s.decodedLength
          ∧ t = { s with plen := BitVec.ofNat 32 s.decodedLength, spos := 32 }.raise .invalidLength)
      ∨ (s.status.cfgok = true ∧ 16 ≤ s.depth.toNat ∧ 32 ≤ s.units
          ∧ s.decodedLength ≤ s.cap.toNat ∧ s.decodedLength ≤ s.params.msgBytes
          ∧ t = { s with
              plen := BitVec.ofNat 32 s.decodedLength
              msg := s.msg.writeBytes 0 (s.decodedBytes s.decodedLength)
              spos := BitVec.ofNat 32 (32 + 8 * s.decodedLength) }.succeed) := by
  rcases checkSteg_next h with h | h | ⟨hc, hd, h⟩
  · exact .inl h
  · exact .inr (.inl h)
  · split at h
    · cases h; exact .inr (.inr (.inl ⟨hc, hd, ‹_›, rfl⟩))
    · obtain ⟨_, h⟩ := checkUnits_next h
      split at h
      · cases h; exact .inr (.inr (.inr (.inl ⟨hc, hd, by omega, ‹_›, rfl⟩)))
      · obtain ⟨_, h⟩ := checkUnits_next h
        obtain ⟨hm, hk⟩ := checkMsg_next h
        cases hk; exact .inr (.inr (.inr (.inr ⟨hc, hd, by omega, by omega, hm, rfl⟩)))

end Sys2Proof.Machine
end

