-- ==== Sys2Proof/Laws/Codec.lean ====
section
/-! SUPPORT. The row functions and the rows of the memories: lengths, and which bytes a row, or all rows,
can change. -/

namespace Sys2Proof.Machine

open Sys2Proof

/-! ### Lengths -/

@[simp] theorem Pixel.bytes_length (p : Pixel) : p.bytes.length = 4 := rfl

@[simp] theorem unpackRow_length (d : PixelDepth) (m : Masks) (W : Nat) (B : List Byte) :
    (unpackRow d m W B).length = W := by simp [unpackRow]

@[simp] theorem unpackRow_getElem (d : PixelDepth) (m : Masks) (W : Nat) (B : List Byte) (j : Nat)
    (h : j < (unpackRow d m W B).length) : (unpackRow d m W B)[j] = unpackPixel d m B j := by
  simp [unpackRow]

theorem unpackRow_getElem? (d : PixelDepth) (m : Masks) {W j : Nat} (B : List Byte) (h : j < W) :
    (unpackRow d m W B)[j]? = some (unpackPixel d m B j) := by
  rw [List.getElem?_eq_getElem (by simpa using h), unpackRow_getElem]

@[simp] theorem packPixel_length (d : PixelDepth) (m : Masks) (j : Nat) (p : Pixel) (B : List Byte) :
    (packPixel d m j p B).length = B.length := by
  cases d <;> simp [packPixel]
  split <;> simp

@[simp] theorem packPixels_length (d : PixelDepth) (m : Masks) (P : List Pixel) : ∀ (j : Nat)
    (B : List Byte), (packPixels d m j P B).length = B.length := by
  induction P with
  | nil => intros; rfl
  | cons p P ih => intro j B; rw [packPixels, ih, packPixel_length]

@[simp] theorem packRow_length (d : PixelDepth) (m : Masks) (stride : Nat) (P : List Pixel) :
    (packRow d m stride P).length = stride := by simp [packRow]

theorem flatMap_bytes_length (P : List Pixel) : (P.flatMap Pixel.bytes).length = 4 * P.length := by
  simp [List.length_flatMap, Nat.mul_comm]

theorem flatMap_bytes_getElem? (P : List Pixel) : ∀ {j n : Nat}, n < 4 →
    (P.flatMap Pixel.bytes)[4 * j + n]? = (P[j]?).bind fun p => p.bytes[n]? := by
  induction P with
  | nil => intros; simp
  | cons p P ih =>
    intro j n hn
    rw [List.flatMap_cons]
    cases j with
    | zero => rw [List.getElem?_append_left (by simpa using hn)]; simp
    | succ j =>
      rw [List.getElem?_append_right (by simp; omega), Pixel.bytes_length,
        show 4 * (j + 1) + n - 4 = 4 * j + n by omega, ih hn]
      simp

@[simp] theorem State.unpackedRow_length (s : State) (d : PixelDepth) (i : Nat) :
    (s.unpackedRow d i).length = 4 * s.w := by
  rw [State.unpackedRow, flatMap_bytes_length, unpackRow_length]

@[simp] theorem State.gridRow_length (s : State) (i : Nat) : (s.gridRow i).length = s.w := by
  simp [State.gridRow]

@[simp] theorem State.packedRow_length (s : State) (i : Nat) :
    (s.packedRow i).length = s.rowbytes.toNat := by simp [State.packedRow]

theorem State.packedRow_eq (s : State) (i : Nat) : s.packedRow i =
    (List.range s.rowbytes.toNat).map fun n => s.byte .pbuf (i * s.stride.toNat + n) := by
  simp [State.packedRow, Memory.bytesAt, packedAddr, State.byte, State.mem]

/-! ### One row of GRID -/

theorem State.byteAt_unpackInto_outside (s : State) (d : PixelDepth) (g : Memory) {i a : Nat}
    (h : a < 4 * (i * s.w) ∨ 4 * (i * s.w + s.w) ≤ a) :
    (s.unpackInto d g i).byteAt .grid a = g.byteAt .grid a := by
  refine Memory.byteAt_writeBytes_outside _ _ ?_
  rw [State.unpackedRow_length, gridAddr]
  omega

/-- Byte `n` of pixel `c` of the row just unpacked. -/
theorem State.byteAt_unpackInto_inside (s : State) (d : PixelDepth) (g : Memory) (i : Nat) {c n : Nat}
    (hc : c < s.w) (hn : n < 4) :
    some ((s.unpackInto d g i).byteAt .grid (gridAddr s.w i c + n))
      = (unpackPixel d s.masks (s.packedRow i) c).bytes[n]? := by
  have hlt : 4 * c + n < (s.unpackedRow d i).length := by rw [State.unpackedRow_length]; omega
  have h1 := Memory.byteAt_writeBytes_inside g .grid (gridAddr s.w i 0) hlt
  have h2 : gridAddr s.w i 0 + (4 * c + n) = gridAddr s.w i c + n := by unfold gridAddr; omega
  rw [h2] at h1
  rw [State.unpackInto, h1, ← List.getElem?_eq_getElem hlt, State.unpackedRow,
    flatMap_bytes_getElem? _ hn, unpackRow_getElem? _ _ _ hc]
  rfl

theorem State.wf_unpackInto (s : State) (d : PixelDepth) {g : Memory} (i : Nat) (h : g.wf = true) :
    (s.unpackInto d g i).wf = true := Memory.wf_writeBytes _ _ h

theorem State.below_unpackInto (s : State) (d : PixelDepth) {g : Memory} {i n : Nat}
    (h : g.below (4 * n) = true) (hn : (i + 1) * s.w ≤ n) :
    (s.unpackInto d g i).below (4 * n) = true := by
  refine Memory.below_writeBytes _ h ?_
  rw [State.unpackedRow_length, gridAddr]
  rw [Nat.succ_mul] at hn
  omega

/-! ### All rows of GRID -/

theorem State.byteAt_unpackRows_outside (s : State) (d : PixelDepth) (n : Nat) {a : Nat}
    (h : 4 * (n * s.w) ≤ a) : (s.unpackRows d n).byteAt .grid a = s.byte .grid a := by
  induction n with
  | zero => rfl
  | succ n ih =>
    rw [Nat.succ_mul n] at h
    rw [State.unpackRows, State.byteAt_unpackInto_outside s d _ (Or.inr h), ih (by omega)]

/-- Byte `n` of pixel (i, c) after rows 0 .. rows-1 are unpacked. -/
theorem State.byteAt_unpackRows_inside (s : State) (d : PixelDepth) (rows : Nat) {i c n : Nat}
    (hi : i < rows) (hc : c < s.w) (hn : n < 4) :
    some ((s.unpackRows d rows).byteAt .grid (gridAddr s.w i c + n))
      = (unpackPixel d s.masks (s.packedRow i) c).bytes[n]? := by
  induction rows with
  | zero => omega
  | succ rows ih =>
    by_cases h : i = rows
    · subst h; exact State.byteAt_unpackInto_inside s d _ i hc hn
    · have hlt : i < rows := by omega
      have hmul : (i + 1) * s.w ≤ rows * s.w := Nat.mul_le_mul_right _ hlt
      rw [Nat.succ_mul] at hmul
      rw [State.unpackRows, State.byteAt_unpackInto_outside s d _ (Or.inl (by unfold gridAddr; omega)),
        ih hlt]

theorem State.wf_unpackRows (s : State) (d : PixelDepth) (n : Nat) (h : s.grid.wf = true) :
    (s.unpackRows d n).wf = true := by
  induction n with
  | zero => exact h
  | succ n ih => exact State.wf_unpackInto s d n ih

theorem State.below_unpackRows (s : State) (d : PixelDepth) {n k : Nat}
    (h : s.grid.below (4 * k) = true) (hk : n * s.w ≤ k) :
    (s.unpackRows d n).below (4 * k) = true := by
  induction n with
  | zero => exact h
  | succ n ih =>
    refine State.below_unpackInto s d (ih ?_) hk
    rw [Nat.succ_mul] at hk; omega

/-! ### One row and all rows of PBUF -/

theorem State.byteAt_packInto_outside (s : State) (d : PixelDepth) (b : Memory) {i a : Nat}
    (h : a < i * s.stride.toNat ∨ (i + 1) * s.stride.toNat ≤ a) :
    (s.packInto d b i).byteAt .pbuf a = b.byteAt .pbuf a := by
  refine Memory.byteAt_writeBytes_outside _ _ ?_
  rw [packRow_length, packedAddr]
  rw [Nat.succ_mul] at h
  omega

theorem State.byteAt_packInto_inside (s : State) (d : PixelDepth) (b : Memory) (i : Nat) {n : Nat}
    (hn : n < s.stride.toNat) : (s.packInto d b i).byteAt .pbuf (i * s.stride.toNat + n)
      = (packRow d s.masks s.stride.toNat (s.gridRow i)).getD n 0 := by
  have hlt : n < (packRow d s.masks s.stride.toNat (s.gridRow i)).length := by simpa using hn
  rw [List.getD_eq_getElem _ _ hlt]
  exact Memory.byteAt_writeBytes_inside b .pbuf _ hlt

theorem State.wf_packInto (s : State) (d : PixelDepth) {b : Memory} (i : Nat) (h : b.wf = true) :
    (s.packInto d b i).wf = true := Memory.wf_writeBytes _ _ h

theorem State.below_packInto (s : State) (d : PixelDepth) {b : Memory} {i n : Nat}
    (h : b.below n = true) (hn : (i + 1) * s.stride.toNat ≤ n) :
    (s.packInto d b i).below n = true := by
  refine Memory.below_writeBytes _ h ?_
  rw [packRow_length, packedAddr]
  rw [Nat.succ_mul] at hn
  omega

theorem State.byteAt_packRows_outside (s : State) (d : PixelDepth) (n : Nat) {a : Nat}
    (h : n * s.stride.toNat ≤ a) : (s.packRows d n).byteAt .pbuf a = s.byte .pbuf a := by
  induction n with
  | zero => rfl
  | succ n ih =>
    have h' := h
    rw [Nat.succ_mul] at h'
    rw [State.packRows, State.byteAt_packInto_outside s d _ (Or.inr h), ih (by omega)]

theorem State.byteAt_packRows_inside (s : State) (d : PixelDepth) (rows : Nat) {i n : Nat}
    (hi : i < rows) (hn : n < s.stride.toNat) :
    (s.packRows d rows).byteAt .pbuf (i * s.stride.toNat + n)
      = (packRow d s.masks s.stride.toNat (s.gridRow i)).getD n 0 := by
  induction rows with
  | zero => omega
  | succ rows ih =>
    by_cases h : i = rows
    · subst h; exact State.byteAt_packInto_inside s d _ i hn
    · have hlt : i < rows := by omega
      have hmul : (i + 1) * s.stride.toNat ≤ rows * s.stride.toNat := Nat.mul_le_mul_right _ hlt
      rw [Nat.succ_mul] at hmul
      rw [State.packRows, State.byteAt_packInto_outside s d _ (Or.inl (by omega)), ih hlt]

theorem State.wf_packRows (s : State) (d : PixelDepth) (n : Nat) (h : s.pbuf.wf = true) :
    (s.packRows d n).wf = true := by
  induction n with
  | zero => exact h
  | succ n ih => exact State.wf_packInto s d n ih

theorem State.below_packRows (s : State) (d : PixelDepth) {n k : Nat} (h : s.pbuf.below k = true)
    (hk : n * s.stride.toNat ≤ k) : (s.packRows d n).below k = true := by
  induction n with
  | zero => exact h
  | succ n ih =>
    refine State.below_packInto s d (ih ?_) hk
    rw [Nat.succ_mul] at hk; omega

/-! ### The meanings on a framed engine -/

theorem execUnpackr_eq {s : State} {d : PixelDepth} (hf : s.FramedAs d) (hr : s.row.toNat < s.h) :
    execUnpackr s = .next
      { s with grid := s.unpackInto d s.grid s.row.toNat, status := Status.good true } := by
  rw [execUnpackr, checkFramed_of_cfgok hf.cfgok, if_neg (by omega), hf.checkCodec_eq hr,
    State.succeed, Status.succeeded_eq hf.cfgok]

theorem execPackr_eq {s : State} {d : PixelDepth} (hf : s.FramedAs d) (hr : s.row.toNat < s.h) :
    execPackr s = .next
      { s with pbuf := s.packInto d s.pbuf s.row.toNat, status := Status.good true } := by
  rw [execPackr, checkFramed_of_cfgok hf.cfgok, if_neg (by omega), hf.checkCodec_eq hr,
    State.succeed, Status.succeeded_eq hf.cfgok]

theorem execUnpack_eq {s : State} {d : PixelDepth} (hf : s.FramedAs d) : execUnpack s = .next
    { s with grid := s.unpackRows d s.h, status := Status.good true } := by
  rw [execUnpack, checkFramed_of_cfgok hf.cfgok, hf.checkCodec_eq le_rfl, State.succeed,
    Status.succeeded_eq hf.cfgok]

theorem execPack_eq {s : State} {d : PixelDepth} (hf : s.FramedAs d) : execPack s = .next
    { s with pbuf := s.packRows d s.h, status := Status.good true } := by
  rw [execPack, checkFramed_of_cfgok hf.cfgok, hf.checkCodec_eq le_rfl, State.succeed,
    Status.succeeded_eq hf.cfgok]

end Sys2Proof.Machine
end

