-- ==== Sys2Proof/Laws/Host.lean ====
section
/-! SUPPORT. The host's accesses: offsets and registers, what each access answers at an idle and at a busy
engine, the words of STATUS and CTRL, and what a reset can change in the memories. -/

namespace Sys2Proof.Machine

open Sys2Proof

/-! ### Offsets -/

@[simp] theorem Reg.ofOffset_offset (r : Reg) : Reg.ofOffset r.offset = some r := by cases r <;> rfl

theorem Reg.offset_of_ofOffset {o : Nat} {r : Reg} (h : Reg.ofOffset o = some r) : o = r.offset := by
  unfold Reg.ofOffset at h
  split at h <;> first | (cases h; rfl) | cases h

@[simp] theorem windowViolation_offset (r : Reg) : windowViolation r.offset .word = none := by
  cases r <;> rfl

theorem windowViolation_of_aligned {o : Nat} (h : o % 4 = 0) (hlt : o < 256) :
    windowViolation o .word = none := by simp [windowViolation, h, hlt]

/-- An access outside the host contract on the window is refused, whatever BUSY is. -/
theorem windowViolation_of_bad {o : Nat} {w : AccessWidth} (h : w ≠ .word ∨ o % 4 ≠ 0 ∨ 256 ≤ o) :
    ∃ r, windowViolation o w = some r := by
  unfold windowViolation
  split
  · exact ⟨_, rfl⟩
  · rename_i hw
    rcases h with h | h | h
    · exact absurd h hw
    · rw [if_pos h]; exact ⟨_, rfl⟩
    · split <;> exact ⟨_, rfl⟩

@[simp] theorem State.readOffset_offset (s : State) (r : Reg) : s.readOffset r.offset = s.readReg r := by
  simp [State.readOffset]

@[simp] theorem State.writeOffset_offset (s : State) (r : Reg) (v : Word) :
    s.writeOffset r.offset v = s.writeReg r v := by simp [State.writeOffset]

/-! ### The access at an idle engine -/

theorem hostStep_writeReg {s : State} (h : s.status.busy = false) (r : Reg) (v : Word) :
    hostStep (.writeReg r.offset .word v) s = .next (s.writeReg r v) := by
  simp [hostStep, h]

theorem hostStep_readReg {s : State} (h : s.status.busy = false) {o : Nat} (ho : o % 4 = 0)
    (hlt : o < 256) :
    hostStep (.readReg o .word) s = .next { s with busData := .word (s.readOffset o) } := by
  simp [hostStep, h, windowViolation_of_aligned ho hlt]

theorem hostStep_readMem {s : State} (h : s.status.busy = false) {sp : Space} {o n : Nat}
    (hle : o + n ≤ s.params.size sp) :
    hostStep (.readMem sp o n) s = .next { s with busData := .bytes ((s.mem sp).bytesAt sp o n) } := by
  simp [hostStep, h, Nat.not_lt.2 hle]

theorem hostStep_writeMem {s : State} (h : s.status.busy = false) {sp : Space} {o : Nat}
    {bs : List Byte} (hle : o + bs.length ≤ s.params.size sp) :
    hostStep (.writeMem sp o bs) s = .next (s.setMem sp ((s.mem sp).writeBytes o bs)) := by
  simp [hostStep, h, Nat.not_lt.2 hle]

/-! ### What one host access can lead to -/

/-- A host access that is not refused resets, records a read, writes a register or writes bytes. -/
theorem hostStep_next {a : HostAccess} {s t : State} (h : hostStep a s = .next t) :
    (a = .reset ∧ t = s.assertReset)
      ∨ (∃ d, t = { s with busData := d })
      ∨ (s.status.busy = false ∧ ∃ r v, t = s.writeReg r v)
      ∨ (s.status.busy = false ∧ t = s)
      ∨ (s.status.busy = false ∧ ∃ sp o bs, o + List.length bs ≤ s.params.size sp
          ∧ t = s.setMem sp ((s.mem sp).writeBytes o bs)) := by
  cases a with
  | reset => cases h; exact .inl ⟨rfl, rfl⟩
  | readReg o w =>
    simp only [hostStep] at h
    split at h
    · cases h
    · split at h
      · cases h
      · cases h; exact .inr (.inl ⟨_, rfl⟩)
  | writeReg o w v =>
    simp only [hostStep] at h
    split at h
    · cases h
    · split at h
      · cases h
      · rename_i hb
        cases h
        rw [State.writeOffset]
        cases Reg.ofOffset o with
        | none => exact .inr (.inr (.inr (.inl ⟨by simpa using hb, rfl⟩)))
        | some r => exact .inr (.inr (.inl ⟨by simpa using hb, r, v, rfl⟩))
  | readMem sp o n =>
    simp only [hostStep] at h
    split at h
    · cases h
    · split at h
      · cases h
      · cases h; exact .inr (.inl ⟨_, rfl⟩)
  | writeMem sp o bs =>
    simp only [hostStep] at h
    split at h
    · cases h
    · split at h
      · cases h
      · rename_i hle hb
        cases h
        exact .inr (.inr (.inr (.inr ⟨by simpa using hb, sp, o, bs, by omega, rfl⟩)))

/-- A host access never faults. -/
theorem hostStep_ne_fault (a : HostAccess) (s : State) (r : Fault) : hostStep a s ≠ .fault r := by
  intro h
  cases a <;> simp only [hostStep] at h
  case reset => cases h
  all_goals
    split at h
    · cases h
    · split at h <;> cases h

/-! ### Words -/

theorem ctrlWord_eq (v : Word) : ctrlWord (v.getLsbD 0) = v &&& 1 := by
  rw [show (1 : Word) = 1#32 from rfl, BitVec.and_one_eq_setWidth_ofBool_getLsbD]
  cases v.getLsbD 0 <;> rfl

theorem depth_readback (v : Word) : (v.setWidth 16).setWidth 32 = v &&& 0x0000FFFF := by
  refine BitVec.eq_of_getLsbD_eq fun i hi => ?_
  interval_cases i <;> simp

/-- Clearing DONE clears bit 1 of the word. -/
theorem Status.toWord_clear_done (t : Status) :
    { t with done := false }.toWord = t.toWord &&& 0xFFFFFFFD := by
  obtain ⟨b, d, e, c, code⟩ := t
  cases b <;> cases d <;> cases e <;> cases c <;> (revert code; decide)

@[simp] theorem Status.reset_toWord : Status.reset.toWord = 0 := by decide

@[simp] theorem ctrlWord_false : ctrlWord false = 0 := by decide

/-! ### Reset and the memories -/

theorem mem_span {sp sp' : Space} {a n x : Nat} :
    (sp', x) ∈ span sp a n ↔ sp' = sp ∧ a ≤ x ∧ x < a + n := by
  simp only [span, List.mem_map, List.mem_range, Prod.mk.injEq]
  constructor
  · rintro ⟨i, hi, rfl, rfl⟩; exact ⟨rfl, by omega, by omega⟩
  · rintro ⟨rfl, h1, h2⟩; exact ⟨x - a, by omega, rfl, by omega⟩

/-- Forgetting bytes keeps every byte not among them. -/
theorem State.byte_forgetAll (l : List (Space × Nat)) : ∀ (s : State) {sp : Space} {a : Nat},
    (sp, a) ∉ l → (State.forgetAll l s).byte sp a = s.byte sp a := by
  induction l with
  | nil => intros; rfl
  | cons c l ih =>
    obtain ⟨sp', a'⟩ := c
    intro s sp a h
    simp only [List.mem_cons, not_or] at h
    rw [State.forgetAll, ih _ h.2, State.forget]
    split
    · by_cases hs : sp = sp'
      · subst hs
        have hne : a ≠ a' := fun e => h.1 (by rw [e])
        cases sp <;> exact Memory.byteAt_write_ne _ _ _ hne
      · cases sp <;> cases sp' <;> first | rfl | exact absurd rfl hs
    · rfl

theorem State.memOk_forget {s : State} (h : s.memOk) (sp : Space) (a : Nat) : (s.forget sp a).memOk := by
  obtain ⟨h1, h2, h3, h4, h5, h6⟩ := h
  unfold State.forget
  split
  · rename_i hlt
    cases sp
    · exact ⟨Memory.wf_write h1 _ _, h2, h3, Memory.below_write h4 hlt _, h5, h6⟩
    · exact ⟨h1, Memory.wf_write h2 _ _, h3, h4, Memory.below_write h5 hlt _, h6⟩
    · exact ⟨h1, h2, Memory.wf_write h3 _ _, h4, h5, Memory.below_write h6 hlt _⟩
  · exact ⟨h1, h2, h3, h4, h5, h6⟩

theorem State.memOk_forgetAll (l : List (Space × Nat)) : ∀ {s : State}, s.memOk →
    (State.forgetAll l s).memOk := by
  induction l with
  | nil => intro s h; exact h
  | cons c l ih => intro s h; exact ih (State.memOk_forget h _ _)

theorem State.memOk_setMem {s : State} (h : s.memOk) {sp : Space} {o : Nat} {bs : List Byte}
    (hle : o + bs.length ≤ s.params.size sp) :
    (s.setMem sp ((s.mem sp).writeBytes o bs)).memOk := by
  obtain ⟨h1, h2, h3, h4, h5, h6⟩ := h
  cases sp
  · exact ⟨Memory.wf_writeBytes _ _ h1, h2, h3, Memory.below_writeBytes _ h4 hle, h5, h6⟩
  · exact ⟨h1, Memory.wf_writeBytes _ _ h2, h3, h4, Memory.below_writeBytes _ h5 hle, h6⟩
  · exact ⟨h1, h2, Memory.wf_writeBytes _ _ h3, h4, h5, Memory.below_writeBytes _ h6 hle⟩

end Sys2Proof.Machine
end

