-- ==== Sys2Proof/Laws/Step.lean ====
section
/-! SUPPORT. One step of the machine: whose turn it is, and what it can lead to. -/

namespace Sys2Proof.Machine

open Sys2Proof

/-- An empty agenda gives the turn to the engine. -/
theorem step_nil {s : State} (h : s.agenda = []) : step s = engineStep s := by
  simp only [step, takeTurn, h]

theorem step_engine {s : State} {rest : List Turn} (h : s.agenda = .engine :: rest) :
    step s = engineStep { s with agenda := rest } := by simp only [step, takeTurn, h]

theorem step_host {s : State} {a : HostAccess} {rest : List Turn} (h : s.agenda = .host a :: rest) :
    step s = hostStep a { s with agenda := rest } := by simp only [step, takeTurn, h]

/-- Whenever the engine has the next turn the step is its turn, on the turns that are left. -/
theorem step_engineNext {s : State} {rest : List Turn} (h : s.EngineNext rest) :
    step s = engineStep { s with agenda := rest } := by
  obtain h | ⟨h, rfl⟩ := h
  · exact step_engine h
  · rw [step_nil h, ← h]

/-- Every step is one agent's turn, taken on a state that differs in the agenda only. -/
theorem step_cases (s : State) : ∃ l, step s = engineStep { s with agenda := l }
    ∨ ∃ a, step s = hostStep a { s with agenda := l } := by
  cases h : s.agenda with
  | nil => exact ⟨[], .inl (by rw [step_nil h, ← h])⟩
  | cons t rest =>
    cases t with
    | engine => exact ⟨rest, .inl (step_engine h)⟩
    | host a => exact ⟨rest, .inr ⟨a, step_host h⟩⟩

theorem engineStep_idle {s : State} (h : s.status.busy = false) : engineStep s = .next s := by
  simp [engineStep, h]

theorem engineStep_command {s : State} (h : s.status.busy = true) {i : Instr}
    (hd : decode s.pend = .ok i) : engineStep s = exec i s := by simp [engineStep, h, hd]

theorem engineStep_illegal {s : State} (h : s.status.busy = true) {e : DecodeError}
    (hd : decode s.pend = .error e) : engineStep s = .next (s.raise .illegalCommand) := by
  simp [engineStep, h, hd]

/-- The engine's turn is idle, or runs a command, or raises IllegalCommand. -/
theorem engineStep_next {s t : State} (h : engineStep s = .next t) :
    (s.status.busy = false ∧ t = s)
      ∨ (s.status.busy = true ∧ ∃ i, decode s.pend = .ok i ∧ exec i s = .next t)
      ∨ (s.status.busy = true ∧ t = s.raise .illegalCommand) := by
  unfold engineStep at h
  split at h
  · rename_i hb
    split at h
    · exact .inr (.inl ⟨hb, _, ‹_›, h⟩)
    · cases h; exact .inr (.inr ⟨hb, rfl⟩)
  · rename_i hb
    cases h; exact .inl ⟨Bool.eq_false_iff.2 hb, rfl⟩

end Sys2Proof.Machine
end

