-- ==== Sys2Proof/Laws/BitMask.lean ====
section
/-! SUPPORT. Bits of extracted and deposited fields, and runs of set bits. -/

namespace Sys2Proof.Machine

open Sys2Proof

/-- The trailing zero count is the place of a set bit below which no bit is set. -/
theorem tzc_eq {m : Word} {i : Nat} (h : m.getLsbD i = true) (hl : ∀ j, j < i → m.getLsbD j = false) :
    tzc m = i := by
  have hi : i < 32 := BitVec.lt_of_getLsbD h
  have e : (List.range 32).find? (fun i => m.getLsbD i) = some i := by
    rw [List.find?_range_eq_some]
    exact ⟨h, by simpa using hi, fun j hj => by simp [hl j hj]⟩
  simp [tzc, e]

/-- No bit below the trailing zero count is set. -/
theorem getLsbD_of_lt_tzc {m : Word} {j : Nat} (h : j < tzc m) : m.getLsbD j = false := by
  unfold tzc at h
  cases e : (List.range 32).find? (fun i => m.getLsbD i) with
  | none => simp [e] at h
  | some i =>
    rw [e, Option.getD_some] at h
    rw [List.find?_range_eq_some] at e
    simpa using e.2.2 j h

theorem extract_getLsbD (v m : Word) (i : Nat) :
    (extract v m).getLsbD i = (v.getLsbD (tzc m + i) && m.getLsbD (tzc m + i)) := by
  simp [extract, BitVec.getLsbD_ushiftRight]

theorem deposit_getLsbD (c m : Word) (i : Nat) :
    (deposit c m).getLsbD i = (decide (i < 32) && !decide (i < tzc m) && c.getLsbD (i - tzc m)) := by
  simp [deposit, BitVec.getLsbD_shiftLeft]

theorem getLsbD_of_toNat_lt {n w i : Nat} {c : BitVec w} (hc : c.toNat < 2 ^ n) (hi : n ≤ i) :
    c.getLsbD i = false :=
  Nat.testBit_eq_false_of_lt (hc.trans_le (Nat.pow_le_pow_right (by omega) hi))

/-! ### Runs -/

/-- The set bits of a run are those from its start on, as many as its length. -/
theorem IsRun.getLsbD {m : Word} {n start : Nat} (h : IsRun m n start) (i : Nat) :
    m.getLsbD i = decide (start ≤ i ∧ i < start + n) := by
  show m.toNat.testBit i = _
  rw [h.2.2, Nat.testBit_mul_two_pow, Nat.testBit_two_pow_sub_one]
  rw [← Bool.decide_and]
  exact decide_eq_decide.2 (by omega)

theorem IsRun.tzc_eq {m : Word} {n start : Nat} (h : IsRun m n start) : tzc m = start := by
  have h1 := h.1
  refine Machine.tzc_eq ?_ fun j hj => ?_ <;> rw [h.getLsbD]
  · simp; omega
  · simp; omega

theorem IsRun.extract_getLsbD {m : Word} {n start : Nat} (h : IsRun m n start) (v : Word) (i : Nat) :
    (extract v m).getLsbD i = (v.getLsbD (start + i) && decide (i < n)) := by
  rw [Machine.extract_getLsbD, h.tzc_eq, h.getLsbD]
  congr 1
  exact decide_eq_decide.2 (by omega)

/-- Depositing a value that fits puts bit `i` of the value at bit `start + i`. -/
theorem IsRun.deposit_getLsbD {m : Word} {n start : Nat} (h : IsRun m n start) {c : Word}
    (hc : c.toNat < 2 ^ n) (i : Nat) :
    (deposit c m).getLsbD i = (c.getLsbD (i - start) && m.getLsbD i) := by
  have h2 := h.2.1
  rw [Machine.deposit_getLsbD, h.tzc_eq, h.getLsbD]
  by_cases h3 : start ≤ i ∧ i < start + n
  · have e1 : i < 32 := by omega
    have e2 : ¬ i < start := by omega
    simp [h3, e1]
  · rw [decide_eq_false h3]
    by_cases h4 : start ≤ i
    · rw [getLsbD_of_toNat_lt hc (by omega)]; simp
    · simp; omega

/-- The largest value a run's field holds. -/
theorem IsRun.extract_self {m : Word} {n start : Nat} (h : IsRun m n start) :
    (extract m m).toNat = 2 ^ n - 1 := by
  rw [extract, BitVec.and_self, BitVec.toNat_ushiftRight, h.tzc_eq, h.2.2, Nat.shiftRight_eq_div_pow,
    Nat.mul_div_cancel _ (Nat.two_pow_pos _)]

end Sys2Proof.Machine
end

