-- ==== Sys2Proof/Laws/Pixel.lean ====
section
/-! SUPPORT. The bytes and bits of packed rows: what each depth's pack rule puts where. -/

namespace Sys2Proof.Machine

open Sys2Proof

/-! ### Numbers of little-endian words -/

theorem le16_toNat (lo hi : Byte) : (le16 lo hi).toNat = lo.toNat + 2 ^ 8 * hi.toNat := by
  simp only [le16, BitVec.toNat_append]
  rw [← Nat.shiftLeft_add_eq_or_of_lt lo.isLt, Nat.shiftLeft_eq]
  omega

theorem le32_toNat (b0 b1 b2 b3 : Byte) : (le32 b0 b1 b2 b3).toNat
    = b0.toNat + 2 ^ 8 * b1.toNat + 2 ^ 16 * b2.toNat + 2 ^ 24 * b3.toNat := by
  simp only [le32, BitVec.toNat_append]
  rw [← Nat.shiftLeft_add_eq_or_of_lt b2.isLt, ← Nat.shiftLeft_add_eq_or_of_lt b1.isLt,
    ← Nat.shiftLeft_add_eq_or_of_lt b0.isLt]
  simp only [Nat.shiftLeft_eq]
  omega

/-- A word is its bytes, little-endian. -/
theorem le16_bytes (w : BitVec 16) : le16 (byte0 w) (byte1 w) = w := by
  refine BitVec.eq_of_toNat_eq ?_
  rw [le16_toNat]
  simp only [byte0, byte1, BitVec.extractLsb'_toNat, Nat.shiftRight_eq_div_pow]
  have := w.isLt
  omega

theorem le32_bytes (w : Word) : le32 (byte0 w) (byte1 w) (byte2 w) (byte3 w) = w := by
  refine BitVec.eq_of_toNat_eq ?_
  rw [le32_toNat]
  simp only [byte0, byte1, byte2, byte3, BitVec.extractLsb'_toNat, Nat.shiftRight_eq_div_pow]
  have := w.isLt
  omega

/-- The bytes of a little-endian word are its bytes. -/
theorem bytes_le16 (lo hi : Byte) : byte0 (le16 lo hi) = lo ∧ byte1 (le16 lo hi) = hi := by
  have h1 := lo.isLt
  have h2 := hi.isLt
  constructor <;> refine BitVec.eq_of_toNat_eq ?_ <;>
    simp only [byte0, byte1, BitVec.extractLsb'_toNat, Nat.shiftRight_eq_div_pow, le16_toNat] <;> omega

theorem bytes_le32 (b0 b1 b2 b3 : Byte) : byte0 (le32 b0 b1 b2 b3) = b0
    ∧ byte1 (le32 b0 b1 b2 b3) = b1 ∧ byte2 (le32 b0 b1 b2 b3) = b2 ∧ byte3 (le32 b0 b1 b2 b3) = b3 := by
  have h0 := b0.isLt
  have h1 := b1.isLt
  have h2 := b2.isLt
  have h3 := b3.isLt
  refine ⟨?_, ?_, ?_, ?_⟩ <;> refine BitVec.eq_of_toNat_eq ?_ <;>
    simp only [byte0, byte1, byte2, byte3, BitVec.extractLsb'_toNat, Nat.shiftRight_eq_div_pow,
      le32_toNat] <;> omega

/-! ### Depths of whole bytes -/

theorem getD_set_eq (B : List Byte) {n : Nat} (v : Byte) (h : n < B.length) :
    (B.set n v).getD n 0 = v := by
  rw [List.getD_eq_getElem?_getD, List.getElem?_set_self h, Option.getD_some]

theorem getD_set_ne (B : List Byte) {n i : Nat} (v : Byte) (h : n ≠ i) :
    (B.set i v).getD n 0 = B.getD n 0 := by
  rw [List.getD_eq_getElem?_getD, List.getElem?_set_ne (Ne.symm h), ← List.getD_eq_getElem?_getD]

/-- The bytes of a pixel at the depths of whole bytes. -/
def pixelByte (d : PixelDepth) (m : Masks) (p : Pixel) (r : Nat) : Byte :=
  match d with
  | .d1 | .d4 => 0
  | .d8 => p.x
  | .d16 => if r = 0 then byte0 (packWord16 m p) else byte1 (packWord16 m p)
  | .d24 => if r = 0 then p.b else if r = 1 then p.g else p.r
  | .d32 =>
    if r = 0 then byte0 (packWord32 m p) else if r = 1 then byte1 (packWord32 m p)
    else if r = 2 then byte2 (packWord32 m p) else byte3 (packWord32 m p)

theorem packPixel_inside (d : PixelDepth) (m : Masks) {k : Nat} (hk : d.bits = 8 * k) (j : Nat)
    (p : Pixel) (B : List Byte) {r : Nat} (hr : r < k) (hlt : k * j + r < B.length) :
    (packPixel d m j p B).getD (k * j + r) 0 = pixelByte d m p r := by
  cases d with
  | d1 => simp only [PixelDepth.bits] at hk; omega
  | d4 => simp only [PixelDepth.bits] at hk; omega
  | d8 =>
    obtain rfl : k = 1 := by simp only [PixelDepth.bits] at hk; omega
    obtain rfl : r = 0 := by omega
    simp only [Nat.one_mul, Nat.add_zero] at hlt ⊢
    exact getD_set_eq _ _ hlt
  | d16 =>
    obtain rfl : k = 2 := by simp only [PixelDepth.bits] at hk; omega
    simp only [packPixel, pixelByte]
    obtain rfl | rfl : r = 0 ∨ r = 1 := by omega
    · rw [getD_set_ne _ _ (by omega)]; exact getD_set_eq _ _ (by omega)
    · exact getD_set_eq _ _ (by simpa using hlt)
  | d24 =>
    obtain rfl : k = 3 := by simp only [PixelDepth.bits] at hk; omega
    simp only [packPixel, pixelByte]
    obtain rfl | rfl | rfl : r = 0 ∨ r = 1 ∨ r = 2 := by omega
    · rw [getD_set_ne _ _ (by omega), getD_set_ne _ _ (by omega)]; exact getD_set_eq _ _ (by omega)
    · rw [getD_set_ne _ _ (by omega)]; exact getD_set_eq _ _ (by simpa using hlt)
    · exact getD_set_eq _ _ (by simpa using hlt)
  | d32 =>
    obtain rfl : k = 4 := by simp only [PixelDepth.bits] at hk; omega
    simp only [packPixel, pixelByte]
    obtain rfl | rfl | rfl | rfl : r = 0 ∨ r = 1 ∨ r = 2 ∨ r = 3 := by omega
    · rw [getD_set_ne _ _ (by omega), getD_set_ne _ _ (by omega), getD_set_ne _ _ (by omega)]
      exact getD_set_eq _ _ (by omega)
    · rw [getD_set_ne _ _ (by omega), getD_set_ne _ _ (by omega)]
      exact getD_set_eq _ _ (by simpa using hlt)
    · rw [getD_set_ne _ _ (by omega)]; exact getD_set_eq _ _ (by simpa using hlt)
    · exact getD_set_eq _ _ (by simpa using hlt)

theorem packPixel_outside (d : PixelDepth) (m : Masks) {k : Nat} (hk : d.bits = 8 * k) (j : Nat)
    (p : Pixel) (B : List Byte) {n : Nat} (h : n < k * j ∨ k * j + k ≤ n) :
    (packPixel d m j p B).getD n 0 = B.getD n 0 := by
  cases d with
  | d1 => simp only [PixelDepth.bits] at hk; omega
  | d4 => simp only [PixelDepth.bits] at hk; omega
  | d8 =>
    obtain rfl : k = 1 := by simp only [PixelDepth.bits] at hk; omega
    exact getD_set_ne _ _ (by omega)
  | d16 =>
    obtain rfl : k = 2 := by simp only [PixelDepth.bits] at hk; omega
    simp only [packPixel]
    rw [getD_set_ne _ _ (by omega), getD_set_ne _ _ (by omega)]
  | d24 =>
    obtain rfl : k = 3 := by simp only [PixelDepth.bits] at hk; omega
    simp only [packPixel]
    rw [getD_set_ne _ _ (by omega), getD_set_ne _ _ (by omega), getD_set_ne _ _ (by omega)]
  | d32 =>
    obtain rfl : k = 4 := by simp only [PixelDepth.bits] at hk; omega
    simp only [packPixel]
    rw [getD_set_ne _ _ (by omega), getD_set_ne _ _ (by omega), getD_set_ne _ _ (by omega),
      getD_set_ne _ _ (by omega)]

theorem packPixels_outside (d : PixelDepth) (m : Masks) {k : Nat} (hk : d.bits = 8 * k)
    (P : List Pixel) : ∀ (j : Nat) (B : List Byte) {n : Nat},
    (n < k * j ∨ k * (j + P.length) ≤ n) →
    (packPixels d m j P B).getD n 0 = B.getD n 0 := by
  induction P with
  | nil => intros; rfl
  | cons p P ih =>
    intro j B n h
    rw [List.length_cons, Nat.mul_add, Nat.mul_succ] at h
    rw [packPixels, ih _ _ (by simp only [Nat.mul_add, Nat.mul_one]; omega),
      packPixel_outside d m hk _ _ _ (by omega)]

/-- Byte `r` of pixel `i`. -/
theorem packPixels_inside (d : PixelDepth) (m : Masks) {k : Nat} (hk : d.bits = 8 * k)
    (P : List Pixel) : ∀ (j : Nat) (B : List Byte) {i r : Nat} {p : Pixel}, P[i]? = some p → r < k →
    k * (j + i) + r < B.length →
    (packPixels d m j P B).getD (k * (j + i) + r) 0 = pixelByte d m p r := by
  induction P with
  | nil => intro j B i r p h; simp at h
  | cons q P ih =>
    intro j B i r p h hr hlt
    rw [packPixels]
    cases i with
    | zero =>
      obtain rfl : q = p := by simpa using h
      simp only [Nat.add_zero] at hlt ⊢
      rw [packPixels_outside d m hk _ _ _ (by rw [Nat.mul_succ]; omega),
        packPixel_inside d m hk _ _ _ hr hlt]
    | succ i =>
      have hlt' : k * (j + 1 + i) + r < (packPixel d m j q B).length := by
        rw [packPixel_length, Nat.add_right_comm]; exact hlt
      have := ih (j + 1) (packPixel d m j q B) (by simpa using h) hr hlt'
      rwa [Nat.add_right_comm j 1 i] at this

@[simp] theorem getD_replicate_zero (n i : Nat) : (List.replicate n (0 : Byte)).getD i 0 = 0 := by
  rw [List.getD_eq_getElem?_getD, List.getElem?_replicate]
  split <;> rfl

/-- Byte `r` of pixel `i` of a packed row. -/
theorem packRow_inside (d : PixelDepth) (m : Masks) {k : Nat} (hk : d.bits = 8 * k) {P : List Pixel}
    {stride i r : Nat} {p : Pixel} (h : P[i]? = some p) (hr : r < k)
    (hs : rowBytes P.length d.bits ≤ stride) :
    (packRow d m stride P).getD (k * i + r) 0 = pixelByte d m p r := by
  have hi : i < P.length := (List.getElem?_eq_some_iff.1 h).1
  have h1 : k * (i + 1) ≤ k * P.length := Nat.mul_le_mul_left _ hi
  have h2 : P.length * d.bits = 8 * (k * P.length) := by rw [hk, Nat.mul_comm, Nat.mul_assoc]
  rw [Nat.mul_add] at h1
  unfold rowBytes at hs
  have := packPixels_inside d m hk P 0 (List.replicate stride 0) h hr (by simp; omega)
  rwa [Nat.zero_add] at this

/-- Every byte of a packed row beyond its pixels is 0. -/
theorem packRow_beyond (d : PixelDepth) (m : Masks) {k : Nat} (hk : d.bits = 8 * k) (P : List Pixel)
    (stride : Nat) {n : Nat} (h : k * P.length ≤ n) : (packRow d m stride P).getD n 0 = 0 := by
  rw [packRow, packPixels_outside d m hk P 0 _ (by rw [Nat.zero_add]; exact Or.inr h),
    getD_replicate_zero]

/-! ### Depths 1 and 4, bit by bit -/

theorem getD_modify (B : List Byte) (i n : Nat) (f : Byte → Byte) (h : n < B.length) :
    (B.modify i f).getD n 0 = if n = i then f (B.getD n 0) else B.getD n 0 := by
  simp only [List.getD_eq_getElem?_getD, List.getElem?_modify, List.getElem?_eq_getElem h]
  by_cases hi : n = i
  · simp [hi]
  · simp [hi, Ne.symm hi]

theorem packPixel_d1_bit (m : Masks) (j : Nat) (p : Pixel) (B : List Byte) {n t : Nat} (ht : t < 8)
    (h : n < B.length) : ((packPixel .d1 m j p B).getD n 0).getLsbD (7 - t)
      = ((B.getD n 0).getLsbD (7 - t) || (decide (j = 8 * n + t) && p.x.getLsbD 0)) := by
  simp only [packPixel]
  rw [getD_modify _ _ _ _ h]
  by_cases hn : n = j / 8
  · rw [if_pos hn, BitVec.getLsbD_or]
    congr 1
    simp only [BitVec.getLsbD_shiftLeft, BitVec.getLsbD_and]
    rw [show (1 : Byte) = 1#8 from rfl, BitVec.getLsbD_one]
    by_cases he : j = 8 * n + t
    · have e : 7 - t - (7 - j % 8) = 0 := by omega
      have e2 : ¬ 7 - t < 7 - j % 8 := by omega
      have e3 : 7 - t < 8 := by omega
      rw [e]; simp [he, e3]; omega
    · by_cases hlt : 7 - t < 7 - j % 8
      · simp [he, hlt]
      · have e : ¬ 7 - t - (7 - j % 8) = 0 := by omega
        simp [he, e]
  · have he : ¬ j = 8 * n + t := by omega
    rw [if_neg hn]; simp [he]

/-- At depth 1, bit `7 - t` of byte `n` is bit 0 of pixel `8 * n + t`. -/
theorem packPixels_d1_bit (m : Masks) (P : List Pixel) : ∀ (j : Nat) (B : List Byte) {n t : Nat},
    t < 8 → n < B.length → ((packPixels .d1 m j P B).getD n 0).getLsbD (7 - t)
      = ((B.getD n 0).getLsbD (7 - t) || (decide (j ≤ 8 * n + t)
          && ((P[8 * n + t - j]?).map fun p => p.x.getLsbD 0).getD false)) := by
  induction P with
  | nil => intro j B n t _ _; simp [packPixels]
  | cons p P ih =>
    intro j B n t ht h
    rw [packPixels, ih _ _ ht (by simpa using h), packPixel_d1_bit m j p B ht h, Bool.or_assoc]
    congr 1
    rcases Nat.lt_trichotomy j (8 * n + t) with hlt | heq | hgt
    · have e : 8 * n + t - j = (8 * n + t - (j + 1)) + 1 := by omega
      rw [e, List.getElem?_cons_succ]
      have e1 : ¬ j = 8 * n + t := by omega
      have e2 : j + 1 ≤ 8 * n + t := by omega
      have e3 : j ≤ 8 * n + t := by omega
      simp [e1, e2, e3]
    · have e2 : ¬ j + 1 ≤ 8 * n + t := by omega
      have e3 : j ≤ 8 * n + t := by omega
      have e4 : 8 * n + t - j = 0 := by omega
      rw [e4]; simp [heq]
    · have e1 : ¬ j = 8 * n + t := by omega
      have e2 : ¬ j + 1 ≤ 8 * n + t := by omega
      have e3 : ¬ j ≤ 8 * n + t := by omega
      simp [e1, e2, e3]

theorem packPixel_d4_bit (m : Masks) (j : Nat) (p : Pixel) (B : List Byte) {n q u : Nat} (hq : q < 2)
    (hu : u < 4) (h : n < B.length) : ((packPixel .d4 m j p B).getD n 0).getLsbD (4 * (1 - q) + u)
      = ((B.getD n 0).getLsbD (4 * (1 - q) + u)
          || (decide (j = 2 * n + q) && p.x.getLsbD u)) := by
  have hF : ∀ i, (0x0F : Byte).getLsbD i = decide (i < 4) := by
    intro i
    by_cases hi : i < 8
    · interval_cases i <;> rfl
    · rw [BitVec.getLsbD_of_ge _ _ (by omega), decide_eq_false (by omega)]
  simp only [packPixel]
  split
  · rename_i hj
    rw [getD_modify _ _ _ _ h]
    by_cases hn : n = j / 2
    · rw [if_pos hn, BitVec.getLsbD_or]
      congr 1
      simp only [BitVec.getLsbD_shiftLeft, BitVec.getLsbD_and, hF]
      obtain rfl | rfl : q = 0 ∨ q = 1 := by omega
      · have e : j = 2 * n := by omega
        have e2 : 4 + u < 8 := by omega
        simp [e, e2, hu]
      · have e : ¬ j = 2 * n + 1 := by omega
        simp [e, hu]
    · have he : ¬ j = 2 * n + q := by omega
      rw [if_neg hn]; simp [he]
  · rename_i hj
    rw [getD_modify _ _ _ _ h]
    by_cases hn : n = j / 2
    · rw [if_pos hn, BitVec.getLsbD_or]
      congr 1
      simp only [BitVec.getLsbD_and, hF]
      obtain rfl | rfl : q = 0 ∨ q = 1 := by omega
      · have e : ¬ j = 2 * n + 0 := by omega
        have e2 : ¬ 4 * (1 - 0) + u < 4 := by omega
        simp [e2]; omega
      · have e : j = 2 * n + 1 := by omega
        simp [e, hu]
    · have he : ¬ j = 2 * n + q := by omega
      rw [if_neg hn]; simp [he]

/-- At depth 4, pixel `2 * n` is the high nibble of byte `n` and pixel `2 * n + 1` the low one. -/
theorem packPixels_d4_bit (m : Masks) (P : List Pixel) : ∀ (j : Nat) (B : List Byte) {n q u : Nat},
    q < 2 → u < 4 → n < B.length → ((packPixels .d4 m j P B).getD n 0).getLsbD (4 * (1 - q) + u)
      = ((B.getD n 0).getLsbD (4 * (1 - q) + u) || (decide (j ≤ 2 * n + q)
          && ((P[2 * n + q - j]?).map fun p => p.x.getLsbD u).getD false)) := by
  induction P with
  | nil => intro j B n q u _ _ _; simp [packPixels]
  | cons p P ih =>
    intro j B n q u hq hu h
    rw [packPixels, ih _ _ hq hu (by simpa using h), packPixel_d4_bit m j p B hq hu h, Bool.or_assoc]
    congr 1
    rcases Nat.lt_trichotomy j (2 * n + q) with hlt | heq | hgt
    · have e : 2 * n + q - j = (2 * n + q - (j + 1)) + 1 := by omega
      rw [e, List.getElem?_cons_succ]
      have e1 : ¬ j = 2 * n + q := by omega
      have e2 : j + 1 ≤ 2 * n + q := by omega
      have e3 : j ≤ 2 * n + q := by omega
      simp [e1, e2, e3]
    · have e4 : 2 * n + q - j = 0 := by omega
      rw [e4]; simp [heq]
    · have e1 : ¬ j = 2 * n + q := by omega
      have e2 : ¬ j + 1 ≤ 2 * n + q := by omega
      have e3 : ¬ j ≤ 2 * n + q := by omega
      simp [e1, e2, e3]

end Sys2Proof.Machine
end

