-- ==== Sys2Proof/Laws/Invariant.lean ====
section
/-! SUPPORT. How the parts of the invariant move along the small updates: other registers, STATUS, the
agenda. -/

namespace Sys2Proof.Machine

open Sys2Proof

/-- The frame depends on the configuration, the derived registers, CFGOK, SPOS and the sizes only. -/
theorem State.FramedAs.congr {s t : State} {d : PixelDepth} (hf : s.FramedAs d)
    (hp : t.params = s.params) (hw : t.width = s.width) (hh : t.height = s.height)
    (hd : t.depth = s.depth) (h1 : t.rowbytes = s.rowbytes) (h2 : t.pad = s.pad)
    (h3 : t.stride = s.stride) (h4 : t.imgsize = s.imgsize) (h5 : t.cap = s.cap)
    (hc : t.status.cfgok = true) (hs : t.spos.toNat ≤ t.units) : t.FramedAs d where
  cfgok := hc
  depth := by rw [hd]; exact hf.depth
  width_pos := by rw [State.w, hw]; exact hf.width_pos
  height_pos := by rw [State.h, hh]; exact hf.height_pos
  grid_fits := by rw [State.w, State.h, hw, hh, hp]; exact hf.grid_fits
  pbuf_fits := by rw [State.w, State.h, hw, hh, hp]; exact hf.pbuf_fits
  rowbytes := by rw [State.w, hw, h1]; exact hf.rowbytes
  pad := by rw [State.w, hw, h2]; exact hf.pad
  stride := by rw [State.w, hw, h3]; exact hf.stride
  imgsize := by rw [State.w, State.h, hw, hh, h4]; exact hf.imgsize
  cap := by rw [State.w, State.h, hw, hh, h5]; exact hf.cap
  spos := hs

/-- A state of the invariant with CFGOK = 1 is framed at some depth. -/
theorem State.Inv.framed {s : State} (hi : s.Inv) (hc : s.status.cfgok = true) :
    ∃ d, s.FramedAs d := by
  rcases hi.frame with hu | h
  · rw [hu.cfgok] at hc; cases hc
  · exact h

theorem Status.ok_succeeded (t : Status) : t.succeeded.Ok where
  busy := by intro h; cases h
  code := (by decide : (0 : BitVec 8) ∈ producedCodes)
  err := by simp [Status.succeeded]

theorem Status.ok_failed (t : Status) {c : BitVec 8} (h : c ∈ producedCodes) (h0 : c ≠ 0) :
    (t.failed c).Ok where
  busy := by intro h; cases h
  code := h
  err := by simpa [Status.failed] using h0

theorem Status.ok_issued (t : Status) : t.issued.Ok where
  busy := fun _ => ⟨rfl, rfl, rfl⟩
  code := (by decide : (0 : BitVec 8) ∈ producedCodes)
  err := by simp [Status.issued]

/-- The kinds the engine raises have codes a completion can leave. -/
theorem ErrorKind.code_produced {e : ErrorKind}
    (h : e ∈ [ErrorKind.invalidDimensions, .invalidDepth, .allocationFailure, .unsupportedDepth,
      .payloadTooLarge, .invalidLength, .illegalCommand, .notConfigured, .rowRange, .scanEnd]) :
    e.code ∈ producedCodes ∧ e.code ≠ 0 := by
  revert h; cases e <;> decide

end Sys2Proof.Machine
end

