-- ==== Sys2Proof/Laws/PerInstr.lean ====
section
/-! SUPPORT. Facts about every command as syntax, one lemma per constructor: its word has a zero field RSV
and an assigned opcode whose high digit is the command's unit (30_encoding.md R90, R93). -/

namespace Sys2Proof.Laws.Encoding

open Sys2Proof

/-- The high digit of the opcode, by unit (R93's table). -/
def unitDigit : Instr → Nat
  | .tzc | .extract | .deposit => 0
  | .frame => 1
  | .unpackr | .packr | .unpack | .pack => 2
  | .srwd | .sput | .sget | .swrite | .sread => 3

/-- The word of a command: well-formed as a command word, RSV zero, the unit's digit in bits 7:4. -/
def Statement (i : Instr) : Prop :=
  i.wf = true ∧ commandWordWf (encode i) = true ∧ (encode i).toNat < 2 ^ 8
    ∧ (encode i).toNat / 16 = unitDigit i

theorem tzc : Statement .tzc := by unfold Statement; decide
theorem extract : Statement .extract := by unfold Statement; decide
theorem deposit : Statement .deposit := by unfold Statement; decide
theorem frame : Statement .frame := by unfold Statement; decide
theorem unpackr : Statement .unpackr := by unfold Statement; decide
theorem packr : Statement .packr := by unfold Statement; decide
theorem unpack : Statement .unpack := by unfold Statement; decide
theorem pack : Statement .pack := by unfold Statement; decide
theorem srwd : Statement .srwd := by unfold Statement; decide
theorem sput : Statement .sput := by unfold Statement; decide
theorem sget : Statement .sget := by unfold Statement; decide
theorem swrite : Statement .swrite := by unfold Statement; decide
theorem sread : Statement .sread := by unfold Statement; decide

end Sys2Proof.Laws.Encoding
end

