-- ==== Sys2Proof/Tests/Slice0.lean ====
section
/-! SUPPORT. Tests: ill-formed terms the checks refuse, the command words written out from
30_encoding.md, at most two steps per command with the values of 95_test_vectors.md, and, for every
obligation with hypotheses, a concrete state and operands that meet them (`witness_…`). -/

namespace Sys2Proof.Tests

open Sys2Proof Sys2Proof.Machine

/-! ### Ill-formed terms -/

/-- EXTRACT's opcode with a reserved bit set (95_test_vectors.md H9). -/
theorem smoke_reservedClear : reservedClear 0x00000102 = false := by decide

/-- An opcode the map does not assign (H10). -/
theorem smoke_opcodeAssigned : opcodeAssigned 0x00000024 = false := by decide

theorem smoke_commandWordWf :
    commandWordWf 0x00000102 = false ∧ commandWordWf 0x00000024 = false
      ∧ commandWordWf 0x00000023 = true := by decide

theorem smoke_gridLegal :
    Params.gridLegal { gridPixels := 0, pbufBytes := 4, msgBytes := 0 } = false
      ∧ Params.gridLegal { gridPixels := 2 ^ 30 + 1, pbufBytes := 4, msgBytes := 2 ^ 30 } = false := by
  decide

theorem smoke_pbufLegal :
    Params.pbufLegal { gridPixels := 1, pbufBytes := 6, msgBytes := 0 } = false
      ∧ Params.pbufLegal { gridPixels := 1, pbufBytes := 0, msgBytes := 0 } = false
      ∧ Params.pbufLegal { gridPixels := 1, pbufBytes := 2 ^ 32, msgBytes := 0 } = false := by
  decide

/-- Twenty pixels need three bytes of MSG (60 - 32 = 28 units); ten pixels need none. -/
theorem smoke_msgLegal :
    Params.msgLegal { gridPixels := 20, pbufBytes := 4, msgBytes := 2 } = false
      ∧ Params.msgLegal { gridPixels := 10, pbufBytes := 4, msgBytes := 0 } = true := by decide

theorem smoke_legal : Params.legal { gridPixels := 20, pbufBytes := 4, msgBytes := 2 } = false
    ∧ Params.legal Params.vectors = true := by decide

/-! ### Decoding: the words of 30_encoding.md R93, bit by bit -/

theorem test_decode_tzc : decode 0b00000000000000000000000000000001#32 = .ok .tzc := by rfl
theorem test_decode_extract : decode 0b00000000000000000000000000000010#32 = .ok .extract := by rfl
theorem test_decode_deposit : decode 0b00000000000000000000000000000011#32 = .ok .deposit := by rfl
theorem test_decode_frame : decode 0b00000000000000000000000000010000#32 = .ok .frame := by rfl
theorem test_decode_unpackr : decode 0b00000000000000000000000000100000#32 = .ok .unpackr := by rfl
theorem test_decode_packr : decode 0b00000000000000000000000000100001#32 = .ok .packr := by rfl
theorem test_decode_unpack : decode 0b00000000000000000000000000100010#32 = .ok .unpack := by rfl
theorem test_decode_pack : decode 0b00000000000000000000000000100011#32 = .ok .pack := by rfl
theorem test_decode_srwd : decode 0b00000000000000000000000000110000#32 = .ok .srwd := by rfl
theorem test_decode_sput : decode 0b00000000000000000000000000110001#32 = .ok .sput := by rfl
theorem test_decode_sget : decode 0b00000000000000000000000000110010#32 = .ok .sget := by rfl
theorem test_decode_swrite : decode 0b00000000000000000000000000110011#32 = .ok .swrite := by rfl
theorem test_decode_sread : decode 0b00000000000000000000000000110100#32 = .ok .sread := by rfl

/-- 95_test_vectors.md H8, H9, P4 line 2 and H10. -/
theorem test_decode_illegal :
    decode 0x00000000 = .error (.unassignedOpcode 0x00)
      ∧ decode 0x00000102 = .error (.reservedBits 0x000001)
      ∧ decode 0x00000132 = .error (.reservedBits 0x000001)
      ∧ decode 0x00000024 = .error (.unassignedOpcode 0x24) := ⟨rfl, rfl, rfl, rfl⟩

theorem test_decodeTableWord :
    decodeTableWord 32 0x34 = some .sread ∧ decodeTableWord 8 0x10 = some .frame
      ∧ decodeTableWord 32 0x134 = none := by decide

/-! ### Small states -/

/-- The registers a successful FRAME of 95_test_vectors.md section 2.2 leaves. -/
def framed (w h d rowbytes pad stride imgsize cap : Nat) : State :=
  { State.reset with
    width := BitVec.ofNat 32 w, height := BitVec.ofNat 32 h, depth := BitVec.ofNat 16 d
    rowbytes := BitVec.ofNat 32 rowbytes, pad := BitVec.ofNat 2 pad
    stride := BitVec.ofNat 32 stride, imgsize := BitVec.ofNat 32 imgsize
    cap := BitVec.ofNat 32 cap, status := Status.good true }

/-- Bytes at consecutive addresses, as numbers. -/
def bytes (l : List Nat) : Memory := Memory.writeBytes [] 0 (l.map (BitVec.ofNat 8))

/-- What a test looks at in a next state; none for a stop. -/
def look {α : Type} (r : Result) (f : State → α) : Option α :=
  match r with
  | .next t => some (f t)
  | .fault _ => none
  | .refused _ => none

/-- The first `n` bytes of a space, as numbers. -/
def first (sp : Space) (n : Nat) (s : State) : List Nat :=
  ((s.mem sp).bytesAt sp 0 n).map BitVec.toNat

/-! ### One step per test, expected values from 95_test_vectors.md -/

/-- B4: the largest result. -/
theorem test_tzc_top : look (exec .tzc { State.reset with opb := 0x80000000 })
    (fun t => (t.res, t.status.toWord)) = some (31, 0x0002) := by decide

/-- B10: a mask with a gap, the lowest set bit counts. -/
theorem test_tzc_gap : look (exec .tzc { State.reset with opb := 0x00000A00 })
    (fun t => t.res) = some 9 := by decide

/-- B13. -/
theorem test_extract_565 :
    look (exec .extract { State.reset with opa := 0x0000ABCD, opb := 0x000007E0 })
      (fun t => t.res) = some 0x1E := by decide

/-- B17: the shift is logical. -/
theorem test_extract_logical :
    look (exec .extract { State.reset with opa := 0xFFFFFFFF, opb := 0x80000000 })
      (fun t => t.res) = some 1 := by decide

/-- B28: a bit shifted past bit 31 is lost. -/
theorem test_deposit_cut :
    look (exec .deposit { State.reset with opa := 3, opb := 0x80000000 })
      (fun t => t.res) = some 0x80000000 := by decide

/-- B29: not masked. -/
theorem test_deposit_unmasked :
    look (exec .deposit { State.reset with opa := 0x20, opb := 0x0000F800 })
      (fun t => t.res) = some 0x00010000 := by decide

/-- F19. -/
theorem test_frame_F19 :
    look (exec .frame { State.reset with width := 5, height := 4, depth := 24, spos := 7 })
      (fun t => (t.rowbytes, t.pad, t.stride, t.imgsize, t.cap, t.spos, t.status.toWord))
      = some (15, 1, 16, 64, 3, 0, 0x000A) := by decide

/-- F32: dimensions are checked before depth; the frame of an earlier FRAME is lost. -/
theorem test_frame_F32 :
    look (exec .frame { framed 5 4 24 15 1 16 64 3 with width := 0, height := 0, depth := 2 })
      (fun t => (t.rowbytes, t.stride, t.cap, t.status.toWord)) = some (0, 0, 0, 0x0106) := by decide

/-- K5: high nibble first, odd width. -/
theorem test_unpackr_K5 :
    look (exec .unpackr { framed 5 1 4 3 1 4 4 0 with pbuf := bytes [0x12, 0x3F, 0xA7, 0x99] })
      (first .grid 20)
      = some [0, 0, 0, 1, 0, 0, 0, 2, 0, 0, 0, 3, 0, 0, 0, 15, 0, 0, 0, 10] := by decide

/-- K13: ten-bit fields of a little-endian word, cut to 8 bits. -/
theorem test_unpackr_K13 :
    look (exec .unpackr { framed 1 1 32 4 0 4 4 0 with
        pbuf := bytes [0xEF, 0xBE, 0xAD, 0xDE]
        rmask := 0x3FF00000, gmask := 0x000FFC00, bmask := 0x000003FF, amask := 0xC0000000 })
      (first .grid 4) = some [239, 111, 234, 3] := by decide

/-- K20: the index modulo 2, the leftmost pixel in bit 7, unused bits and padding 0. -/
theorem test_packr_K20 :
    look (exec .packr { framed 5 1 1 1 3 4 4 0 with
        grid := bytes [0, 0, 0, 3, 0, 0, 0, 2, 0, 0, 0, 1, 0, 0, 0, 0, 0, 0, 0, 255] })
      (first .pbuf 4) = some [0xA8, 0, 0, 0] := by decide

/-- K25: green 64 lands in red's low bit. -/
theorem test_packr_K25 :
    look (exec .packr { framed 1 1 16 2 2 4 4 0 with
        grid := bytes [0, 64, 0, 0], rmask := 0xF800, gmask := 0x07E0, bmask := 0x001F })
      (first .pbuf 4) = some [0x00, 0x08, 0, 0] := by decide

/-- P1 lines 7 to 11. -/
theorem test_unpack_P1 :
    look (exec .unpack { framed 3 2 24 9 3 12 24 0 with
        pbuf := bytes [1, 2, 3, 4, 5, 6, 7, 8, 9, 0xAA, 0xBB, 0xCC,
          0x0A, 0x0B, 0x0C, 0x0D, 0x0E, 0x0F, 0x10, 0x11, 0x12, 0xEE, 0xEE, 0xEE] })
      (first .grid 24)
      = some [1, 2, 3, 0, 4, 5, 6, 0, 7, 8, 9, 0, 10, 11, 12, 0, 13, 14, 15, 0, 16, 17, 18, 0] := by
  decide

/-- P1 lines 12 to 14. -/
theorem test_pack_P1 :
    look (exec .pack { framed 3 2 24 9 3 12 24 0 with
        grid := bytes [1, 2, 3, 0, 4, 5, 6, 0, 7, 8, 9, 0, 10, 11, 12, 0, 13, 14, 15, 0, 16, 17, 18, 0] })
      (first .pbuf 24)
      = some [1, 2, 3, 4, 5, 6, 7, 8, 9, 0, 0, 0, 10, 11, 12, 13, 14, 15, 16, 17, 18, 0, 0, 0] := by
  decide

/-- P4 line 3. -/
theorem test_srwd_P4 : look (exec .srwd { framed 5 4 24 15 1 16 64 3 with spos := 60 })
    (fun t => (t.spos, t.status.toWord)) = some (0, 0x000A) := by decide

/-- S7: depth 8 is not supported. -/
theorem test_srwd_S7 : look (exec .srwd { framed 5 4 8 5 3 8 32 3 with spos := 1 })
    (fun t => (t.spos, t.status.toWord)) = some (1, 0x080E) := by decide

/-- P5 line 5: blue 31 goes up to 32. -/
theorem test_sput_P5 :
    look (exec .sput { framed 1 1 16 2 2 4 4 0 with grid := bytes [0x1F, 0x3E, 0, 0] })
      (fun t => (first .grid 4 t, t.spos)) = some ([0x20, 0x3E, 0, 0], 1) := by decide

/-- S9: unit 1, 255 with bit 1 stays 255. -/
theorem test_sput_S9 :
    look (exec .sput { framed 5 4 24 15 1 16 64 3 with
        grid := bytes [0x00, 0xFF, 0xFE, 0x80], opa := 1, spos := 1 })
      (fun t => (first .grid 4 t, t.spos)) = some ([0x00, 0xFF, 0xFE, 0x80], 2) := by decide

/-- P5 line 9: the green bit of value 63 is 1. -/
theorem test_sget_P5 :
    look (exec .sget { framed 1 1 16 2 2 4 4 0 with grid := bytes [0x00, 0x3F, 0, 0], spos := 1 })
      (fun t => (t.res, t.spos)) = some (1, 2) := by decide

/-- P5 line 10: ScanEnd leaves RES and SPOS. -/
theorem test_sget_end :
    look (exec .sget { framed 1 1 16 2 2 4 4 0 with spos := 3, res := 5 })
      (fun t => (t.res, t.spos, t.status.toWord)) = some (5, 3, 0x130E) := by decide

/-- S6: length 0 and sixteen drawn ones on a grid of zeros. -/
theorem test_swrite_S6 :
    look (exec .swrite { framed 4 4 32 16 0 16 64 2 with
        grid := bytes (List.replicate 64 0), randomFeed := List.replicate 16 true })
      (fun t => (first .grid 64 t, t.spos, t.drawPos))
      = some (List.replicate 42 0 ++ [1, 0, 1, 1, 1, 0, 1, 1, 1, 0, 1, 1, 1, 0, 1, 1, 1, 0, 1, 1, 1, 0],
          48, 16) := by decide

/-- S5: one byte over the capacity. -/
theorem test_swrite_S5 :
    look (exec .swrite { framed 5 4 24 15 1 16 64 3 with plen := 4 })
      (fun t => (t.grid, t.spos, t.drawPos, t.status.toWord)) = some ([], 0, 0, 0x090E) := by decide

/-- The grid of vector S1 before the write, units 0 to 31 (offsets 0 to 43). -/
def gridS1 : Memory :=
  bytes [0x00, 0xFF, 0xFF, 0x80, 0x0A, 0xFE, 0xFE, 0x81, 0x14, 0xFD, 0xFF, 0x82,
    0x1E, 0xFC, 0xFE, 0x83, 0x28, 0xFB, 0xFF, 0x84, 0x32, 0xFA, 0xFE, 0x85,
    0x3C, 0xF9, 0xFF, 0x86, 0x46, 0xF8, 0xFE, 0x87, 0x50, 0xF7, 0xFF, 0x88,
    0x5A, 0xF6, 0xFE, 0x89, 0x64, 0xF5, 0xFF, 0x8A]

/-- S3: no payload present. -/
theorem test_sread_S3 :
    look (exec .sread { framed 5 4 24 15 1 16 64 3 with grid := gridS1 })
      (fun t => (t.plen, t.spos, t.msg, t.status.toWord))
      = some (0x86186186, 32, [], 0x0A0E) := by decide

/-- The grid of vector S1 after the write, units 0 to 47 (offsets 0 to 63). -/
def gridS2 : Memory :=
  bytes [0x00, 0xFF, 0xFE, 0x80, 0x0A, 0xFE, 0xFE, 0x81, 0x14, 0xFE, 0xFE, 0x82,
    0x1E, 0xFC, 0xFE, 0x83, 0x28, 0xFC, 0xFE, 0x84, 0x32, 0xFA, 0xFE, 0x85,
    0x3C, 0xFA, 0xFE, 0x86, 0x46, 0xF8, 0xFE, 0x87, 0x50, 0xF8, 0xFE, 0x88,
    0x5A, 0xF6, 0xFE, 0x89, 0x64, 0xF6, 0xFF, 0x8A, 0x6E, 0xF4, 0xFE, 0x8B,
    0x78, 0xF4, 0xFF, 0x8C, 0x82, 0xF2, 0xFE, 0x8D, 0x8C, 0xF2, 0xFE, 0x8E,
    0x96, 0xF0, 0xFE, 0x8F]

/-- S2. -/
theorem test_sread_S2 :
    look (exec .sread { framed 5 4 24 15 1 16 64 3 with grid := gridS2 })
      (fun t => (t.plen, first .msg 2 t, t.spos, t.status.toWord))
      = some (2, [0x41, 0x00], 48, 0x000A) := by decide

/-- H4: the command word placed after reset is the next thing that runs. -/
theorem test_withFetchWord :
    look (step (State.reset.withFetchWord 32 0x01)) (fun t => (t.status.toWord, t.agenda))
      = some (0x0002, []) := by decide

/-- H8: an illegal word. -/
theorem test_withFetchWord_illegal :
    look (step (State.reset.withFetchWord 32 0x00)) (fun t => t.status.toWord)
      = some 0x1006 := by decide

/-! ### Framed states, one per depth (F3, F10, F13, F14, F19, F20) and the boundaries F26, F27 -/

theorem framed_d1 : (framed 1 1 1 1 3 4 4 0).FramedAs .d1 := by constructor <;> decide
theorem framed_d4 : (framed 7 3 4 4 0 4 12 3).FramedAs .d4 := by constructor <;> decide
theorem framed_d8 : (framed 5 2 8 5 3 8 16 0).FramedAs .d8 := by constructor <;> decide
theorem framed_d16 : (framed 1 1 16 2 2 4 4 0).FramedAs .d16 := by constructor <;> decide
theorem framed_d24 : (framed 5 4 24 15 1 16 64 3).FramedAs .d24 := by constructor <;> decide
theorem framed_d32 : (framed 1 1 32 4 0 4 4 0).FramedAs .d32 := by constructor <;> decide
theorem framed_full : (framed 1024 1 32 4096 0 4096 4096 380).FramedAs .d32 := by constructor <;> decide
theorem framed_33 : (framed 11 1 24 33 3 36 36 0).FramedAs .d24 := by constructor <;> decide

/-- The frame does not look at the memories, the masks, the operands or the agenda. -/
theorem inv_d24 : (framed 5 4 24 15 1 16 64 3).Inv where
  params := by decide
  mem := ⟨rfl, rfl, rfl, rfl, rfl, rfl⟩
  frame := .inr ⟨.d24, framed_d24⟩
  status := by constructor <;> decide

theorem inv_reset : State.reset.Inv where
  params := by decide
  mem := ⟨rfl, rfl, rfl, rfl, rfl, rfl⟩
  frame := .inl (by constructor <;> decide)
  status := by constructor <;> decide

theorem inv_issued : (State.reset.issue 0x01).Inv where
  params := by decide
  mem := ⟨rfl, rfl, rfl, rfl, rfl, rfl⟩
  frame := .inl (by constructor <;> decide)
  status := by constructor <;> decide

/-- SWRITE at the capacity: three bytes into 60 units. -/
theorem canEmbed_full : State.CanEmbed { framed 5 4 24 15 1 16 64 3 with plen := 3 } .d24 where
  params := by decide
  framed := framed_d24.congr rfl rfl rfl rfl rfl rfl rfl rfl rfl rfl (by decide)
  depth := by decide
  units := by decide
  fits := by decide

/-- SWRITE of no byte into 33 units (F27). -/
theorem canEmbed_empty : (framed 11 1 24 33 3 36 36 0).CanEmbed .d24 where
  params := by decide
  framed := framed_33
  depth := by decide
  units := by decide
  fits := by decide

/-! ### Witnesses: states and operands that meet the hypotheses of each obligation -/

/-- The masks 565 of 95_test_vectors.md section 2.3. -/
def masks565 : Masks := { r := 0xF800, g := 0x07E0, b := 0x001F, a := 0 }

/-- The masks 8888. -/
def masks8888 : Masks := { r := 0x00FF0000, g := 0x0000FF00, b := 0x000000FF, a := 0xFF000000 }

theorem narrow_run {m : Word} (n start : Nat) (hn : n ≤ 8) (h : IsRun m n start) : NarrowMask m :=
  .inr ⟨n, start, hn, h⟩

theorem run_red : IsRun 0xF800 5 11 := by unfold IsRun; decide
theorem run_green : IsRun 0x07E0 6 5 := by unfold IsRun; decide
theorem run_top : IsRun 0x80000000 1 31 := by unfold IsRun; decide
theorem run_all : IsRun 0xFFFFFFFF 32 0 := by unfold IsRun; decide

theorem valid565 : masks565.Valid16 :=
  ⟨narrow_run 5 11 (by decide) run_red, narrow_run 6 5 (by decide) run_green,
    narrow_run 5 0 (by decide) (by unfold IsRun; decide), by decide, by decide, by decide, by decide,
    by decide, by decide⟩

theorem valid8888 : masks8888.Valid32 :=
  ⟨narrow_run 8 16 (by decide) (by unfold IsRun; decide),
    narrow_run 8 8 (by decide) (by unfold IsRun; decide),
    narrow_run 8 0 (by decide) (by unfold IsRun; decide),
    narrow_run 8 24 (by decide) (by unfold IsRun; decide), by decide, by decide, by decide, by decide,
    by decide, by decide⟩

theorem witness_TzcIsLeastSetBit : (0x80000000 : Word) ≠ 0 := by decide

theorem witness_TzcCompletes : State.reset.opb = 0
    ∧ { State.reset with opb := 0x80000000 }.opb ≠ 0 := by decide

theorem witness_ExtractCompletes :
    (0x00000F01 : Word) &&& 0x00000A00 = 0x00000F00 &&& 0x00000A00 := by decide

theorem witness_MaskLaws : IsRun 0x80000000 1 31 ∧ (1 : Word).toNat < 2 ^ 1
    ∧ IsRun 0xFFFFFFFF 32 0 ∧ (0xFFFFFFFF : Word).toNat < 2 ^ 32
    ∧ IsRun 0xF800 5 11 ∧ IsRun 0x07E0 6 5 ∧ (0xF800 : Word) &&& 0x07E0 = 0
    ∧ (31 : Word).toNat < 2 ^ 5 ∧ (63 : Word).toNat < 2 ^ 6 :=
  ⟨run_top, by decide, run_all, by decide, run_red, run_green, by decide, by decide, by decide⟩

theorem witness_FramingArithmetic : 9 % 4 = 1 ∧ 6 % 4 = 2 ∧ 15 % 4 = 3
    ∧ 12 % 4 = 0 ∧ rowBytes 3 PixelDepth.d24.bits ≤ 12 := by decide

/-- F26: exactly GRID_PIXELS pixels and PBUF_BYTES bytes. -/
theorem witness_FrameLatchesDerivedValues :
    let s : State := { State.reset with width := 1024, height := 1, depth := 32 }
    s.params.legal = true ∧ s.depth.toNat = PixelDepth.d32.bits ∧ 1 ≤ s.w ∧ 1 ≤ s.h
      ∧ s.w * s.h ≤ s.params.gridPixels
      ∧ s.h * ((s.w * 32 + 7) / 8 + (4 - (s.w * 32 + 7) / 8 % 4) % 4) ≤ s.params.pbufBytes := by
  decide

/-- F30, F34, F36, and a PBUF one row too small. -/
theorem witness_FrameFailsInOrder :
    ({ State.reset with height := 1, depth := 24 }.w = 0)
    ∧ ({ State.reset with width := 1, height := 1 }.w ≠ 0
      ∧ { State.reset with width := 1, height := 1 }.h ≠ 0
      ∧ PixelDepth.ofBits { State.reset with width := 1, height := 1 }.depth.toNat = none)
    ∧ ({ State.reset with width := 1025, height := 1, depth := 1 }.w
        * { State.reset with width := 1025, height := 1, depth := 1 }.h > 1024)
    ∧ imageSize 2 1 PixelDepth.d24.bits > 4 := by decide

theorem witness_FrameFailsInOrder_depth (d : PixelDepth) :
    { State.reset with width := 1, height := 1 }.depth.toNat ≠ d.bits := by cases d <;> decide

theorem witness_FramedEngineBounds :
    (framed 1024 1 32 4096 0 4096 4096 380).params.legal = true
      ∧ (framed 1024 1 32 4096 0 4096 4096 380).FramedAs .d32 := ⟨by decide, framed_full⟩

/-- K1 and K2: rows that agree on the pixels' bits; K5: on the pixels' nibbles. -/
theorem witness_UnpackIndexedRows : (4 < 5)
    ∧ (∀ j, j < 5 → (([0xB0] : List Byte).getD (j / 8) 0).getLsbD (7 - j % 8)
        = (([0xB7] : List Byte).getD (j / 8) 0).getLsbD (7 - j % 8))
    ∧ (∀ j, j < 5 → j % 2 = 0 → (([0x12, 0x3F, 0xA7] : List Byte).getD (j / 2) 0).toNat / 16
        = (([0x12, 0x3F, 0xA0] : List Byte).getD (j / 2) 0).toNat / 16)
    ∧ (∀ j, j < 5 → j % 2 = 1 → (([0x12, 0x3F, 0xA7] : List Byte).getD (j / 2) 0).toNat % 16
        = (([0x12, 0x3F, 0xA0] : List Byte).getD (j / 2) 0).toNat % 16) := by decide

theorem witness_UnpackDepth24 : 2 < 3 := by decide

theorem witness_UnpackMaskedRows : 0 < 1 := by decide

/-- K20: five pixels, one data byte, a stride of four. -/
theorem witness_PackIndexedRows : ∃ P : List Pixel, P.length = 5 ∧ rowBytes P.length 1 ≤ 4
    ∧ rowBytes P.length 4 ≤ 4 ∧ rowBytes P.length 8 ≤ 8 ∧ 7 < 8 :=
  ⟨List.replicate 5 { b := 0, g := 0, r := 0, x := 3 }, by decide⟩

theorem witness_PackColourRows : ∃ (P : List Pixel) (p : Pixel), P[1]? = some p
    ∧ rowBytes P.length 16 ≤ 4 ∧ rowBytes P.length 24 ≤ 6 ∧ rowBytes P.length 32 ≤ 8 :=
  ⟨List.replicate 2 { b := 1, g := 2, r := 3, x := 77 }, { b := 1, g := 2, r := 3, x := 77 }, by decide⟩

/-- A row of one pixel at its largest representable values, at every depth. -/
theorem witness_UnpackAfterPack :
    (∀ p ∈ [{ b := 0, g := 0, r := 0, x := 1 : Pixel }], p.Representable .d1 masks565)
    ∧ (∀ p ∈ [{ b := 0, g := 0, r := 0, x := 15 : Pixel }], p.Representable .d4 masks565)
    ∧ (∀ p ∈ [{ b := 0, g := 0, r := 0, x := 255 : Pixel }], p.Representable .d8 masks565)
    ∧ (∀ p ∈ [{ b := 31, g := 63, r := 31, x := 0 : Pixel }], p.Representable .d16 masks565)
    ∧ (∀ p ∈ [{ b := 255, g := 255, r := 255, x := 0 : Pixel }], p.Representable .d24 masks565)
    ∧ (∀ p ∈ [{ b := 255, g := 255, r := 255, x := 255 : Pixel }],
        p.Representable .d32 masks8888) := by
  refine ⟨?_, ?_, ?_, ?_, ?_, ?_⟩ <;> intro p hp <;> obtain rfl := List.mem_singleton.1 hp
  · unfold Pixel.Representable; decide
  · unfold Pixel.Representable; decide
  · unfold Pixel.Representable; decide
  · exact ⟨by decide, valid565, by decide, by decide, by decide⟩
  · unfold Pixel.Representable; decide
  · exact ⟨valid8888, by decide, by decide, by decide, by decide⟩

/-- Bytes beyond the data of a short row are 0. -/
theorem zero_beyond {B : List Byte} {k : Nat} (h : ∀ n, n < B.length → k ≤ n → B.getD n 0 = 0) (n : Nat)
    (hk : k ≤ n) : B.getD n 0 = 0 := by
  by_cases hn : n < B.length
  · exact h n hn hk
  · rw [List.getD_eq_getElem?_getD, List.getElem?_eq_none (by omega)]; rfl

/-- The packed rows K3, K5, K7, K8, K10 and K11 as pack leaves them. -/
theorem witness_PackAfterUnpack :
    ValidRow .d1 masks565 9 [0xA5, 0x80, 0, 0] ∧ ValidRow .d4 masks565 5 [0x12, 0x3F, 0xA0, 0]
    ∧ ValidRow .d8 masks565 5 [0, 0x7F, 0xFF, 0x55, 0xAA, 0, 0, 0]
    ∧ ValidRow .d16 masks565 3 [0xCD, 0xAB, 0xFF, 0xFF, 0, 0, 0, 0]
    ∧ ValidRow .d24 masks565 3 [1, 2, 3, 4, 5, 6, 7, 8, 9, 0, 0, 0]
    ∧ ValidRow .d32 masks8888 2 [0x11, 0x22, 0x33, 0x44, 0xEF, 0xBE, 0xAD, 0xDE] := by
  refine ⟨⟨rfl, zero_beyond (by decide), ?_, trivial⟩, ⟨rfl, zero_beyond (by decide), ?_, trivial⟩,
    ⟨rfl, zero_beyond (by decide), trivial, trivial⟩,
    ⟨rfl, zero_beyond (by decide), trivial, valid565, by decide⟩,
    ⟨rfl, zero_beyond (by decide), trivial, trivial⟩,
    ⟨rfl, zero_beyond (by decide), trivial, valid8888, by decide⟩⟩
  · intro j h1 h2
    have h3 : j < 16 := h2
    interval_cases j <;> rfl
  · intro _; rfl

/-- The first and the last row of four. -/
theorem witness_UnpackrCompletes : (framed 5 4 24 15 1 16 64 3).FramedAs .d24
    ∧ (framed 5 4 24 15 1 16 64 3).row.toNat < (framed 5 4 24 15 1 16 64 3).h
    ∧ (3 : Word).toNat < (framed 5 4 24 15 1 16 64 3).h := ⟨framed_d24, by decide, by decide⟩

theorem witness_PackrCompletes :
    State.FramedAs { framed 5 4 24 15 1 16 64 3 with row := 3 } .d24
      ∧ { framed 5 4 24 15 1 16 64 3 with row := 3 }.row.toNat < (framed 5 4 24 15 1 16 64 3).h :=
  ⟨framed_d24.congr rfl rfl rfl rfl rfl rfl rfl rfl rfl rfl (by decide), by decide⟩

theorem witness_UnpackCompletes : (framed 7 3 4 4 0 4 12 3).FramedAs .d4
    ∧ State.reset.status.cfgok = false := ⟨framed_d4, rfl⟩

theorem witness_PackCompletes : (framed 5 2 8 5 3 8 16 0).FramedAs .d8
    ∧ State.reset.status.cfgok = false := ⟨framed_d8, rfl⟩

/-- Two engines that differ in a padding byte of PBUF only. -/
theorem witness_PaddingZeroOnPackSkippedOnUnpack : (framed 1 1 16 2 2 4 4 0).FramedAs .d16
    ∧ (framed 1 1 16 2 2 4 4 0).row.toNat < (framed 1 1 16 2 2 4 4 0).h
    ∧ ∀ i n, i < (framed 1 1 16 2 2 4 4 0).h → n < (framed 1 1 16 2 2 4 4 0).rowbytes.toNat →
        Memory.byteAt [(3, 0xEE)] .pbuf (i * (framed 1 1 16 2 2 4 4 0).stride.toNat + n)
          = (framed 1 1 16 2 2 4 4 0).byte .pbuf
              (i * (framed 1 1 16 2 2 4 4 0).stride.toNat + n) := by
  refine ⟨framed_d16, by decide, fun i n hi hn => ?_⟩
  have h1 : i < 1 := hi
  have h2 : n < 2 := hn
  interval_cases i
  interval_cases n <;> rfl

theorem witness_WholeImageEqualsRowsInAnyOrder : (framed 5 4 24 15 1 16 64 3).Inv
    ∧ (framed 5 4 24 15 1 16 64 3).FramedAs .d24
    ∧ [3, 1, 0, 2].Perm (List.range (framed 5 4 24 15 1 16 64 3).h) :=
  ⟨inv_d24, framed_d24, by decide⟩

/-- One pixel with a zero fourth slot at depth 24 (F17). -/
theorem witness_PackThenUnpackKeepsGrid :
    State.FramedAs { framed 1 1 24 3 1 4 4 0 with grid := bytes [1, 2, 3, 0] } .d24
    ∧ ∀ r c, r < 1 → c < 1 →
        ({ framed 1 1 24 3 1 4 4 0 with grid := bytes [1, 2, 3, 0] }.pixelAt r c).Representable .d24
          masks565 := by
  refine ⟨by constructor <;> decide, fun r c hr hc => ?_⟩
  interval_cases r
  interval_cases c
  unfold Pixel.Representable
  decide

theorem witness_PutbitLaws : (254 : Byte).toNat < 255 ∧ (255 : Byte) = 255 := by decide

theorem witness_UnitMapScansRowMajor : 3 < 4 ∧ 4 < 5 ∧ 2 < 3 ∧ 59 < 3 * 5 * 4 ∧ 0 < 1 := by decide

theorem witness_SrwdCompletes : (framed 1 1 16 2 2 4 4 0).status.cfgok = true
    ∧ 16 ≤ (framed 1 1 16 2 2 4 4 0).depth.toNat := by decide

/-- The last unit of three. -/
theorem witness_SputCompletes :
    { framed 1 1 16 2 2 4 4 0 with spos := 2 }.params.legal = true
    ∧ State.FramedAs { framed 1 1 16 2 2 4 4 0 with spos := 2 } .d16
    ∧ 16 ≤ PixelDepth.d16.bits
    ∧ { framed 1 1 16 2 2 4 4 0 with spos := 2 }.spos.toNat < (framed 1 1 16 2 2 4 4 0).units :=
  ⟨by decide, by constructor <;> decide, by decide, by decide⟩

theorem witness_SgetCompletes :
    { framed 1 1 32 4 0 4 4 0 with spos := 2 }.params.legal = true
    ∧ State.FramedAs { framed 1 1 32 4 0 4 4 0 with spos := 2 } .d32
    ∧ 16 ≤ PixelDepth.d32.bits
    ∧ { framed 1 1 32 4 0 4 4 0 with spos := 2 }.spos.toNat < (framed 1 1 32 4 0 4 4 0).units :=
  ⟨by decide, by constructor <;> decide, by decide, by decide⟩

theorem witness_ScanEndChangesOnlyStatus :
    { framed 1 1 16 2 2 4 4 0 with spos := 3 }.status.cfgok = true
    ∧ 16 ≤ { framed 1 1 16 2 2 4 4 0 with spos := 3 }.depth.toNat
    ∧ (framed 1 1 16 2 2 4 4 0).units ≤ { framed 1 1 16 2 2 4 4 0 with spos := 3 }.spos.toNat := by
  decide

theorem witness_SwriteCompletes :
    State.CanEmbed { framed 5 4 24 15 1 16 64 3 with plen := 3 } .d24
      ∧ (framed 11 1 24 33 3 36 36 0).CanEmbed .d24 := ⟨canEmbed_full, canEmbed_empty⟩

/-- S8 (27 units) and S5 (one byte over). -/
theorem witness_PayloadTooLargeChangesOnlyStatus :
    ((framed 3 3 24 9 3 12 36 0).status.cfgok = true
      ∧ 16 ≤ (framed 3 3 24 9 3 12 36 0).depth.toNat ∧ (framed 3 3 24 9 3 12 36 0).units < 32)
    ∧ ({ framed 5 4 24 15 1 16 64 3 with plen := 4 }.status.cfgok = true
      ∧ (framed 5 4 24 15 1 16 64 3).cap.toNat
          < { framed 5 4 24 15 1 16 64 3 with plen := 4 }.plen.toNat) := by decide

/-- S6's length 0 at the smallest number of units a grid can have from 32 on (F27), and S2's length 2. -/
theorem witness_SreadCompletes :
    State.FramedAs { framed 11 1 24 33 3 36 36 0 with grid := bytes (List.replicate 44 0) } .d24
    ∧ (∀ i, i < 32 → Nat.testBit 0 i = getUnit (bytes (List.replicate 44 0)) i)
    ∧ State.FramedAs { framed 5 4 24 15 1 16 64 3 with grid := gridS2 } .d24
    ∧ (∀ i, i < 32 → Nat.testBit 2 i = getUnit gridS2 i) ∧ 2 < 2 ^ 32 ∧ 32 ≤ 33
    ∧ 2 ≤ (framed 5 4 24 15 1 16 64 3).cap.toNat ∧ 16 ≤ PixelDepth.d24.bits :=
  ⟨framed_33.congr rfl rfl rfl rfl rfl rfl rfl rfl rfl rfl (by decide), by decide,
    framed_d24.congr rfl rfl rfl rfl rfl rfl rfl rfl rfl rfl (by decide), by decide, by decide,
    by decide, by decide, by decide⟩

/-- S3's length, and S8's 27 units. -/
theorem witness_SreadInvalidLength :
    State.FramedAs { framed 5 4 24 15 1 16 64 3 with grid := gridS1 } .d24
    ∧ (∀ i, i < 32 → Nat.testBit 0x86186186 i = getUnit gridS1 i) ∧ 0x86186186 < 2 ^ 32
    ∧ (framed 5 4 24 15 1 16 64 3).cap.toNat < 0x86186186
    ∧ (framed 3 3 24 9 3 12 36 0).status.cfgok = true ∧ 16 ≤ (framed 3 3 24 9 3 12 36 0).depth.toNat
    ∧ (framed 3 3 24 9 3 12 36 0).units < 32 :=
  ⟨framed_d24.congr rfl rfl rfl rfl rfl rfl rfl rfl rfl rfl (by decide), by decide, by decide,
    by decide, by decide, by decide, by decide⟩

/-- The state SWRITE leaves, with another PBUF, is an engine with the same frame and the same units. -/
theorem witness_EmbeddedPayloadIsExtracted :
    let s : State := { framed 5 4 24 15 1 16 64 3 with plen := 3 }
    s.CanEmbed .d24 ∧ ∃ t u : State, exec .swrite s = .next t ∧ u.params = s.params
      ∧ u.width = s.width ∧ u.height = s.height ∧ u.FramedAs .d24 ∧ u.pbuf ≠ t.pbuf
      ∧ ∀ k, k < s.units → u.byte .grid (unitAddr k) = t.byte .grid (unitAddr k) := by
  refine ⟨canEmbed_full, _, { framed 5 4 24 15 1 16 64 3 with
    grid := putUnits [] 0 (State.swriteBits { framed 5 4 24 15 1 16 64 3 with plen := 3 })
    pbuf := [(0, 1)] }, execSwrite_eq canEmbed_full, rfl, rfl, rfl,
    framed_d24.congr rfl rfl rfl rfl rfl rfl rfl rfl rfl rfl (by decide), by decide,
    fun k _ => ?_⟩
  simp only [State.byte, State.mem]
  rfl

theorem witness_SwriteEqualsSputs :
    State.CanEmbed { framed 5 4 24 15 1 16 64 3 with plen := 3 } .d24 := canEmbed_full

theorem witness_FillerDoesNotReachPayload : (framed 11 1 24 33 3 36 36 0).CanEmbed .d24 :=
  canEmbed_empty

theorem witness_NotConfiguredChangesOnlyStatus :
    Instr.sread ∈ [Instr.unpackr, .packr, .unpack, .pack, .srwd, .sput, .sget, .swrite, .sread]
      ∧ State.reset.status.cfgok = false := by decide

/-- S7: a framed engine at depth 8. -/
theorem witness_UnsupportedDepthChangesOnlyStatus :
    Instr.sread ∈ [Instr.srwd, .sput, .sget, .swrite, .sread]
      ∧ (framed 5 2 8 5 3 8 16 0).status.cfgok = true
      ∧ (framed 5 2 8 5 3 8 16 0).depth.toNat < 16 := by decide

/-- H12: ROW = HEIGHT. -/
theorem witness_RowRangeChangesOnlyStatus :
    Instr.packr ∈ [Instr.unpackr, .packr]
      ∧ { framed 5 2 8 5 3 8 16 0 with row := 2 }.status.cfgok = true
      ∧ (framed 5 2 8 5 3 8 16 0).h ≤ { framed 5 2 8 5 3 8 16 0 with row := 2 }.row.toNat := by decide

/-- A failing FRAME, a failing SREAD and another failing command. -/
theorem witness_FailingCommandsLeaveNoHalfDoneWork :
    look (exec .frame State.reset) (fun t => t.status.err) = some true
    ∧ look (exec .sread { framed 5 4 24 15 1 16 64 3 with grid := gridS1 })
        (fun t => t.status.err) = some true
    ∧ look (exec .unpack State.reset) (fun t => t.status.err) = some true := by decide

theorem witness_CompletionSetsStatus :
    look (exec .tzc State.reset) (fun t => t.status.done) = some true := by decide

theorem witness_CommandsWriteOnlyTheirResults :
    look (exec .frame State.reset) (fun t => t.res) = some 0 := by decide

/-- The byte before and the byte after the row PACKR writes. -/
theorem witness_CommandsWriteOnlyTheirBytes :
    look (exec .packr { framed 1 2 24 3 1 4 8 0 with grid := bytes [1, 2, 3, 0, 1, 2, 3, 0], row := 1 })
        (fun t => t.status.done) = some true
    ∧ (Space.pbuf, 3) ∉ writeSet .packr { framed 1 2 24 3 1 4 8 0 with row := 1 }
    ∧ (Space.pbuf, 8) ∉ writeSet .packr { framed 1 2 24 3 1 4 8 0 with row := 1 }
    ∧ (Space.pbuf, 4) ∈ writeSet .packr { framed 1 2 24 3 1 4 8 0 with row := 1 } := by decide

/-- The two forms of the engine's turn, on the illegal words of H8 and 95_test_vectors.md section 2.5. -/
theorem witness_IllegalWordRaisesIllegalCommand :
    ((State.reset.issue 0x00000102).status.busy = true ∧ (State.reset.issue 0x00000102).EngineNext []
      ∧ ∀ i : Instr, (State.reset.issue 0x00000102).pend ≠ encode i)
    ∧ (State.reset.placeWord 0).status.busy = true ∧ (State.reset.placeWord 0).EngineNext []
      ∧ ∀ i : Instr, (State.reset.placeWord 0).pend ≠ encode i :=
  ⟨⟨rfl, .inr ⟨rfl, rfl⟩, fun i => by cases i <;> decide⟩, rfl, .inl rfl,
    fun i => by cases i <;> decide⟩

theorem witness_StepRunsDecodedCommand :
    ((State.reset.issue 0x01).status.busy = true ∧ (State.reset.issue 0x01).agenda = [])
    ∧ (State.reset.placeWord 0x34).agenda = [.engine]
    ∧ (State.reset.status.busy = false ∧ State.reset.agenda = [])
    ∧ { State.reset with agenda := [.engine] }.status.busy = false := by decide

/-- An illegal word and a command's word. -/
theorem witness_IssueThenComplete : State.reset.status.busy = false
    ∧ { State.reset with agenda := [.host (.writeReg 0x48 .word 0xFFFFFFFF)] }.agenda
        = .host (.writeReg 0x48 .word 0xFFFFFFFF) :: []
    ∧ { State.reset with agenda := [.host (.writeReg 0x48 .word (encode .sread)), .engine] }.agenda
        = .host (.writeReg 0x48 .word (encode .sread)) :: .engine :: [] := by decide

theorem witness_StepKeepsInvariant : State.reset.Inv ∧ step State.reset = .next State.reset :=
  ⟨inv_reset, rfl⟩

theorem witness_InvariantStepNeverFaults : (framed 5 4 24 15 1 16 64 3).Inv := inv_d24

/-- The engine's turn by the empty agenda, and named by it. -/
theorem witness_EnginesTurnEndsBusy : (State.reset.issue 0x01).Inv
    ∧ (State.reset.issue 0x01).status.busy = true ∧ (State.reset.issue 0x01).EngineNext []
    ∧ (State.reset.placeWord 0x01).Inv ∧ (State.reset.placeWord 0x01).EngineNext [] :=
  ⟨inv_issued, rfl, .inr ⟨rfl, rfl⟩, ⟨inv_issued.params, inv_issued.mem, .inl
    ⟨rfl, rfl, rfl, rfl, rfl, rfl, rfl⟩, inv_issued.status⟩, .inl rfl⟩

/-- The register lists of the statement cover every register once; the first and the last reserved offset. -/
theorem witness_RegisterWriteThenRead : State.reset.status.busy = false
    ∧ { State.reset with agenda := [.host (.writeReg Reg.ctrl.offset .word 0xFFFFFFFF)] }.agenda
        = .host (.writeReg Reg.ctrl.offset .word 0xFFFFFFFF) :: []
    ∧ Reg.plen ∈ [Reg.width, .height, .rmask, .gmask, .bmask, .amask, .opa, .opb, .row, .plen]
    ∧ Reg.spos ∈ [Reg.rowbytes, .pad, .stride, .imgsize, .cap, .res, .spos]
    ∧ Reg.ctrl ∉ [Reg.width, .height, .depth, .cmd]
    ∧ 0x54 % 4 = 0 ∧ 0xFC % 4 = 0 ∧ 0x54 ≤ 0xFC ∧ 0xFC < 256
    ∧ { State.reset with agenda := [.host (.writeReg 0xFC .word 1)] }.agenda
        = .host (.writeReg 0xFC .word 1) :: [] := by decide

theorem witness_ConfigurationWriteLosesFrame : (framed 5 4 24 15 1 16 64 3).status.busy = false
    ∧ Reg.depth ∈ [Reg.width, .height, .depth]
    ∧ { framed 5 4 24 15 1 16 64 3 with
        agenda := [.host (.writeReg Reg.depth.offset .word 24)] }.agenda
        = .host (.writeReg Reg.depth.offset .word 24) :: [] := by decide

/-- The last word of the window and the last byte of MSG. -/
theorem witness_HostReadsHaveNoSideEffect : State.reset.status.busy = false
    ∧ 0xFC % 4 = 0 ∧ 0xFC < 256 ∧ 0x54 ≤ 0xFC ∧ Reg.ctrl.offset = 0x50
    ∧ 511 + 1 ≤ State.reset.params.size .msg
    ∧ { State.reset with agenda := [.host (.readMem .msg 511 1)] }.agenda
        = .host (.readMem .msg 511 1) :: [] := by decide

theorem witness_HostMemoryWriteThenRead : State.reset.status.busy = false
    ∧ 4094 + ([1, 2] : List Byte).length ≤ State.reset.params.size .pbuf
    ∧ { State.reset with agenda := [.host (.writeMem .pbuf 4094 [1, 2])] }.agenda
        = .host (.writeMem .pbuf 4094 [1, 2]) :: [] := by decide

/-- Each clause: a write and a read while BUSY = 1, the polling read, the three bad register accesses,
and one byte beyond the end of MSG. -/
theorem witness_ContractViolationsAreRefused :
    (State.reset.issue 0x01).status.busy = true
    ∧ HostAccess.writeReg 0x00 .word 1 ≠ .reset
    ∧ HostAccess.writeReg 0x00 .word 1 ≠ .readReg 0x4C .word
    ∧ (State.reset.issue 0x01).Inv
    ∧ AccessWidth.byte ≠ .word ∧ 0x4E % 4 ≠ 0 ∧ 256 ≤ 256
    ∧ State.reset.params.size .msg < 512 + 1 :=
  ⟨rfl, by decide, by decide, inv_issued, by decide, by decide, by decide, by decide⟩

/-- Reset of an idle engine, with PACKR in flight, and with an illegal word in flight. -/
theorem witness_ResetClearsRegistersKeepsMemories :
    (State.reset.status.busy = false
      ∧ { State.reset with agenda := [.host .reset] }.agenda = .host .reset :: [])
    ∧ ((State.issue (framed 1 2 24 3 1 4 8 0) 0x21).status.busy = true
      ∧ decodeTableWord 32 (State.issue (framed 1 2 24 3 1 4 8 0) 0x21).pend.toNat = some .packr
      ∧ (Space.pbuf, 4) ∉ writeSet .packr (State.issue (framed 1 2 24 3 1 4 8 0) 0x21))
    ∧ (State.reset.issue 0x24).status.busy = true
      ∧ ∀ i ∈ Instr.all, (State.reset.issue 0x24).pend ≠ encode i := by decide

/-- H8: the completion of the word 0 with IEN = 1 raises irq. -/
theorem witness_InterruptFollowsDone :
    look (exec .tzc { State.reset with ien := true }) State.irq = some true
    ∧ look (step (State.placeWord { State.reset with ien := true } 0)) State.irq = some true
    ∧ (State.placeWord { State.reset with ien := true } 0).agenda = [.engine]
    ∧ State.reset.status.busy = false ∧ (2 : Word).getLsbD 1 = true
    ∧ { State.reset with agenda := [.host (.writeReg 0x4C .word 2)] }.agenda
        = .host (.writeReg 0x4C .word 2) :: []
    ∧ { State.reset with agenda := [.host (.writeReg 0x48 .word 0)] }.agenda
        = .host (.writeReg 0x48 .word 0) :: [] := by decide

end Sys2Proof.Tests
end

section
/-! PROOF. The bit-mask extractor (40_bitmask.md): the trailing zero count and EXTRACT. -/

namespace Sys2Proof.Machine

open Sys2Proof

/-! ### The trailing zero count -/

theorem tzc_zero : tzc 0 = 0 := by decide

/-- A mask with a set bit has a least one, and `tzc` is its place. -/
theorem getLsbD_tzc {m : Word} (hm : m ≠ 0) : m.getLsbD (tzc m) = true := by
  have hbit : ∃ i, m.getLsbD i = true := by
    by_contra hnone
    exact hm (BitVec.eq_of_getLsbD_eq fun i _ => by simpa using not_exists.1 hnone i)
  have hleast : tzc m = Nat.find hbit :=
    tzc_eq (Nat.find_spec hbit) fun j hj => Bool.eq_false_iff.2 (Nat.find_min hbit hj)
  rw [hleast]
  exact Nat.find_spec hbit

theorem tzc_le (m : Word) : tzc m ≤ 31 := by
  by_cases hm : m = 0
  · rw [hm, tzc_zero]
    decide
  · exact Nat.le_of_lt_succ (BitVec.lt_of_getLsbD (getLsbD_tzc hm))

/-- Settles O1: the fixed masks by evaluation, the rest from the least set bit of a nonzero mask. -/
theorem tzcIsLeastSetBit : Obligations.TzcIsLeastSetBit :=
  ⟨tzc_zero, by decide, fun m => ⟨tzc_le m, fun hm =>
    ⟨getLsbD_tzc hm, fun _ hi => getLsbD_of_lt_tzc hi⟩⟩⟩

/-! ### EXTRACT -/

theorem exec_extract (s : State) : exec .extract s = .next
    { s with res := extract s.opa s.opb, status := Status.good s.status.cfgok } := rfl

theorem extract_toNat (v m : Word) : (extract v m).toNat = (v &&& m).toNat / 2 ^ tzc m := by
  rw [extract, BitVec.toNat_ushiftRight, Nat.shiftRight_eq_div_pow]

theorem extract_zero_mask (v : Word) : extract v 0 = 0 := by simp [extract]

/-- Only the bits under the mask reach the extracted value. -/
theorem extract_congr {v v' m : Word} (h : v &&& m = v' &&& m) : extract v m = extract v' m := by
  rw [extract, extract, h]

theorem isRun_full : IsRun 0xFFFFFFFF 32 0 := by unfold IsRun; decide

theorem isRun_bit31 : IsRun 0x80000000 1 31 := by unfold IsRun; decide

theorem extract_full_mask (v : Word) : extract v 0xFFFFFFFF = v :=
  BitVec.eq_of_getLsbD_eq fun i hi => by
    rw [isRun_full.extract_getLsbD]
    simp [hi]

theorem extract_bit31 (v : Word) :
    extract v 0x80000000 = (BitVec.ofBool (v.getLsbD 31)).setWidth 32 := by
  refine BitVec.eq_of_getLsbD_eq fun i hi => ?_
  rw [isRun_bit31.extract_getLsbD]
  cases i with
  | zero => simp
  | succ i => simp

/-- Settles O3: the command's completion, then the laws of `extract` by name. -/
theorem extractCompletes : Obligations.ExtractCompletes :=
  ⟨exec_extract, rfl, extract_toNat, extract_zero_mask, extract_full_mask, extract_bit31,
    fun _ _ _ => extract_congr, by decide, by decide⟩

end Sys2Proof.Machine
end

section
/-! PROOF. Row framing (41_row_framing.md): the arithmetic of R120 to R122 and the padding rule R123. -/

namespace Sys2Proof.Machine

open Sys2Proof

/-! ### The arithmetic -/

/-- `8 * rowBytes` is the least multiple of 8 not below the bits of a row. -/
theorem rowBytes_is_ceil (w d : Nat) : w * d ≤ 8 * rowBytes w d ∧ 8 * rowBytes w d < w * d + 8 := by
  unfold rowBytes
  omega

theorem rowBytes_whole (w k : Nat) : rowBytes w (8 * k) = k * w := by
  have hbits : w * (8 * k) = 8 * (k * w) := by ring
  unfold rowBytes
  omega

theorem rowBytes_d4 (w : Nat) : rowBytes w 4 = (w + 1) / 2 := by
  unfold rowBytes
  omega

theorem rowBytes_d1 (w : Nat) : rowBytes w 1 = (w + 7) / 8 := by rw [rowBytes, Nat.mul_one]

theorem padding_lt (rb : Nat) : padding rb < 4 := Nat.mod_lt _ (by decide)

theorem padding_eq_zero_iff (rb : Nat) : padding rb = 0 ↔ rb % 4 = 0 := by
  unfold padding
  omega

/-- Off the multiples of 4 the outer `mod` of R121 does nothing. -/
theorem padding_of_mod_ne_zero {rb : Nat} (h : rb % 4 ≠ 0) : padding rb = 4 - rb % 4 :=
  Nat.mod_eq_of_lt (by omega)

theorem padding_table (rb : Nat) : (rb % 4 = 1 → padding rb = 3) ∧ (rb % 4 = 2 → padding rb = 2)
    ∧ (rb % 4 = 3 → padding rb = 1) := by
  refine ⟨fun h => ?_, fun h => ?_, fun h => ?_⟩ <;> rw [padding_of_mod_ne_zero (by omega), h]

theorem add_padding_mod (rb : Nat) : (rb + padding rb) % 4 = 0 := by
  unfold padding
  omega

theorem rowBytes_le_strideOf (w d : Nat) : rowBytes w d ≤ strideOf w d := Nat.le_add_right _ _

/-- Two multiples of 4 less than 4 apart are equal, so no multiple of 4 lies between. -/
theorem strideOf_le_of_mod {w d n : Nat} (h4 : n % 4 = 0) (hn : rowBytes w d ≤ n) :
    strideOf w d ≤ n := by
  have hmod : strideOf w d % 4 = 0 := add_padding_mod _
  have hlt : strideOf w d < rowBytes w d + 4 := Nat.add_lt_add_left (padding_lt _) _
  omega

/-- Settles O6: the ceiling, the closed forms, the padding and the stride, each by its lemma. -/
theorem framingArithmetic : Obligations.FramingArithmetic :=
  ⟨fun w d => rowBytes_is_ceil w d.bits,
    fun w => ⟨(rowBytes_whole w 1).trans (Nat.one_mul w), rowBytes_whole w 2, rowBytes_whole w 3,
      rowBytes_whole w 4, rowBytes_d4 w, rowBytes_d1 w⟩,
    fun rb => ⟨padding_lt rb, padding_eq_zero_iff rb, padding_table rb⟩,
    fun w d => ⟨rfl, add_padding_mod _, rowBytes_le_strideOf w d.bits,
      fun _ => strideOf_le_of_mod⟩,
    fun _ _ _ => rfl⟩

/-! ### Packing writes 0 beyond the data bytes -/

theorem getD_modify_ne (B : List Byte) {i n : Nat} (f : Byte → Byte) (h : i ≠ n) :
    (B.modify i f).getD n 0 = B.getD n 0 := by
  rw [List.getD_eq_getElem?_getD, List.getElem?_modify_ne _ _ h, ← List.getD_eq_getElem?_getD]

/-- A pixel touches no byte that begins at or after the pixel's last bit, at any depth. -/
theorem packPixel_beyond (d : PixelDepth) (m : Masks) (j : Nat) (p : Pixel) (B : List Byte) {n : Nat}
    (h : (j + 1) * d.bits ≤ 8 * n) : (packPixel d m j p B).getD n 0 = B.getD n 0 := by
  cases d <;> simp only [PixelDepth.bits] at h
  case d1 => exact getD_modify_ne _ _ (by omega)
  case d4 =>
    simp only [packPixel]
    split <;> exact getD_modify_ne _ _ (by omega)
  case d8 => exact packPixel_outside .d8 m (k := 1) rfl j p B (by omega)
  case d16 => exact packPixel_outside .d16 m (k := 2) rfl j p B (by omega)
  case d24 => exact packPixel_outside .d24 m (k := 3) rfl j p B (by omega)
  case d32 => exact packPixel_outside .d32 m (k := 4) rfl j p B (by omega)

theorem packPixels_beyond (d : PixelDepth) (m : Masks) (P : List Pixel) : ∀ (j : Nat) (B : List Byte)
    {n : Nat}, (j + P.length) * d.bits ≤ 8 * n →
    (packPixels d m j P B).getD n 0 = B.getD n 0 := by
  induction P with
  | nil => intros; rfl
  | cons p P ih =>
    intro j B n h
    have htail : (j + 1 + P.length) * d.bits ≤ 8 * n := by
      rwa [List.length_cons, Nat.add_comm P.length, ← Nat.add_assoc] at h
    have hhead : (j + 1) * d.bits ≤ 8 * n :=
      (Nat.mul_le_mul_right _ (Nat.le_add_right _ _)).trans htail
    rw [packPixels, ih _ _ htail, packPixel_beyond d m j p B hhead]

/-- Every byte of a packed row from the row byte length on is 0. -/
theorem packRow_padding (d : PixelDepth) (m : Masks) (stride : Nat) (P : List Pixel) {n : Nat}
    (h : rowBytes P.length d.bits ≤ n) : (packRow d m stride P).getD n 0 = 0 := by
  have hbits : (0 + P.length) * d.bits ≤ 8 * n := by
    rw [Nat.zero_add]
    exact (rowBytes_is_ceil _ _).1.trans (Nat.mul_le_mul_left 8 h)
  rw [packRow, packPixels_beyond d m P 0 _ hbits, getD_replicate_zero]

/-- The same for row `i` of a framed engine, in the terms of its registers. -/
theorem State.FramedAs.packRow_gridRow_padding {s : State} {d : PixelDepth} (hf : s.FramedAs d)
    (i : Nat) {n : Nat} (h : s.rowbytes.toNat ≤ n) :
    (packRow d s.masks s.stride.toNat (s.gridRow i)).getD n 0 = 0 :=
  packRow_padding d _ _ _ (by rwa [State.gridRow_length, ← hf.rowbytes])

/-! ### Unpacking reads the data bytes only -/

theorem State.FramedAs.with_pbuf {s : State} {d : PixelDepth} (hf : s.FramedAs d) (b : Memory) :
    State.FramedAs { s with pbuf := b } d :=
  hf.congr rfl rfl rfl rfl rfl rfl rfl rfl rfl hf.cfgok hf.spos

theorem State.packedRow_with_pbuf (s : State) (b : Memory) {i : Nat}
    (hb : ∀ n, n < s.rowbytes.toNat →
      b.byteAt .pbuf (i * s.stride.toNat + n) = s.byte .pbuf (i * s.stride.toNat + n)) :
    State.packedRow { s with pbuf := b } i = s.packedRow i := by
  rw [State.packedRow_eq, State.packedRow_eq]
  exact List.map_congr_left fun n hn => hb n (List.mem_range.1 hn)

theorem State.unpackInto_with_pbuf (s : State) (d : PixelDepth) (g b : Memory) {i : Nat}
    (hb : ∀ n, n < s.rowbytes.toNat →
      b.byteAt .pbuf (i * s.stride.toNat + n) = s.byte .pbuf (i * s.stride.toNat + n)) :
    State.unpackInto { s with pbuf := b } d g i = s.unpackInto d g i := by
  rw [State.unpackInto, State.unpackedRow, State.packedRow_with_pbuf s b hb]
  rfl

theorem State.unpackRows_with_pbuf (s : State) (d : PixelDepth) (b : Memory) (rows : Nat)
    (hb : ∀ i n, i < rows → n < s.rowbytes.toNat →
      b.byteAt .pbuf (i * s.stride.toNat + n) = s.byte .pbuf (i * s.stride.toNat + n)) :
    State.unpackRows { s with pbuf := b } d rows = s.unpackRows d rows := by
  induction rows with
  | zero => rfl
  | succ rows ih =>
    have hrest := ih fun i n hi => hb i n (Nat.lt_succ_of_lt hi)
    have hlast := fun n => hb rows n (Nat.lt_succ_self rows)
    rw [State.unpackRows, hrest, State.unpackInto_with_pbuf s d _ b hlast, State.unpackRows]

/-! ### The padding rule -/

theorem packr_writes_zero_padding {s : State} {d : PixelDepth} (hf : s.FramedAs d)
    (hr : s.row.toNat < s.h) : ∃ t, exec .packr s = .next t ∧
      ∀ n, s.rowbytes.toNat ≤ n → n < s.stride.toNat →
        t.byte .pbuf (s.row.toNat * s.stride.toNat + n) = 0 :=
  ⟨_, execPackr_eq hf hr, fun _ hpad hn =>
    (State.byteAt_packInto_inside s d s.pbuf _ hn).trans (hf.packRow_gridRow_padding _ hpad)⟩

theorem pack_writes_zero_padding {s : State} {d : PixelDepth} (hf : s.FramedAs d) :
    ∃ t, exec .pack s = .next t ∧ ∀ i n, i < s.h → s.rowbytes.toNat ≤ n → n < s.stride.toNat →
      t.byte .pbuf (i * s.stride.toNat + n) = 0 :=
  ⟨_, execPack_eq hf, fun _ _ hi hpad hn =>
    (State.byteAt_packRows_inside s d s.h hi hn).trans (hf.packRow_gridRow_padding _ hpad)⟩

/-- Settles O21: packing starts from zeros and no pixel reaches the padding; the packed row that
unpacking reads ends at the row byte length. -/
theorem paddingZeroOnPackSkippedOnUnpack : Obligations.PaddingZeroOnPackSkippedOnUnpack := by
  refine ⟨fun s d hf hr => packr_writes_zero_padding hf hr, fun s d hf => pack_writes_zero_padding hf,
    fun s d b hf hb => ⟨fun hr => ?_, ?_⟩⟩
  · exact ⟨_, _, execUnpackr_eq hf hr, execUnpackr_eq (hf.with_pbuf b) hr,
      State.unpackInto_with_pbuf s d s.grid b fun n => hb _ n hr, rfl, rfl⟩
  · exact ⟨_, _, execUnpack_eq hf, execUnpack_eq (hf.with_pbuf b),
      State.unpackRows_with_pbuf s d b s.h hb, rfl, rfl⟩

end Sys2Proof.Machine
end

section
/-! PROOF. Unpacking a row at the depths without masks (42_pixel_codec.md R131, R132, R133, R135). -/

namespace Sys2Proof.Machine

open Sys2Proof

/-! ### Bits and nibbles of a byte -/

theorem shift_and_one_toNat (v : Byte) (k : Nat) : (v >>> k &&& 1).toNat = (v.getLsbD k).toNat := by
  rw [BitVec.toNat_and, BitVec.toNat_ushiftRight, BitVec.getLsbD, Nat.toNat_testBit,
    ← Nat.shiftRight_eq_div_pow]
  exact Nat.and_one_is_mod _

theorem high_nibble_toNat (v : Byte) : (v >>> 4).toNat = v.toNat / 16 := by
  rw [BitVec.toNat_ushiftRight, Nat.shiftRight_eq_div_pow]

theorem low_nibble_toNat (v : Byte) : (v &&& 0x0F).toNat = v.toNat % 16 :=
  (BitVec.toNat_and v 0x0F).trans (Nat.and_two_pow_sub_one_eq_mod v.toNat 4)

/-! ### One pixel -/

/-- The value of pixel `j` at depth 1 is one bit of its byte, the most significant bit leftmost. -/
theorem unpackPixel_d1_toNat (m : Masks) (B : List Byte) (j : Nat) :
    (unpackPixel .d1 m B j).x.toNat = ((B.getD (j / 8) 0).getLsbD (7 - j % 8)).toNat :=
  shift_and_one_toNat _ _

/-- The value of pixel `j` at depth 4: the high nibble of its byte for even `j`, the low one for odd. -/
theorem unpackPixel_d4_toNat (m : Masks) (B : List Byte) (j : Nat) :
    (unpackPixel .d4 m B j).x.toNat
      = if j % 2 = 0 then (B.getD (j / 2) 0).toNat / 16 else (B.getD (j / 2) 0).toNat % 16 := by
  rw [unpackPixel, apply_ite BitVec.toNat, high_nibble_toNat, low_nibble_toNat]

theorem unpackPixel_d1_congr (m : Masks) {B B' : List Byte} {j : Nat}
    (h : (B.getD (j / 8) 0).getLsbD (7 - j % 8) = (B'.getD (j / 8) 0).getLsbD (7 - j % 8)) :
    unpackPixel .d1 m B j = unpackPixel .d1 m B' j := by
  have hx : (unpackPixel .d1 m B j).x = (unpackPixel .d1 m B' j).x :=
    BitVec.eq_of_toNat_eq (by rw [unpackPixel_d1_toNat, unpackPixel_d1_toNat, h])
  exact congrArg (Pixel.mk 0 0 0) hx

theorem unpackPixel_d4_congr (m : Masks) {B B' : List Byte} {j : Nat}
    (hhigh : j % 2 = 0 → (B.getD (j / 2) 0).toNat / 16 = (B'.getD (j / 2) 0).toNat / 16)
    (hlow : j % 2 = 1 → (B.getD (j / 2) 0).toNat % 16 = (B'.getD (j / 2) 0).toNat % 16) :
    unpackPixel .d4 m B j = unpackPixel .d4 m B' j := by
  have hx : (unpackPixel .d4 m B j).x = (unpackPixel .d4 m B' j).x := by
    apply BitVec.eq_of_toNat_eq
    rw [unpackPixel_d4_toNat, unpackPixel_d4_toNat]
    split
    case isTrue heven => exact hhigh heven
    case isFalse hodd => exact hlow (Nat.mod_two_ne_zero.1 hodd)
  exact congrArg (Pixel.mk 0 0 0) hx

/-! ### The row -/

/-- A row is unpacked pixel by pixel: rows that agree on every pixel unpack alike. -/
theorem unpackRow_congr {d : PixelDepth} {m m' : Masks} {W : Nat} {B B' : List Byte}
    (h : ∀ j, j < W → unpackPixel d m B j = unpackPixel d m' B' j) :
    unpackRow d m W B = unpackRow d m' W B' :=
  List.map_congr_left fun j hj => h j (List.mem_range.1 hj)

/-- Settles O10: each pixel is one bit, one nibble or one byte of the row, so rows that agree on those
agree pixel by pixel. -/
theorem unpackIndexedRows : Obligations.UnpackIndexedRows := by
  refine ⟨fun m W B j hj => ⟨?bit, ?nibble, ?byte⟩, unpackRow_length, ?sameBits, ?sameNibbles,
    fun m => ⟨rfl, rfl, rfl⟩⟩
  case bit =>
    exact ⟨_, unpackRow_getElem? .d1 m B hj, (unpackPixel_d1_toNat m B j).trans (Nat.toNat_testBit _ _)⟩
  case nibble => exact ⟨_, unpackRow_getElem? .d4 m B hj, unpackPixel_d4_toNat m B j⟩
  case byte => exact unpackRow_getElem? .d8 m B hj
  case sameBits => exact fun m W B B' h => unpackRow_congr fun j hj => unpackPixel_d1_congr m (h j hj)
  case sameNibbles =>
    exact fun m W B B' hhigh hlow =>
      unpackRow_congr fun j hj => unpackPixel_d4_congr m (hhigh j hj) (hlow j hj)

/-- Settles O11: a pixel at depth 24 is the three bytes at its place, and reads no mask. -/
theorem unpackDepth24 : Obligations.UnpackDepth24 :=
  ⟨fun m _ B _ hj => unpackRow_getElem? .d24 m B hj, fun _ _ _ _ => unpackRow_congr fun _ _ => rfl,
    fun _ => rfl⟩

end Sys2Proof.Machine
end

section
/-! PROOF. The decoder and the encoder of command words (30_encoding.md R90 to R95). -/

namespace Sys2Proof.Machine

open Sys2Proof

/-! ### Decoding and encoding -/

theorem decodeOpcode_opcode (i : Instr) : decodeOpcode (opcode i) = some i := by cases i <;> rfl

/-- An opcode that selects a command is that command's opcode. -/
theorem eq_opcode_of_decodeOpcode {op : Byte} {i : Instr} (h : decodeOpcode op = some i) :
    op = opcode i := by
  apply BitVec.eq_of_toNat_eq
  unfold decodeOpcode at h
  split at h <;> cases h <;> assumption

theorem decode_encode (i : Instr) : decode (encode i) = .ok i := by cases i <;> rfl

/-- A word that selects a command has a zero field RSV and the command's opcode below it. -/
theorem decode_ok {w : Word} {i : Instr} (h : decode w = .ok i) :
    w.extractLsb' 8 24 = 0#24 ∧ decodeOpcode (w.extractLsb' 0 8) = some i := by
  unfold decode at h
  split at h
  · cases h
  · split at h <;> cases h
    exact ⟨of_not_not ‹_›, ‹_›⟩

/-- The two fields of a word are the whole of it. -/
theorem eq_encode_of_decode {w : Word} {i : Instr} (h : decode w = .ok i) : w = encode i := by
  obtain ⟨hrsv, hop⟩ := decode_ok h
  calc
    w = w.extractLsb' 8 24 ++ w.extractLsb' 0 8 :=
      (BitVec.extractLsb'_append_extractLsb' (w := 24) (len := 8)).symm
    _ = encode i := by rw [hrsv, eq_opcode_of_decodeOpcode hop, encode]

/-- Settles O44: one direction splits the word into its fields, the other runs the decoder. -/
theorem decodeInvertsEncode : Obligations.DecodeInvertsEncode := fun _ i =>
  ⟨eq_encode_of_decode, fun h => h ▸ decode_encode i⟩

/-- Settles O45: the command words are the encoded commands; the three illegal ones run the decoder. -/
theorem specWordsDecode : Obligations.SpecWordsDecode :=
  ⟨decode_encode .tzc, decode_encode .extract, decode_encode .deposit, decode_encode .frame,
    decode_encode .unpackr, decode_encode .packr, decode_encode .unpack, decode_encode .pack,
    decode_encode .srwd, decode_encode .sput, decode_encode .sget, decode_encode .swrite,
    decode_encode .sread, rfl, rfl, rfl⟩

/-- A word that is no command's word is rejected. -/
theorem decode_error_of_illegal {w : Word} (h : ∀ i, w ≠ encode i) : ∃ e, decode w = .error e := by
  cases hd : decode w with
  | error e => exact ⟨e, rfl⟩
  | ok i => exact absurd (eq_encode_of_decode hd) (h i)

end Sys2Proof.Machine
end

section
/-! PROOF. The bit-mask extractor (40_bitmask.md): TZC, DEPOSIT and the laws R116. -/

namespace Sys2Proof.Machine

open Sys2Proof

/-! ### TZC and DEPOSIT complete -/

theorem exec_tzc (s : State) : exec .tzc s = .next
    { s with res := BitVec.ofNat 32 (tzc s.opb), status := Status.good s.status.cfgok } := rfl

theorem exec_deposit (s : State) : exec .deposit s = .next
    { s with res := deposit s.opa s.opb, status := Status.good s.status.cfgok } := rfl

/-- A register holds every number below two to its width exactly. -/
theorem toNat_ofNat_of_lt {w n : Nat} (h : n < 2 ^ w) : (BitVec.ofNat w n).toNat = n := by
  rw [BitVec.toNat_ofNat, Nat.mod_eq_of_lt h]

theorem tzc_ofNat_toNat (m : Word) : (BitVec.ofNat 32 (tzc m)).toNat = tzc m :=
  toNat_ofNat_of_lt ((tzc_le m).trans_lt (by decide))

/-- Settles O2: the result is the number `tzc OPB`, whose bits O1 describes. -/
theorem tzcCompletes : Obligations.TzcCompletes := by
  refine fun s => ⟨_, exec_tzc s, rfl, ?_, fun h0 => ?_, fun hm => ?_⟩
  · exact (tzc_ofNat_toNat s.opb).trans_le (tzc_le s.opb)
  · simp only [h0, tzc_zero]
    rfl
  · rw [tzc_ofNat_toNat]
    exact ⟨getLsbD_tzc hm, fun _ hi => getLsbD_of_lt_tzc hi⟩

theorem deposit_toNat (c m : Word) : (deposit c m).toNat = c.toNat * 2 ^ tzc m % 2 ^ 32 := by
  rw [deposit, BitVec.toNat_shiftLeft, Nat.shiftLeft_eq]

theorem deposit_zero_mask (c : Word) : deposit c 0 = c := by
  rw [deposit, tzc_zero, BitVec.shiftLeft_zero]

/-- Settles O4: the shift as a product, the zero mask, and the examples by evaluation. -/
theorem depositCompletes : Obligations.DepositCompletes :=
  ⟨fun s => ⟨_, exec_deposit s, rfl, deposit_toNat s.opa s.opb⟩, deposit_zero_mask,
    by decide, by decide, by decide⟩

/-! ### The laws of extract and deposit -/

/-- Law (a): the shift down and the shift up cancel, since no mask bit lies below `tzc`. -/
theorem deposit_extract (v m : Word) : deposit (extract v m) m = v &&& m := by
  refine BitVec.eq_of_getLsbD_eq fun i hi => ?_
  rw [deposit_getLsbD, extract_getLsbD, BitVec.getLsbD_and]
  rcases Nat.lt_or_ge i (tzc m) with hlow | hhigh
  · simp [hlow, getLsbD_of_lt_tzc hlow]
  · simp [hi, Nat.not_lt.2 hhigh, Nat.add_sub_cancel' hhigh]

theorem IsRun.deposit_and {m : Word} {n start : Nat} (h : IsRun m n start) {c : Word}
    (hc : c.toNat < 2 ^ n) : deposit c m &&& m = deposit c m := by
  refine BitVec.eq_of_getLsbD_eq fun i _ => ?_
  rw [BitVec.getLsbD_and, h.deposit_getLsbD hc, Bool.and_assoc, Bool.and_self]

theorem IsRun.extract_deposit {m : Word} {n start : Nat} (h : IsRun m n start) {c : Word}
    (hc : c.toNat < 2 ^ n) : extract (deposit c m) m = c := by
  refine BitVec.eq_of_getLsbD_eq fun i _ => ?_
  rw [h.extract_getLsbD, h.deposit_getLsbD hc, h.getLsbD, Nat.add_sub_cancel_left]
  rcases Nat.lt_or_ge i n with hin | hout
  · simp [hin]
  · simp [getLsbD_of_toNat_lt hc hout]

/-- What lies inside one of two disjoint masks has no bit under the other. -/
theorem and_eq_zero_of_inside {x m m' : Word} (hx : x &&& m' = x) (hm : m &&& m' = 0) :
    x &&& m = 0 := by
  rw [← hx, BitVec.and_assoc, BitVec.and_comm m', hm]
  exact BitVec.and_zero

/-- Bits outside a mask do not reach its extracted value. -/
theorem extract_or_of_and_eq_zero {x y m : Word} (hy : y &&& m = 0) :
    extract (x ||| y) m = extract x m :=
  extract_congr (by
    rw [BitVec.and_or_distrib_right, hy]
    exact BitVec.or_zero)

theorem toNat_or_of_and_eq_zero {x y : Word} (h : x &&& y = 0) :
    (x ||| y).toNat = x.toNat + y.toNat := by
  rw [← BitVec.add_eq_or_of_and_eq_zero x y h, BitVec.toNat_add_of_and_eq_zero h]

/-- Law (c): two deposits under disjoint masks do not meet, so each is extracted from their OR. -/
theorem deposits_disjoint {m₁ m₂ c₁ c₂ : Word} (h₁ : deposit c₁ m₁ &&& m₁ = deposit c₁ m₁)
    (h₂ : deposit c₂ m₂ &&& m₂ = deposit c₂ m₂) (hm : m₁ &&& m₂ = 0) :
    extract (deposit c₁ m₁ ||| deposit c₂ m₂) m₁ = extract (deposit c₁ m₁) m₁
      ∧ extract (deposit c₁ m₁ ||| deposit c₂ m₂) m₂ = extract (deposit c₂ m₂) m₂
      ∧ (deposit c₁ m₁ ||| deposit c₂ m₂).toNat = (deposit c₁ m₁).toNat + (deposit c₂ m₂).toNat := by
  have hm' : m₂ &&& m₁ = 0 := by rwa [BitVec.and_comm]
  have hout₁ : deposit c₁ m₁ &&& m₂ = 0 := and_eq_zero_of_inside h₁ hm'
  have hout₂ : deposit c₂ m₂ &&& m₁ = 0 := and_eq_zero_of_inside h₂ hm
  refine ⟨extract_or_of_and_eq_zero hout₂, ?_, toNat_or_of_and_eq_zero ?_⟩
  · rw [BitVec.or_comm, extract_or_of_and_eq_zero hout₁]
  · rw [← h₂, BitVec.and_comm (deposit c₂ m₂), ← BitVec.and_assoc, hout₁]
    exact BitVec.zero_and

theorem extract_le_fieldMax (v m : Word) : (extract v m).toNat ≤ fieldMax m := by
  rw [fieldMax, extract_toNat, extract_toNat, BitVec.and_self, BitVec.toNat_and]
  exact Nat.div_le_div_right Nat.and_le_right

/-- Settles O5: the laws (a) to (d) by name. -/
theorem maskLaws : Obligations.MaskLaws := by
  refine ⟨deposit_extract, fun m c n start h hc => ⟨h.deposit_and hc, h.extract_deposit hc⟩,
    fun m₁ m₂ c₁ c₂ n₁ n₂ b₁ b₂ h₁ h₂ hm hc₁ hc₂ => ?_, extract_le_fieldMax,
    fun m n start h => h.extract_self⟩
  have hdisjoint := deposits_disjoint (h₁.deposit_and hc₁) (h₂.deposit_and hc₂) hm
  rwa [h₁.extract_deposit hc₁, h₂.extract_deposit hc₂] at hdisjoint

end Sys2Proof.Machine
end

section
/-! PROOF. FRAME (41_row_framing.md R125) and the bounds of a framed engine (R126). -/

namespace Sys2Proof.Machine

open Sys2Proof

/-! ### What FRAME answers -/

theorem execFrame_dimensions {s : State} (h : s.w = 0 ∨ s.h = 0) :
    execFrame s = .next (s.failFrame .invalidDimensions) := by
  rw [execFrame, if_pos (by omega)]

theorem PixelDepth.ofBits_eq_none {n : Nat} (h : ∀ d : PixelDepth, n ≠ d.bits) :
    PixelDepth.ofBits n = none := by
  cases hd : PixelDepth.ofBits n with
  | none => rfl
  | some d => exact absurd (PixelDepth.bits_of_ofBits hd) (h d)

theorem execFrame_depth {s : State} (hw : s.w ≠ 0) (hh : s.h ≠ 0)
    (hd : ∀ d : PixelDepth, s.depth.toNat ≠ d.bits) :
    execFrame s = .next (s.failFrame .invalidDepth) := by
  rw [execFrame, if_neg (by omega), PixelDepth.ofBits_eq_none hd]

theorem execFrame_allocation {s : State} {d : PixelDepth} (hw : s.w ≠ 0) (hh : s.h ≠ 0)
    (hd : s.depth.toNat = d.bits)
    (h : s.w * s.h > s.params.gridPixels ∨ imageSize s.w s.h d.bits > s.params.pbufBytes) :
    execFrame s = .next (s.failFrame .allocationFailure) := by
  rw [execFrame, if_neg (by omega), hd, PixelDepth.ofBits_bits]
  exact if_pos h

theorem execFrame_latch {s : State} {d : PixelDepth} (hw : 1 ≤ s.w) (hh : 1 ≤ s.h)
    (hd : s.depth.toNat = d.bits) (hg : s.w * s.h ≤ s.params.gridPixels)
    (hb : imageSize s.w s.h d.bits ≤ s.params.pbufBytes) :
    execFrame s = .next (s.latchFrame d.bits).succeed := by
  rw [execFrame, if_neg (by omega), hd, PixelDepth.ofBits_bits]
  exact if_neg (by omega)

/-- Settles O8: the three failing branches, in the order of the checks. -/
theorem frameFailsInOrder : Obligations.FrameFailsInOrder := fun _ =>
  ⟨execFrame_dimensions, execFrame_depth, fun _ => execFrame_allocation⟩

/-! ### The bounds of the derived values -/

theorem rowBytes_pos {w : Nat} (hw : 1 ≤ w) (d : PixelDepth) : 1 ≤ rowBytes w d.bits := by
  have hbits : 1 ≤ w * d.bits := Nat.mul_pos hw d.bits_pos
  unfold rowBytes
  omega

theorem strideOf_le_imageSize {h : Nat} (hh : 1 ≤ h) (w d : Nat) : strideOf w d ≤ imageSize w h d :=
  Nat.le_mul_of_pos_left _ hh

theorem capacity_lt {w h : Nat} (hg : w * h ≤ 2 ^ 30) : capacity w h < 2 ^ 29 := by
  unfold capacity
  split <;> omega

/-- Each derived value of an image inside the two memories fits its register, so FRAME latches it
exactly. -/
theorem State.latchFrame_framedAs {s : State} {d : PixelDepth} (hp : s.params.legal = true)
    (hw : 1 ≤ s.w) (hh : 1 ≤ s.h) (hd : s.depth.toNat = d.bits)
    (hg : s.w * s.h ≤ s.params.gridPixels) (hb : imageSize s.w s.h d.bits ≤ s.params.pbufBytes) :
    (s.latchFrame d.bits).FramedAs d := by
  obtain ⟨hgrid, hpbuf, -⟩ := (Params.legal_iff _).1 hp
  have hstride := strideOf_le_imageSize hh s.w d.bits
  have hrow := rowBytes_le_strideOf s.w d.bits
  have hcap : capacity s.w s.h < 2 ^ 29 := capacity_lt (by omega)
  exact
    { cfgok := rfl
      depth := hd
      width_pos := hw
      height_pos := hh
      grid_fits := hg
      pbuf_fits := hb
      rowbytes := toNat_ofNat_of_lt (by omega)
      pad := toNat_ofNat_of_lt (padding_lt _)
      stride := toNat_ofNat_of_lt (by omega)
      imgsize := toNat_ofNat_of_lt (by omega)
      cap := toNat_ofNat_of_lt (by omega)
      spos := Nat.zero_le _ }

/-- Settles O7: the latched registers are those of a framed engine. -/
theorem frameLatchesDerivedValues : Obligations.FrameLatchesDerivedValues := by
  intro s d hp hd hw hh hg hb
  have hf := State.latchFrame_framedAs hp hw hh hd hg hb
  refine ⟨_, execFrame_latch hw hh hd hg hb, rfl, hf.rowbytes, ?pad, ?stride, ?imgsize, ?cap⟩
  case pad => exact hf.pad.trans (congrArg padding hf.rowbytes.symm)
  case stride => exact hf.stride.trans (congrArg₂ (· + ·) hf.rowbytes hf.pad).symm
  case imgsize => exact hf.imgsize.trans (congrArg (s.h * ·) hf.stride).symm
  case cap => exact hf.cap_eq

/-- Settles O9: the derived values lie between each other and below the sizes of the memories. -/
theorem framedEngineBounds : Obligations.FramedEngineBounds := by
  intro s d hp hf
  obtain ⟨hgrid, hpbuf, -⟩ := (Params.legal_iff _).1 hp
  have hcap : s.cap.toNat < 2 ^ 29 := hf.cap.trans_lt (capacity_lt (hf.grid_fits.trans hgrid.2))
  refine ⟨hf.grid_fits.trans hgrid.2, ?_, ?_, ?_, ?_, ?_, hcap, hf.cap_le_msg hp⟩
  · exact (rowBytes_pos hf.width_pos d).trans_eq hf.rowbytes.symm
  · rw [hf.rowbytes, hf.stride]
    exact rowBytes_le_strideOf _ _
  · rw [hf.stride, hf.imgsize]
    exact strideOf_le_imageSize hf.height_pos _ _
  · exact (hf.imgsize.trans_le hf.pbuf_fits).trans hpbuf.2.1
  · exact hf.units_le.trans (Nat.mul_le_mul_left 3 hgrid.2)

end Sys2Proof.Machine
end

section
/-! PROOF. The errors commands raise, and SRWD (60_exceptions.md sections 1 and 2,
43_steganography.md section 2). -/

namespace Sys2Proof.Machine

open Sys2Proof

/-- A raise changes STATUS only. -/
theorem State.raise_eq {s : State} {c : Bool} (h : s.status.cfgok = c) (e : ErrorKind) :
    s.raise e = { s with status := Status.bad c e.code } := by
  rw [State.raise, Status.failed_eq h]

/-! ### The preambles -/

theorem exec_notConfigured {i : Instr} {s : State}
    (hi : i ∈ [Instr.unpackr, .packr, .unpack, .pack, .srwd, .sput, .sget, .swrite, .sread])
    (h : s.status.cfgok = false) : exec i s = .next (s.raise .notConfigured) := by
  cases i
  case unpackr | packr | unpack | pack => exact checkFramed_of_not_cfgok h _
  case srwd | sput | sget | swrite | sread => exact checkSteg_of_not_cfgok h _
  case tzc | extract | deposit | frame => exact absurd hi (by decide)

theorem exec_unsupportedDepth {i : Instr} {s : State}
    (hi : i ∈ [Instr.srwd, .sput, .sget, .swrite, .sread]) (h : s.status.cfgok = true)
    (hd : s.depth.toNat < 16) : exec i s = .next (s.raise .unsupportedDepth) := by
  cases i
  case srwd | sput | sget | swrite | sread => exact checkSteg_of_depth h hd _
  case tzc | extract | deposit | frame | unpackr | packr | unpack | pack =>
    exact absurd hi (by decide)

theorem exec_rowRange {i : Instr} {s : State} (hi : i ∈ [Instr.unpackr, .packr])
    (h : s.status.cfgok = true) (hr : s.h ≤ s.row.toNat) :
    exec i s = .next (s.raise .rowRange) := by
  cases i
  case unpackr | packr => exact (checkFramed_of_cfgok h _).trans (if_pos hr)
  case tzc | extract | deposit | frame | unpack | pack | srwd | sput | sget | swrite | sread =>
    exact absurd hi (by decide)

/-- Settles O37: the first check of each of the nine commands. -/
theorem notConfiguredChangesOnlyStatus : Obligations.NotConfiguredChangesOnlyStatus :=
  fun _ _ hi h => (exec_notConfigured hi h).trans (congrArg _ (State.raise_eq h _))

/-- Settles O38: the second check of each of the five commands. -/
theorem unsupportedDepthChangesOnlyStatus : Obligations.UnsupportedDepthChangesOnlyStatus :=
  fun _ _ hi h hd => (exec_unsupportedDepth hi h hd).trans (congrArg _ (State.raise_eq h _))

/-- Settles O39: the second check of both row commands. -/
theorem rowRangeChangesOnlyStatus : Obligations.RowRangeChangesOnlyStatus :=
  fun _ _ hi h hr => (exec_rowRange hi h hr).trans (congrArg _ (State.raise_eq h _))

/-! ### The channel's own errors, and SRWD -/

theorem exec_scanEnd {i : Instr} {s : State} (hi : i ∈ [Instr.sput, .sget])
    (h : s.status.cfgok = true) (hd : 16 ≤ s.depth.toNat) (hs : s.units ≤ s.spos.toNat) :
    exec i s = .next (s.raise .scanEnd) := by
  cases i
  case sput | sget => exact (checkSteg_of_ok h hd _).trans (if_pos hs)
  case tzc | extract | deposit | frame | unpackr | packr | unpack | pack | srwd | swrite | sread =>
    exact absurd hi (by decide)

theorem execSwrite_tooLarge {s : State} (h : s.status.cfgok = true) (hd : 16 ≤ s.depth.toNat)
    (hl : s.units < 32 ∨ s.cap.toNat < s.plen.toNat) :
    execSwrite s = .next (s.raise .payloadTooLarge) :=
  (checkSteg_of_ok h hd _).trans (if_pos hl)

theorem execSread_fewUnits {s : State} (h : s.status.cfgok = true) (hd : 16 ≤ s.depth.toNat)
    (hu : s.units < 32) : execSread s = .next (s.raise .invalidLength) :=
  (checkSteg_of_ok h hd _).trans (if_pos hu)

theorem execSrwd_eq {s : State} (h : s.status.cfgok = true) (hd : 16 ≤ s.depth.toNat) :
    execSrwd s = .next { s with spos := 0, status := Status.good true } := by
  rw [execSrwd, checkSteg_of_ok h hd, State.succeed, Status.succeeded_eq h]

/-- Settles O29: the third check of SPUT and of SGET. -/
theorem scanEndChangesOnlyStatus : Obligations.ScanEndChangesOnlyStatus := fun _ h hd hs =>
  have hstatus := congrArg Host.Outcome.next (State.raise_eq h _)
  ⟨(exec_scanEnd (by decide) h hd hs).trans hstatus, (exec_scanEnd (by decide) h hd hs).trans hstatus⟩

/-- Settles O31: the third check of SWRITE. -/
theorem payloadTooLargeChangesOnlyStatus : Obligations.PayloadTooLargeChangesOnlyStatus :=
  fun _ h hd hl => (execSwrite_tooLarge h hd hl).trans (congrArg _ (State.raise_eq h _))

/-- Settles O26: both checks pass and the scanner rewinds. -/
theorem srwdCompletes : Obligations.SrwdCompletes := fun _ => execSrwd_eq

/-- Settles O33: SREAD's two ways to find the length invalid. -/
theorem sreadInvalidLength : Obligations.SreadInvalidLength := by
  refine ⟨fun s d L hf hd hu hL hbits hcap => ?tooLong, fun s h hd hu => ?fewUnits⟩
  case tooLong =>
    have hlen : s.decodedLength = L := State.decodedLength_eq hL hbits
    rw [← hlen] at hcap ⊢
    exact execSread_invalid hf hd hu hcap
  case fewUnits => exact (execSread_fewUnits h hd hu).trans (congrArg _ (State.raise_eq h _))

end Sys2Proof.Machine
end

section
/-! PROOF. What the completion of a command can do, said once (30_encoding.md R100): its errors, and the
one change of a success.  From it follow STATUS, the registers and the bytes a command may change. -/

namespace Sys2Proof.Machine

open Sys2Proof

/-! ### Every completion -/

/-- The error kinds the engine raises (60_exceptions.md R190). -/
def engineKinds : List ErrorKind :=
  [.invalidDimensions, .invalidDepth, .allocationFailure, .unsupportedDepth, .payloadTooLarge,
    .invalidLength, .illegalCommand, .notConfigured, .rowRange, .scanEnd]

/-- What a successful command changes beside STATUS, with the checks it passed.  A computed value is
named by an equation, so that comparing two states never computes it. -/
inductive Effect (s : State) : Instr → State → Prop where
  | tzc (v : Word) (hv : v = BitVec.ofNat 32 (Machine.tzc s.opb)) : Effect s .tzc { s with res := v }
  | extract (v : Word) (hv : v = Machine.extract s.opa s.opb) : Effect s .extract { s with res := v }
  | deposit (v : Word) (hv : v = Machine.deposit s.opa s.opb) : Effect s .deposit { s with res := v }
  | frame (d : PixelDepth) (hd : s.depth.toNat = d.bits) (hw : 1 ≤ s.w) (hh : 1 ≤ s.h)
      (hg : s.w * s.h ≤ s.params.gridPixels) (hb : imageSize s.w s.h d.bits ≤ s.params.pbufBytes) :
      Effect s .frame (s.latchFrame d.bits)
  | unpackr (d : PixelDepth) (hc : s.status.cfgok = true) (hr : s.row.toNat < s.h)
      (hg : (s.row.toNat + 1) * s.w ≤ s.params.gridPixels) :
      Effect s .unpackr { s with grid := s.unpackInto d s.grid s.row.toNat }
  | packr (d : PixelDepth) (hc : s.status.cfgok = true) (hr : s.row.toNat < s.h)
      (hb : (s.row.toNat + 1) * s.stride.toNat ≤ s.params.pbufBytes) :
      Effect s .packr { s with pbuf := s.packInto d s.pbuf s.row.toNat }
  | unpack (d : PixelDepth) (hc : s.status.cfgok = true) (hg : s.h * s.w ≤ s.params.gridPixels) :
      Effect s .unpack { s with grid := s.unpackRows d s.h }
  | pack (d : PixelDepth) (hc : s.status.cfgok = true)
      (hb : s.h * s.stride.toNat ≤ s.params.pbufBytes) :
      Effect s .pack { s with pbuf := s.packRows d s.h }
  | srwd (hc : s.status.cfgok = true) : Effect s .srwd { s with spos := 0 }
  | sput (hc : s.status.cfgok = true) (hd : 16 ≤ s.depth.toNat) (hs : s.spos.toNat < s.units)
      (hg : s.spos.toNat + 1 ≤ 3 * s.params.gridPixels) :
      Effect s .sput { s with
        grid := putUnit s.grid s.spos.toNat (s.opa.getLsbD 0)
        spos := BitVec.ofNat 32 (s.spos.toNat + 1) }
  | sget (b : Bool) (hc : s.status.cfgok = true) (hs : s.spos.toNat < s.units)
      (hb : b = getUnit s.grid s.spos.toNat) :
      Effect s .sget { s with
        res := (BitVec.ofBool b).setWidth 32
        spos := BitVec.ofNat 32 (s.spos.toNat + 1) }
  | swrite (bits : List Bool) (hbits : bits = s.swriteBits) (hc : s.status.cfgok = true)
      (hd : 16 ≤ s.depth.toNat) (hu : 32 ≤ s.units) (hl : s.plen.toNat ≤ s.cap.toNat)
      (hg : max s.units (32 + 8 * s.plen.toNat) ≤ 3 * s.params.gridPixels) :
      Effect s .swrite { s with
        grid := putUnits s.grid 0 bits
        spos := BitVec.ofNat 32 s.units
        randomFeed := s.randomFeed.drop (s.fillerCount s.plen.toNat)
        drawPos := s.drawPos + s.fillerCount s.plen.toNat }
  | sread (L : Nat) (bs : List Byte) (hL : L = s.decodedLength) (hbs : bs = s.decodedBytes L)
      (hc : s.status.cfgok = true) (hd : 16 ≤ s.depth.toNat) (hu : 32 ≤ s.units)
      (hl : L ≤ s.cap.toNat) (hm : L ≤ s.params.msgBytes) :
      Effect s .sread { s with
        plen := BitVec.ofNat 32 L
        msg := s.msg.writeBytes 0 bs
        spos := BitVec.ofNat 32 (32 + 8 * L) }

/-- The four ways a command ends. -/
inductive Completion (s : State) : Instr → State → Prop where
  | done {i : Instr} {u : State} (h : Effect s i u) : Completion s i u.succeed
  | raised {i : Instr} (e : ErrorKind) (hi : i ≠ .frame) (he : e ∈ engineKinds) :
      Completion s i (s.raise e)
  | frameLost (e : ErrorKind) (he : e ∈ engineKinds) : Completion s .frame (s.failFrame e)
  | lengthInvalid (L : Nat) (hL : L = s.decodedLength) (hc : s.status.cfgok = true)
      (hu : 32 ≤ s.units) : Completion s .sread
        (State.raise { s with plen := BitVec.ofNat 32 L, spos := 32 } .invalidLength)

/-- Every next state of a command is one of its completions. -/
theorem exec_completion {i : Instr} {s t : State} (h : exec i s = .next t) : Completion s i t := by
  cases i
  case tzc => cases h; exact .done (.tzc _ rfl)
  case extract => cases h; exact .done (.extract _ rfl)
  case deposit => cases h; exact .done (.deposit _ rfl)
  case frame =>
    rcases execFrame_next h with ⟨e, rfl | rfl | rfl, rfl⟩ | ⟨d, hd, hw, hh, hg, hb, rfl⟩
    case inr => exact .done (.frame d hd hw hh hg hb)
    all_goals exact .frameLost _ (by decide)
  case unpackr =>
    rcases execUnpackr_next h with ⟨_, rfl⟩ | ⟨_, _, rfl⟩ | ⟨hc, hr, d, _, hg, rfl⟩
    case inr.inr => exact .done (.unpackr d hc hr hg)
    all_goals exact .raised _ (by decide) (by decide)
  case packr =>
    rcases execPackr_next h with ⟨_, rfl⟩ | ⟨_, _, rfl⟩ | ⟨hc, hr, d, _, hb, rfl⟩
    case inr.inr => exact .done (.packr d hc hr hb)
    all_goals exact .raised _ (by decide) (by decide)
  case unpack =>
    rcases execUnpack_next h with ⟨_, rfl⟩ | ⟨hc, d, _, hg, rfl⟩
    · exact .raised _ (by decide) (by decide)
    · exact .done (.unpack d hc hg)
  case pack =>
    rcases execPack_next h with ⟨_, rfl⟩ | ⟨hc, d, _, hb, rfl⟩
    · exact .raised _ (by decide) (by decide)
    · exact .done (.pack d hc hb)
  case srwd =>
    rcases execSrwd_next h with ⟨_, rfl⟩ | ⟨_, _, rfl⟩ | ⟨hc, _, rfl⟩
    case inr.inr => exact .done (.srwd hc)
    all_goals exact .raised _ (by decide) (by decide)
  case sput =>
    rcases execSput_next h with ⟨_, rfl⟩ | ⟨_, _, rfl⟩ | ⟨_, _, _, rfl⟩ | ⟨hc, hd, hs, hg, rfl⟩
    case inr.inr.inr => exact .done (.sput hc hd hs hg)
    all_goals exact .raised _ (by decide) (by decide)
  case sget =>
    rcases execSget_next h with ⟨_, rfl⟩ | ⟨_, _, rfl⟩ | ⟨_, _, _, rfl⟩ | ⟨hc, _, hs, rfl⟩
    case inr.inr.inr => exact .done (.sget _ hc hs rfl)
    all_goals exact .raised _ (by decide) (by decide)
  case swrite =>
    rcases execSwrite_next h with
      ⟨_, rfl⟩ | ⟨_, _, rfl⟩ | ⟨_, _, _, rfl⟩ | ⟨hc, hd, hu, hl, hg, rfl⟩
    case inr.inr.inr =>
      rw [State.afterFiller_eq]
      exact .done (.swrite _ rfl hc hd hu hl hg)
    all_goals exact .raised _ (by decide) (by decide)
  case sread =>
    rcases execSread_next h with ⟨_, rfl⟩ | ⟨_, _, rfl⟩ | ⟨_, _, _, rfl⟩ | ⟨hc, _, hu, _, rfl⟩
      | ⟨hc, hd, hu, hl, hm, rfl⟩
    case inr.inr.inr.inl => exact .lengthInvalid _ rfl hc hu
    case inr.inr.inr.inr => exact .done (.sread _ _ rfl rfl hc hd hu hl hm)
    all_goals exact .raised _ (by decide) (by decide)

/-! ### STATUS -/

theorem Effect.cfgok {s u : State} {i : Instr} (h : Effect s i u) (hi : i ≠ .frame) :
    u.status.cfgok = s.status.cfgok := by
  cases h
  case frame => exact absurd rfl hi
  all_goals rfl

section
variable {s t : State} {i : Instr} (h : Completion s i t)
include h

theorem Completion.status_ok : t.status.Ok := by
  cases h with
  | done he => exact Status.ok_succeeded _
  | raised e _ he =>
    obtain ⟨hcode, hne⟩ := ErrorKind.code_produced he
    exact Status.ok_failed _ hcode hne
  | frameLost e he =>
    obtain ⟨hcode, hne⟩ := ErrorKind.code_produced he
    exact Status.ok_failed _ hcode hne
  | lengthInvalid => exact Status.ok_failed _ (by decide) (by decide)

theorem Completion.not_busy : t.status.busy = false := by cases h <;> rfl

theorem Completion.is_done : t.status.done = true := by cases h <;> rfl

theorem Completion.cfgok (hi : i ≠ .frame) : t.status.cfgok = s.status.cfgok := by
  cases h with
  | done he => exact he.cfgok hi
  | frameLost => exact absurd rfl hi
  | raised | lengthInvalid => rfl

end

/-- Settles O41: STATUS after each of the four ways a command ends. -/
theorem completionSetsStatus : Obligations.CompletionSetsStatus := fun _ _ _ h =>
  have hc := exec_completion h
  ⟨hc.not_busy, hc.is_done, hc.status_ok.code, hc.status_ok.err, hc.cfgok⟩

/-! ### Failing commands -/

/-- Settles O40: a success leaves ERR 0; of the failures only FRAME's and SREAD's change more than
STATUS. -/
theorem failingCommandsLeaveNoHalfDoneWork : Obligations.FailingCommandsLeaveNoHalfDoneWork := by
  intro i s t h herr
  cases exec_completion h with
  | done => cases herr
  | raised _ hi =>
    exact ⟨rfl, rfl, rfl, rfl, rfl, fun _ _ => rfl, fun hframe => absurd hframe hi, fun _ => rfl⟩
  | frameLost =>
    exact ⟨rfl, rfl, rfl, rfl, rfl, fun hframe _ => absurd rfl hframe, fun _ => rfl, nofun⟩
  | lengthInvalid =>
    exact ⟨rfl, rfl, rfl, rfl, rfl, fun _ hsread => absurd rfl hsread, nofun, fun _ => rfl⟩

/-! ### The registers -/

/-- The fields that no command writes. -/
structure KeepsInputs (s t : State) : Prop where
  width : t.width = s.width
  height : t.height = s.height
  depth : t.depth = s.depth
  masks : t.masks = s.masks
  opa : t.opa = s.opa
  opb : t.opb = s.opb
  row : t.row = s.row
  ien : t.ien = s.ien
  pend : t.pend = s.pend
  params : t.params = s.params
  agenda : t.agenda = s.agenda
  busData : t.busData = s.busData

/-- The derived registers, which only FRAME writes. -/
structure KeepsDerived (s t : State) : Prop where
  rowbytes : t.rowbytes = s.rowbytes
  pad : t.pad = s.pad
  stride : t.stride = s.stride
  imgsize : t.imgsize = s.imgsize
  cap : t.cap = s.cap

section
variable {s u : State} {i : Instr} (h : Effect s i u)
include h

theorem Effect.keepsInputs : KeepsInputs s u := by cases h <;> constructor <;> rfl

theorem Effect.keepsDerived (hi : i ≠ .frame) : KeepsDerived s u := by
  cases h
  case frame => exact absurd rfl hi
  all_goals constructor <;> rfl

theorem Effect.res (hi : i ∉ [Instr.tzc, .extract, .deposit, .sget]) : u.res = s.res := by
  cases h
  case tzc | extract | deposit | sget => exact absurd (by decide) hi
  all_goals rfl

theorem Effect.plen (hi : i ≠ .sread) : u.plen = s.plen := by
  cases h
  case sread => exact absurd rfl hi
  all_goals rfl

theorem Effect.spos (hi : i ∉ [Instr.frame, .srwd, .sput, .sget, .swrite, .sread]) :
    u.spos = s.spos := by
  cases h
  case frame | srwd | sput | sget | swrite | sread => exact absurd (by decide) hi
  all_goals rfl

theorem Effect.draws (hi : i ≠ .swrite) : u.drawPos = s.drawPos ∧ u.randomFeed = s.randomFeed := by
  cases h
  case swrite => exact absurd rfl hi
  all_goals exact ⟨rfl, rfl⟩

end

section
variable {s t : State} {i : Instr} (h : Completion s i t)
include h

theorem Completion.keepsInputs : KeepsInputs s t := by
  cases h with
  | done he => exact { he.keepsInputs with }
  | raised | frameLost | lengthInvalid => constructor <;> rfl

theorem Completion.keepsDerived (hi : i ≠ .frame) : KeepsDerived s t := by
  cases h with
  | done he => exact { he.keepsDerived hi with }
  | frameLost => exact absurd rfl hi
  | raised | lengthInvalid => constructor <;> rfl

theorem Completion.res (hi : i ∉ [Instr.tzc, .extract, .deposit, .sget]) : t.res = s.res := by
  cases h with
  | done he => exact he.res hi
  | raised | frameLost | lengthInvalid => rfl

theorem Completion.plen (hi : i ≠ .sread) : t.plen = s.plen := by
  cases h with
  | done he => exact he.plen hi
  | lengthInvalid => exact absurd rfl hi
  | raised | frameLost => rfl

theorem Completion.spos (hi : i ∉ [Instr.frame, .srwd, .sput, .sget, .swrite, .sread]) :
    t.spos = s.spos := by
  cases h with
  | done he => exact he.spos hi
  | raised => rfl
  | frameLost | lengthInvalid => exact absurd (by decide) hi

theorem Completion.draws (hi : i ≠ .swrite) :
    t.drawPos = s.drawPos ∧ t.randomFeed = s.randomFeed := by
  cases h with
  | done he => exact he.draws hi
  | raised | frameLost | lengthInvalid => exact ⟨rfl, rfl⟩

end

/-- Settles O42: register by register, from what a completion can do. -/
theorem commandsWriteOnlyTheirResults : Obligations.CommandsWriteOnlyTheirResults := by
  intro i s t h
  have hc := exec_completion h
  have hin := hc.keepsInputs
  refine ⟨⟨hin.width, hin.height, hin.depth, hin.masks, hin.opa, hin.opb, hin.row, hin.ien, hin.pend,
    hin.params, hin.agenda, hin.busData⟩, hc.res, hc.plen, hc.spos, fun hi => ?_, hc.draws⟩
  have hder := hc.keepsDerived hi
  exact ⟨hder.rowbytes, hder.pad, hder.stride, hder.imgsize, hder.cap⟩

/-! ### The bytes -/

@[simp] theorem State.decodedBytes_length (s : State) (n : Nat) : (s.decodedBytes n).length = n := by
  simp [State.decodedBytes]

theorem not_mem_span_same {sp : Space} {a n x : Nat} :
    (sp, x) ∉ span sp a n ↔ x < a ∨ a + n ≤ x := by
  rw [mem_span, eq_self, true_and]
  omega

/-- A byte outside the write set of a successful command keeps its value. -/
theorem Effect.byte {s u : State} {i : Instr} (h : Effect s i u) {sp : Space} {a : Nat}
    (ha : (sp, a) ∉ writeSet i s) : u.byte sp a = s.byte sp a := by
  cases h
  case tzc | extract | deposit | frame | srwd | sget => cases sp <;> rfl
  case unpackr d hc hr _ =>
    cases sp
    case pbuf | msg => rfl
    case grid =>
      rw [writeSet, if_pos ⟨hc, hr⟩, not_mem_span_same, gridAddr] at ha
      exact State.byteAt_unpackInto_outside s d s.grid (by omega)
  case packr d hc hr _ =>
    cases sp
    case grid | msg => rfl
    case pbuf =>
      rw [writeSet, if_pos ⟨hc, hr⟩, not_mem_span_same, packedAddr] at ha
      exact State.byteAt_packInto_outside s d s.pbuf (by rw [Nat.succ_mul]; omega)
  case unpack d hc _ =>
    cases sp
    case pbuf | msg => rfl
    case grid =>
      rw [writeSet, if_pos hc, not_mem_span_same] at ha
      exact State.byteAt_unpackRows_outside s d s.h (by omega)
  case pack d hc _ =>
    cases sp
    case grid | msg => rfl
    case pbuf =>
      rw [writeSet, if_pos hc, not_mem_span_same] at ha
      exact State.byteAt_packRows_outside s d s.h (by omega)
  case sput hc hd hs _ =>
    cases sp
    case pbuf | msg => rfl
    case grid =>
      rw [writeSet, if_pos ⟨hc, hd, hs⟩, List.mem_singleton] at ha
      exact byteAt_putUnit_ne s.grid _ fun e => ha (by rw [e])
  case swrite bits hbits hc hd hu hl _ =>
    cases sp
    case pbuf | msg => rfl
    case grid =>
      rw [writeSet, if_pos ⟨hc, hd, hu, hl⟩, List.mem_map] at ha
      refine byteAt_putUnits_outside _ s.grid 0 fun k hk e => ha ⟨k, List.mem_range.2 ?_, ?_⟩
      · rw [hbits, State.swriteBits_length, State.fillerCount] at hk
        omega
      · rw [e, Nat.zero_add]
  case sread L bs hL hbs hc hd hu hl _ =>
    cases sp
    case grid | pbuf => rfl
    case msg =>
      rw [writeSet, if_pos ⟨hc, hd, hu, hL ▸ hl⟩, ← hL, not_mem_span_same] at ha
      refine Memory.byteAt_writeBytes_outside s.msg .msg (.inr ?_)
      rw [hbs, State.decodedBytes_length]
      omega

theorem Completion.byte {s t : State} {i : Instr} (h : Completion s i t) {sp : Space} {a : Nat}
    (ha : (sp, a) ∉ writeSet i s) : t.byte sp a = s.byte sp a := by
  cases h with
  | done he => exact (State.succeed_byte _ sp a).trans (he.byte ha)
  | raised | frameLost | lengthInvalid => cases sp <;> rfl

/-- Settles O43: successes by the bytes of their effect, failures because they write none. -/
theorem commandsWriteOnlyTheirBytes : Obligations.CommandsWriteOnlyTheirBytes :=
  fun _ _ _ _ _ h ha => (exec_completion h).byte ha

end Sys2Proof.Machine
end

section
/-! PROOF. The invariant (10_state.md, 41_row_framing.md section 3): what keeps it, that every step
does, and that from it every command completes (20_memory.md R78, 70_reset_and_hazards.md R238). -/

namespace Sys2Proof.Machine

open Sys2Proof

/-! ### Changes outside the frame -/

/-- What the frame's part of the invariant speaks of, unchanged. -/
structure KeepsFrame (s t : State) : Prop where
  params : t.params = s.params
  width : t.width = s.width
  height : t.height = s.height
  depth : t.depth = s.depth
  rowbytes : t.rowbytes = s.rowbytes
  pad : t.pad = s.pad
  stride : t.stride = s.stride
  imgsize : t.imgsize = s.imgsize
  cap : t.cap = s.cap
  spos : t.spos = s.spos
  cfgok : t.status.cfgok = s.status.cfgok

theorem KeepsFrame.unframed {s t : State} (h : KeepsFrame s t) (hu : s.Unframed) : t.Unframed where
  cfgok := h.cfgok.trans hu.cfgok
  rowbytes := h.rowbytes.trans hu.rowbytes
  pad := h.pad.trans hu.pad
  stride := h.stride.trans hu.stride
  imgsize := h.imgsize.trans hu.imgsize
  cap := h.cap.trans hu.cap
  spos := h.spos.trans hu.spos

theorem KeepsFrame.framedAs {s t : State} {d : PixelDepth} (h : KeepsFrame s t) (hf : s.FramedAs d) :
    t.FramedAs d :=
  hf.congr h.params h.width h.height h.depth h.rowbytes h.pad h.stride h.imgsize h.cap
    (h.cfgok.trans hf.cfgok)
    (by rw [State.units, State.w, State.h, h.spos, h.width, h.height]; exact hf.spos)

theorem State.Inv.of_keepsFrame {s t : State} (hi : s.Inv) (h : KeepsFrame s t) (hm : t.memOk)
    (hst : t.status.Ok) : t.Inv where
  params := by rw [h.params]; exact hi.params
  mem := hm
  frame := hi.frame.imp h.unframed fun ⟨d, hf⟩ => ⟨d, h.framedAs hf⟩
  status := hst

theorem State.Inv.with_agenda {s : State} (hi : s.Inv) (l : List Turn) :
    State.Inv { s with agenda := l } :=
  hi.of_keepsFrame (by constructor <;> rfl) hi.mem hi.status

theorem State.Inv.with_busData {s : State} (hi : s.Inv) (b : BusData) :
    State.Inv { s with busData := b } :=
  hi.of_keepsFrame (by constructor <;> rfl) hi.mem hi.status

theorem State.Inv.raise {s : State} (hi : s.Inv) {e : ErrorKind} (he : e ∈ engineKinds) :
    (s.raise e).Inv :=
  have ⟨hcode, hne⟩ := ErrorKind.code_produced he
  hi.of_keepsFrame (by constructor <;> rfl) hi.mem (Status.ok_failed _ hcode hne)

theorem State.Inv.issue {s : State} (hi : s.Inv) (w : Word) : (s.issue w).Inv :=
  hi.of_keepsFrame (by constructor <;> rfl) hi.mem (Status.ok_issued _)

/-! ### Completions keep the invariant -/

theorem Effect.memOk {s u : State} {i : Instr} (h : Effect s i u) (hm : s.memOk) : u.memOk := by
  obtain ⟨hg, hp, hm, hgb, hpb, hmb⟩ := hm
  cases h with
  | tzc | extract | deposit | frame | srwd | sget => exact ⟨hg, hp, hm, hgb, hpb, hmb⟩
  | unpackr d _ _ hfit =>
    exact ⟨State.wf_unpackInto s d _ hg, hp, hm, State.below_unpackInto s d hgb hfit, hpb, hmb⟩
  | packr d _ _ hfit =>
    exact ⟨hg, State.wf_packInto s d _ hp, hm, hgb, State.below_packInto s d hpb hfit, hmb⟩
  | unpack d _ hfit =>
    exact ⟨State.wf_unpackRows s d _ hg, hp, hm, State.below_unpackRows s d hgb hfit, hpb, hmb⟩
  | pack d _ hfit =>
    exact ⟨hg, State.wf_packRows s d _ hp, hm, hgb, State.below_packRows s d hpb hfit, hmb⟩
  | sput _ _ _ hfit =>
    exact ⟨Memory.wf_write hg _ _, hp, hm, Memory.below_write hgb (unitAddr_lt_grid hfit) _, hpb, hmb⟩
  | swrite bits hbits _ _ _ _ hfit =>
    have hlen : 0 + bits.length ≤ 3 * s.params.gridPixels := by
      rw [hbits, State.swriteBits_length, State.fillerCount]
      omega
    exact ⟨wf_putUnits _ 0 hg, hp, hm, below_putUnits _ hgb hlen, hpb, hmb⟩
  | sread L bs _ hbs _ _ _ _ hfit =>
    have hlen : 0 + bs.length ≤ s.params.msgBytes := by
      rw [hbs, State.decodedBytes_length, Nat.zero_add]
      exact hfit
    exact ⟨hg, hp, Memory.wf_writeBytes _ _ hm, hgb, hpb, Memory.below_writeBytes _ hmb hlen⟩

theorem toNat_ofNat_le (w n : Nat) : (BitVec.ofNat w n).toNat ≤ n := by
  rw [BitVec.toNat_ofNat]
  exact Nat.mod_le _ _

/-- The scan position never passes the end of the scan. -/
theorem Effect.spos_le {s u : State} {i : Instr} {d : PixelDepth} (h : Effect s i u)
    (hf : s.FramedAs d) : u.spos.toNat ≤ s.units := by
  cases h with
  | tzc | extract | deposit | unpackr | packr | unpack | pack => exact hf.spos
  | frame | srwd => exact Nat.zero_le _
  | sput _ _ hs => exact (toNat_ofNat_le _ _).trans hs
  | sget _ _ hs => exact (toNat_ofNat_le _ _).trans hs
  | swrite => exact toNat_ofNat_le _ _
  | sread L _ _ _ _ _ hu hl =>
    rw [hf.cap_eq, if_neg (by omega)] at hl
    exact (toNat_ofNat_le _ _).trans (by omega)

theorem Completion.spos_le {s t : State} {i : Instr} {d : PixelDepth} (h : Completion s i t)
    (hf : s.FramedAs d) : t.spos.toNat ≤ s.units := by
  cases h with
  | done he => exact he.spos_le hf
  | raised => exact hf.spos
  | frameLost => exact Nat.zero_le _
  | lengthInvalid _ _ _ hu => exact hu

/-- Without a frame only FRAME moves the scan position. -/
theorem Completion.spos_of_unframed {s t : State} {i : Instr} (h : Completion s i t)
    (hi : i ≠ .frame) (hc : s.status.cfgok = false) : t.spos = s.spos := by
  have hframe : s.status.cfgok ≠ true := by rw [hc]; decide
  cases h with
  | raised => rfl
  | frameLost => exact absurd rfl hi
  | lengthInvalid _ _ hc' => exact absurd hc' hframe
  | done he =>
    cases he
    case frame => exact absurd rfl hi
    case tzc | extract | deposit => rfl
    all_goals exact absurd ‹s.status.cfgok = true› hframe

theorem Completion.memOk {s t : State} {i : Instr} (h : Completion s i t) (hm : s.memOk) :
    t.memOk := by
  cases h with
  | done he => exact he.memOk hm
  | raised | frameLost | lengthInvalid => exact hm

/-- A frame that FRAME does not touch stays, its scan position aside. -/
theorem Completion.keeps_frame {s t : State} {i : Instr} (h : Completion s i t) (hi : i ≠ .frame)
    (hf : s.Unframed ∨ ∃ d, s.FramedAs d) : t.Unframed ∨ ∃ d, t.FramedAs d := by
  have hin := h.keepsInputs
  have hder := h.keepsDerived hi
  have hc := h.cfgok hi
  rcases hf with hu | ⟨d, hf⟩
  · have hs := h.spos_of_unframed hi hu.cfgok
    exact .inl (KeepsFrame.unframed { hin, hder with spos := hs, cfgok := hc } hu)
  · have hs : t.spos.toNat ≤ t.units := by
      rw [State.units, State.w, State.h, hin.width, hin.height]
      exact h.spos_le hf
    exact .inr ⟨d, hf.congr hin.params hin.width hin.height hin.depth hder.rowbytes hder.pad hder.stride
      hder.imgsize hder.cap (hc.trans hf.cfgok) hs⟩

/-- FRAME leaves a framed engine or none. -/
theorem Completion.frame_frames {s t : State} (h : Completion s .frame t)
    (hp : s.params.legal = true) : t.Unframed ∨ ∃ d, t.FramedAs d := by
  cases h with
  | raised _ hi => exact absurd rfl hi
  | frameLost => exact .inl ⟨rfl, rfl, rfl, rfl, rfl, rfl, rfl⟩
  | done he =>
    cases he with
    | frame d hd hw hh hg hb =>
      exact .inr ⟨d, KeepsFrame.framedAs (by constructor <;> rfl)
        (State.latchFrame_framedAs hp hw hh hd hg hb)⟩

theorem Completion.inv {s t : State} {i : Instr} (h : Completion s i t) (hi : s.Inv) : t.Inv where
  params := by rw [h.keepsInputs.params]; exact hi.params
  mem := h.memOk hi.mem
  frame := by
    rcases eq_or_ne i .frame with rfl | hne
    · exact h.frame_frames hi.params
    · exact h.keeps_frame hne hi.frame
  status := h.status_ok

theorem engineStep_inv {s t : State} (hi : s.Inv) (h : engineStep s = .next t) : t.Inv := by
  rcases engineStep_next h with ⟨-, rfl⟩ | ⟨-, i, -, hexec⟩ | ⟨-, rfl⟩
  · exact hi
  · exact (exec_completion hexec).inv hi
  · exact hi.raise (by decide)

/-! ### Host accesses keep the invariant -/

theorem Status.Ok.with_cfgok {t : Status} (h : t.Ok) (c : Bool) : Status.Ok { t with cfgok := c } :=
  ⟨h.busy, h.code, h.err⟩

theorem Status.Ok.written {t : Status} (h : t.Ok) (w : Word) : (t.written w).Ok where
  busy hb := by
    obtain ⟨hdone, herr, hcode⟩ := h.busy hb
    exact ⟨by rw [Status.written, hdone, Bool.false_and], herr, hcode⟩
  code := h.code
  err := h.err

theorem Status.ok_reset : Status.reset.Ok where
  busy := nofun
  code := by decide
  err := by decide

theorem State.clearFrame_unframed (s : State) : s.clearFrame.Unframed :=
  ⟨rfl, rfl, rfl, rfl, rfl, rfl, rfl⟩

/-- A write to WIDTH, HEIGHT or DEPTH loses the frame; no other write touches it. -/
theorem State.Inv.writeReg {s : State} (hi : s.Inv) (r : Reg) (v : Word) : (s.writeReg r v).Inv := by
  cases r
  case width | height | depth =>
    have hu := State.clearFrame_unframed s
    exact ⟨hi.params, hi.mem, .inl ⟨hu.cfgok, hu.rowbytes, hu.pad, hu.stride, hu.imgsize, hu.cap,
      hu.spos⟩, hi.status.with_cfgok false⟩
  case cmd => exact hi.issue v
  case status =>
    exact hi.of_keepsFrame (by constructor <;> rfl) hi.mem (hi.status.written v)
  case rmask | gmask | bmask | amask | rowbytes | pad | stride | imgsize | cap | opa | opb | res | row
      | plen | spos | ctrl =>
    exact hi.of_keepsFrame (by constructor <;> rfl) hi.mem hi.status

theorem State.Inv.assertReset {s : State} (hi : s.Inv) : s.assertReset.Inv where
  params := by
    rw [State.assertReset, State.clearRegisters_params, State.forgetAll_params]
    exact hi.params
  mem := State.memOk_forgetAll s.abandonedWrites hi.mem
  frame := .inl ⟨rfl, rfl, rfl, rfl, rfl, rfl, rfl⟩
  status := Status.ok_reset

theorem State.Inv.writeMem {s : State} (hi : s.Inv) {sp : Space} {o : Nat} {bs : List Byte}
    (hle : o + bs.length ≤ s.params.size sp) :
    (s.setMem sp ((s.mem sp).writeBytes o bs)).Inv :=
  hi.of_keepsFrame (by cases sp <;> constructor <;> rfl) (State.memOk_setMem hi.mem hle)
    (by rw [State.setMem_status]; exact hi.status)

theorem hostStep_inv {a : HostAccess} {s t : State} (hi : s.Inv) (h : hostStep a s = .next t) :
    t.Inv := by
  rcases hostStep_next h with ⟨-, rfl⟩ | ⟨d, rfl⟩ | ⟨-, r, v, rfl⟩ | ⟨-, rfl⟩ | ⟨-, sp, o, bs, hle, rfl⟩
  · exact hi.assertReset
  · exact hi.with_busData d
  · exact hi.writeReg r v
  · exact hi
  · exact hi.writeMem hle

/-- Settles O49: reset is unframed and its memories are empty. -/
theorem resetMeetsInvariant : Obligations.ResetMeetsInvariant where
  params := by decide
  mem := ⟨rfl, rfl, rfl, rfl, rfl, rfl⟩
  frame := .inl ⟨rfl, rfl, rfl, rfl, rfl, rfl, rfl⟩
  status := Status.ok_reset

/-- Settles O50: a step is the engine's turn or a host access, on a state of the invariant. -/
theorem stepKeepsInvariant : Obligations.StepKeepsInvariant := by
  intro s t hi h
  obtain ⟨l, hstep | ⟨a, hstep⟩⟩ := step_cases s
  · exact engineStep_inv (hi.with_agenda l) (hstep ▸ h)
  · exact hostStep_inv (hi.with_agenda l) (hstep ▸ h)

/-! ### Every command completes -/

theorem execFrame_completes (s : State) : ∃ t, execFrame s = .next t := by
  unfold execFrame
  split
  · exact ⟨_, rfl⟩
  · split
    · exact ⟨_, rfl⟩
    · split <;> exact ⟨_, rfl⟩

/-- A row command finds its row inside the image or raises RowRange. -/
theorem rowCommand_completes {s : State} {d : PixelDepth} (hf : s.FramedAs d) {i : Instr}
    (hi : i ∈ [Instr.unpackr, .packr]) : ∃ t, exec i s = .next t := by
  rcases Nat.lt_or_ge s.row.toNat s.h with hlt | hge
  · cases i
    case unpackr => exact ⟨_, execUnpackr_eq hf hlt⟩
    case packr => exact ⟨_, execPackr_eq hf hlt⟩
    all_goals exact absurd hi (by decide)
  · exact ⟨_, exec_rowRange hi hf.cfgok hge⟩

/-- SPUT and SGET find a unit at the scan position or raise ScanEnd. -/
theorem scanCommand_completes {s : State} {d : PixelDepth} (hf : s.FramedAs d) (hd : 16 ≤ d.bits)
    {i : Instr} (hi : i ∈ [Instr.sput, .sget]) : ∃ t, exec i s = .next t := by
  rcases Nat.lt_or_ge s.spos.toNat s.units with hlt | hge
  · cases i
    case sput => exact ⟨_, execSput_eq hf hd hlt⟩
    case sget => exact ⟨_, execSget_eq hf hd hlt⟩
    all_goals exact absurd hi (by decide)
  · exact ⟨_, exec_scanEnd hi hf.cfgok (hf.depth ▸ hd) hge⟩

theorem execSwrite_completes {s : State} {d : PixelDepth} (hp : s.params.legal = true)
    (hf : s.FramedAs d) (hd : 16 ≤ d.bits) : ∃ t, execSwrite s = .next t := by
  by_cases hbad : s.units < 32 ∨ s.cap.toNat < s.plen.toNat
  · exact ⟨_, execSwrite_tooLarge hf.cfgok (hf.depth ▸ hd) hbad⟩
  · exact ⟨_, execSwrite_eq ⟨hp, hf, hd, by omega, by omega⟩⟩

theorem execSread_completes {s : State} {d : PixelDepth} (hp : s.params.legal = true)
    (hf : s.FramedAs d) (hd : 16 ≤ d.bits) : ∃ t, execSread s = .next t := by
  rcases Nat.lt_or_ge s.units 32 with hfew | hunits
  · exact ⟨_, execSread_fewUnits hf.cfgok (hf.depth ▸ hd) hfew⟩
  · rcases Nat.lt_or_ge s.cap.toNat s.decodedLength with hlong | hfits
    · exact ⟨_, execSread_invalid hf hd hunits hlong⟩
    · exact ⟨_, execSread_eq hp hf hd hunits hfits⟩

theorem steg_completes {s : State} {d : PixelDepth} (hp : s.params.legal = true) (hf : s.FramedAs d)
    {i : Instr} (hi : i ∈ [Instr.srwd, .sput, .sget, .swrite, .sread]) : ∃ t, exec i s = .next t := by
  rcases Nat.lt_or_ge s.depth.toNat 16 with hlt | hge
  · exact ⟨_, exec_unsupportedDepth hi hf.cfgok hlt⟩
  · have hd : 16 ≤ d.bits := hf.depth ▸ hge
    cases i
    case srwd => exact ⟨_, execSrwd_eq hf.cfgok hge⟩
    case sput | sget => exact scanCommand_completes hf hd (by decide)
    case swrite => exact execSwrite_completes hp hf hd
    case sread => exact execSread_completes hp hf hd
    all_goals exact absurd hi (by decide)

/-- From a state of the invariant every command answers a next state. -/
theorem State.Inv.exec_completes {s : State} (hi : s.Inv) (i : Instr) : ∃ t, exec i s = .next t := by
  cases i
  case tzc => exact ⟨_, exec_tzc s⟩
  case extract => exact ⟨_, exec_extract s⟩
  case deposit => exact ⟨_, exec_deposit s⟩
  case frame => exact execFrame_completes s
  all_goals
    cases hc : s.status.cfgok
    case false => exact ⟨_, exec_notConfigured (by decide) hc⟩
    obtain ⟨d, hf⟩ := hi.framed hc
  case unpackr | packr => exact rowCommand_completes hf (by decide)
  case unpack => exact ⟨_, execUnpack_eq hf⟩
  case pack => exact ⟨_, execPack_eq hf⟩
  case srwd | sput | sget | swrite | sread => exact steg_completes hi.params hf (by decide)

theorem State.Inv.engineStep_completes {s : State} (hi : s.Inv) : ∃ t, engineStep s = .next t := by
  cases hb : s.status.busy with
  | false => exact ⟨s, engineStep_idle hb⟩
  | true =>
    cases hd : decode s.pend with
    | error e => exact ⟨_, engineStep_illegal hb hd⟩
    | ok i => rw [engineStep_command hb hd]; exact hi.exec_completes i

/-- Settles O51: the engine's turn always answers a next state, and no host access faults. -/
theorem invariantStepNeverFaults : Obligations.InvariantStepNeverFaults := by
  intro s r hi h
  obtain ⟨l, hstep | ⟨a, hstep⟩⟩ := step_cases s
  · obtain ⟨t, ht⟩ := (hi.with_agenda l).engineStep_completes
    cases ht.symm.trans (hstep.symm.trans h)
  · exact hostStep_ne_fault a _ r (hstep.symm.trans h)

/-- A turn of a busy engine that answers a state leaves it idle, with DONE set and the agenda kept. -/
theorem engineStep_ends_busy {s t : State} (hb : s.status.busy = true) (h : engineStep s = .next t) :
    t.status.busy = false ∧ t.status.done = true ∧ t.agenda = s.agenda := by
  rcases engineStep_next h with ⟨hidle, -⟩ | ⟨-, i, -, hexec⟩ | ⟨-, rfl⟩
  · rw [hb] at hidle
    cases hidle
  · have hc := exec_completion hexec
    exact ⟨hc.not_busy, hc.is_done, hc.keepsInputs.agenda⟩
  · exact ⟨rfl, rfl, rfl⟩

/-- Settles O52: the engine's turn answers a state, in which the command has ended. -/
theorem enginesTurnEndsBusy : Obligations.EnginesTurnEndsBusy := by
  intro s rest hi hb hnext
  rw [step_engineNext hnext]
  obtain ⟨t, ht⟩ := (hi.with_agenda rest).engineStep_completes
  exact ⟨t, ht, engineStep_ends_busy (s := { s with agenda := rest }) hb ht⟩

end Sys2Proof.Machine
end

section
/-! PROOF. The engine's turn and the host's accesses as steps (10_state.md sections 1 and 2,
30_encoding.md section 5, 70_reset_and_hazards.md). -/

namespace Sys2Proof.Machine

open Sys2Proof

/-! ### The engine's turn -/

/-- The turn of a busy engine on a word that is no command's. -/
theorem step_illegal {s : State} {rest : List Turn} (hb : s.status.busy = true)
    (hnext : s.EngineNext rest) (hword : ∀ i : Instr, s.pend ≠ encode i) :
    step s = .next { s with status := Status.bad s.status.cfgok 16, agenda := rest } := by
  obtain ⟨e, he⟩ := decode_error_of_illegal hword
  rw [step_engineNext hnext]
  exact (engineStep_illegal (s := { s with agenda := rest }) hb he).trans
    (congrArg _ (State.raise_eq rfl _))

/-- The turn of a busy engine on a command's word. -/
theorem step_command {s : State} {rest : List Turn} {i : Instr} (hb : s.status.busy = true)
    (hnext : s.EngineNext rest) (hd : decode s.pend = .ok i) :
    step s = exec i { s with agenda := rest } :=
  (step_engineNext hnext).trans (engineStep_command (s := { s with agenda := rest }) hb hd)

/-- The turn of an idle engine. -/
theorem step_idle {s : State} {rest : List Turn} (hb : s.status.busy = false)
    (hnext : s.EngineNext rest) : step s = .next { s with agenda := rest } :=
  (step_engineNext hnext).trans (engineStep_idle (s := { s with agenda := rest }) hb)

/-- Taking the turn off an empty agenda changes nothing. -/
theorem State.with_agenda_nil {s : State} (h : s.agenda = []) : { s with agenda := [] } = s := by
  rw [← h]

/-- Settles O46: the decoder rejects the word, and the raise changes STATUS only. -/
theorem illegalWordRaisesIllegalCommand : Obligations.IllegalWordRaisesIllegalCommand :=
  fun _ _ => step_illegal

/-- Settles O47: the turn on a command's word and the idle turn, for both forms of the agenda. -/
theorem stepRunsDecodedCommand : Obligations.StepRunsDecodedCommand := by
  refine ⟨fun s i hb hnil hd => ?_, fun s i rest hb hcons hd => step_command hb (.inl hcons) hd,
    fun s hb hnil => ?_, fun s rest hb hcons => step_idle hb (.inl hcons)⟩
  · rw [step_command hb (.inr ⟨hnil, rfl⟩) hd, State.with_agenda_nil hnil]
  · rw [step_idle hb (.inr ⟨hnil, rfl⟩), State.with_agenda_nil hnil]

/-! ### Register writes -/

theorem Reg.offset_le (r : Reg) : r.offset ≤ 0x50 := by cases r <;> decide

theorem Reg.ofOffset_reserved {o : Nat} (h : 0x54 ≤ o) : Reg.ofOffset o = none := by
  cases hr : Reg.ofOffset o with
  | none => rfl
  | some r =>
    have hoff := Reg.offset_of_ofOffset hr
    have hle := r.offset_le
    omega

theorem step_writeReg {s : State} {r : Reg} {v : Word} {rest : List Turn}
    (hb : s.status.busy = false) (ha : s.agenda = .host (.writeReg r.offset .word v) :: rest) :
    step s = .next (State.writeReg { s with agenda := rest } r v) :=
  (step_host ha).trans (hostStep_writeReg (s := { s with agenda := rest }) hb r v)

theorem step_writeReserved {s : State} {o : Nat} {v : Word} {rest : List Turn}
    (hb : s.status.busy = false) (h4 : o % 4 = 0) (hlow : 0x54 ≤ o) (hlt : o < 256)
    (ha : s.agenda = .host (.writeReg o .word v) :: rest) :
    step s = .next { s with agenda := rest } := by
  rw [step_host ha]
  simp [hostStep, windowViolation_of_aligned h4 hlt, hb, State.writeOffset, Reg.ofOffset_reserved hlow]

theorem State.writeReg_byte (s : State) (r : Reg) (v : Word) (sp : Space) (a : Nat) :
    (s.writeReg r v).byte sp a = s.byte sp a := by cases r <;> cases sp <;> rfl

theorem State.writeReg_agenda (s : State) (r : Reg) (v : Word) :
    (s.writeReg r v).agenda = s.agenda := by cases r <;> rfl

theorem State.readReg_writeReg_rw (s : State) {r : Reg} (v : Word)
    (hr : r ∈ [Reg.width, .height, .rmask, .gmask, .bmask, .amask, .opa, .opb, .row, .plen]) :
    (s.writeReg r v).readReg r = v := by
  cases r
  case width | height | rmask | gmask | bmask | amask | opa | opb | row | plen => rfl
  all_goals exact absurd hr (by decide)

theorem State.writeReg_ro (s : State) {r : Reg} (v : Word)
    (hr : r ∈ [Reg.rowbytes, .pad, .stride, .imgsize, .cap, .res, .spos]) : s.writeReg r v = s := by
  cases r
  case rowbytes | pad | stride | imgsize | cap | res | spos => rfl
  all_goals exact absurd hr (by decide)

theorem Status.toWord_written (t : Status) (v : Word) :
    (t.written v).toWord = if v.getLsbD 1 then t.toWord &&& 0xFFFFFFFD else t.toWord := by
  cases hv : v.getLsbD 1 with
  | true =>
    rw [Status.written, hv, Bool.not_true, Bool.and_false]
    exact Status.toWord_clear_done t
  | false => rw [Status.written, hv, Bool.not_false, Bool.and_true, if_neg (by decide)]

/-- A write to a register without side effects changes what that register reads and nothing else. -/
theorem State.readReg_writeReg_ne (s : State) {r r' : Reg} (v : Word)
    (hr : r ∉ [Reg.width, .height, .depth, .cmd]) (hne : r' ≠ r) :
    (s.writeReg r v).readReg r' = s.readReg r' := by
  cases r
  case width | height | depth | cmd => exact absurd (by decide) hr
  all_goals cases r' <;> first | rfl | exact absurd rfl hne

/-- Settles O53: register by register, what a write leaves to be read. -/
theorem registerWriteThenRead : Obligations.RegisterWriteThenRead := by
  refine ⟨fun s r v rest hb ha => ⟨_, step_writeReg hb ha, State.writeReg_agenda _ r v, ?byte,
    State.readReg_writeReg_rw _ v, ?depth, ?ctrl, State.writeReg_ro _ v, ?status, rfl, ?others⟩,
    fun s o v rest hb h4 hlow hlt ha => step_writeReserved hb h4 hlow hlt ha⟩
  case byte =>
    intro sp a
    rw [State.writeReg_byte]
    cases sp <;> rfl
  case depth =>
    rintro rfl
    exact depth_readback v
  case ctrl =>
    rintro rfl
    exact ctrlWord_eq v
  case status =>
    rintro rfl
    exact Status.toWord_written s.status v
  case others =>
    intro hr r' hne
    rw [State.readReg_writeReg_ne _ v hr hne]
    cases r' <;> rfl

/-- Settles O54: each of the three writes clears the frame and stores its register. -/
theorem configurationWriteLosesFrame : Obligations.ConfigurationWriteLosesFrame := by
  intro s r v rest hb hr ha
  refine ⟨_, step_writeReg hb ha, ?_⟩
  cases r
  case width => exact ⟨rfl, fun hne => absurd rfl hne, fun _ => rfl, fun _ => rfl⟩
  case height => exact ⟨rfl, fun _ => rfl, fun hne => absurd rfl hne, fun _ => rfl⟩
  case depth => exact ⟨rfl, fun _ => rfl, fun _ => rfl, fun hne => absurd rfl hne⟩
  all_goals exact absurd hr (by decide)

/-! ### Issue -/

theorem step_issue {s : State} {w : Word} {rest : List Turn} (hb : s.status.busy = false)
    (ha : s.agenda = .host (.writeReg 0x48 .word w) :: rest) :
    step s = .next (State.issue { s with agenda := rest } w) := step_writeReg (r := .cmd) hb ha

/-- Settles O48: the issue, then the turn of an engine that is busy with the word. -/
theorem issueThenComplete : Obligations.IssueThenComplete :=
  ⟨fun _ _ _ hb ha => step_issue hb ha, fun _ i _ hb ha =>
    ⟨_, step_issue hb ha, rfl, step_command rfl (.inl rfl) (decode_encode i)⟩⟩

/-! ### Reads, and memory accesses -/

theorem State.readOffset_reserved (s : State) {o : Nat} (h : 0x54 ≤ o) : s.readOffset o = 0 := by
  rw [State.readOffset, Reg.ofOffset_reserved h]

theorem State.mem_with_agenda (s : State) (l : List Turn) (sp : Space) :
    State.mem { s with agenda := l } sp = s.mem sp := by cases sp <;> rfl

theorem State.readReg_with_agenda (s : State) (l : List Turn) (r : Reg) :
    State.readReg { s with agenda := l } r = s.readReg r := by cases r <;> rfl

theorem State.byte_with_agenda (s : State) (l : List Turn) (sp : Space) (a : Nat) :
    State.byte { s with agenda := l } sp a = s.byte sp a := by cases sp <;> rfl

/-- Settles O55: the two reads, and what they return. -/
theorem hostReadsHaveNoSideEffect : Obligations.HostReadsHaveNoSideEffect := by
  refine ⟨fun s o rest hb h4 hlt ha => ?reg, fun s sp o n rest hb hle ha => ?mem⟩
  case reg =>
    refine ⟨_, (step_host ha).trans (hostStep_readReg (s := { s with agenda := rest }) hb h4 hlt), ?_,
      State.readOffset_reserved _⟩
    rintro r rfl
    rw [State.readOffset_offset, State.readReg_with_agenda]
  case mem =>
    refine ⟨_, (step_host ha).trans (hostStep_readMem (s := { s with agenda := rest }) hb hle),
      Memory.bytesAt_length _ _ _ _, fun i hi => ?_⟩
    rw [List.getElem?_eq_getElem (by rwa [Memory.bytesAt_length]), Memory.bytesAt_getElem,
      State.mem_with_agenda, State.byte]

/-- Settles O56: the bytes written, the bytes beside them, the other spaces, the registers. -/
theorem hostMemoryWriteThenRead : Obligations.HostMemoryWriteThenRead := by
  intro s sp o bs rest hb hle ha
  refine ⟨_, (step_host ha).trans (hostStep_writeMem (s := { s with agenda := rest }) hb hle),
    State.setMem_agenda _ _ _, fun i hi => ?inside, fun a hout => ?outside,
    fun sp' a hne => ?spaces, ?regs⟩
  case inside =>
    rw [State.byte, State.setMem_mem_same, Memory.byteAt_writeBytes_inside _ _ _ hi,
      List.getElem?_eq_getElem hi]
  case outside =>
    rw [State.byte, State.setMem_mem_same, Memory.byteAt_writeBytes_outside _ _ hout,
      State.mem_with_agenda, State.byte]
  case spaces => rw [State.byte, State.setMem_mem_ne _ hne, State.mem_with_agenda, State.byte]
  case regs => cases sp <;> rfl

/-! ### The host contract -/

theorem windowViolation_none {o : Nat} {w : AccessWidth} (h : windowViolation o w = none) :
    w = .word := by
  unfold windowViolation at h
  split at h
  · cases h
  · exact of_not_not ‹_›

/-- A busy engine refuses every access but a reset and a word read of STATUS. -/
theorem hostStep_busy {s : State} (hb : s.status.busy = true) {a : HostAccess} (hreset : a ≠ .reset)
    (hstatus : a ≠ .readReg 0x4C .word) : ∃ r, hostStep a s = .refused r := by
  cases a with
  | reset => exact absurd rfl hreset
  | readReg o w =>
    rw [hostStep]
    cases hv : windowViolation o w with
    | some r => exact ⟨r, rfl⟩
    | none =>
      have hoff : Reg.ofOffset o ≠ some .status := fun he =>
        hstatus (by rw [windowViolation_none hv, Reg.offset_of_ofOffset he]; rfl)
      exact ⟨_, if_pos ⟨hb, hoff⟩⟩
  | writeReg o w v =>
    rw [hostStep]
    cases windowViolation o w with
    | some r => exact ⟨r, rfl⟩
    | none => exact ⟨_, if_pos hb⟩
  | readMem sp o n =>
    by_cases hlt : s.params.size sp < o + n
    · exact ⟨_, if_pos hlt⟩
    · exact ⟨_, (if_neg hlt).trans (if_pos hb)⟩
  | writeMem sp o bs =>
    by_cases hlt : s.params.size sp < o + bs.length
    · exact ⟨_, if_pos hlt⟩
    · exact ⟨_, (if_neg hlt).trans (if_pos hb)⟩

/-- The word of STATUS while a command is in flight. -/
theorem Status.Ok.toWord_busy {t : Status} (h : t.Ok) (hb : t.busy = true) :
    t.toWord = if t.cfgok then 0x00000009 else 0x00000001 := by
  obtain ⟨hdone, herr, hcode⟩ := h.busy hb
  rw [Status.toWord, hdone, herr, hcode, hb]
  cases t.cfgok <;> rfl

theorem hostStep_readStatus (s : State) :
    hostStep (.readReg 0x4C .word) s = .next { s with busData := .word s.status.toWord } :=
  if_neg fun h => h.2 rfl

theorem hostStep_badWindow {o : Nat} {w : AccessWidth} (h : w ≠ .word ∨ o % 4 ≠ 0 ∨ 256 ≤ o)
    (s : State) {a : HostAccess} (ha : a = .readReg o w ∨ ∃ v, a = .writeReg o w v) :
    ∃ r, hostStep a s = .refused r := by
  obtain ⟨r, hr⟩ := windowViolation_of_bad h
  rcases ha with rfl | ⟨v, rfl⟩
  · exact ⟨r, by simp only [hostStep, hr]⟩
  · exact ⟨r, by simp only [hostStep, hr]⟩

theorem hostStep_beyondSpace {s : State} {sp : Space} {o n : Nat} (h : s.params.size sp < o + n)
    {a : HostAccess} (ha : a = .readMem sp o n ∨ ∃ bs, a = .writeMem sp o bs ∧ bs.length = n) :
    ∃ r, hostStep a s = .refused r := by
  rcases ha with rfl | ⟨bs, rfl, rfl⟩
  · exact ⟨_, if_pos h⟩
  · exact ⟨_, if_pos h⟩

/-- Settles O57: the refusals one by one, and the poll of STATUS. -/
theorem contractViolationsAreRefused : Obligations.ContractViolationsAreRefused := by
  intro s a rest ha
  rw [step_host ha]
  refine ⟨fun hb hreset hstatus => hostStep_busy (s := { s with agenda := rest }) hb hreset hstatus,
    fun hb hpoll hi => ?poll, fun o w hacc hbad => hostStep_badWindow hbad _ hacc,
    fun sp o n hacc hlt => hostStep_beyondSpace (s := { s with agenda := rest }) hlt hacc⟩
  case poll =>
    rw [hpoll, hostStep_readStatus]
    simp only [hi.status.toWord_busy hb]

/-! ### Reset -/

theorem State.clearRegisters_readReg (s : State) (r : Reg) : s.clearRegisters.readReg r = 0 := by
  cases r
  case status => exact Status.reset_toWord
  case ctrl => exact ctrlWord_false
  all_goals rfl

theorem State.abandonedWrites_idle {s : State} (hb : s.status.busy = false) :
    s.abandonedWrites = [] := by simp [State.abandonedWrites, hb]

theorem State.abandonedWrites_illegal {s : State} {e : DecodeError} (hd : decode s.pend = .error e) :
    s.abandonedWrites = [] := by simp [State.abandonedWrites, hd]

theorem State.abandonedWrites_command {s : State} (hb : s.status.busy = true) {i : Instr}
    (hd : decode s.pend = .ok i) : s.abandonedWrites = writeSet i s := by
  simp [State.abandonedWrites, hb, hd]

theorem writeSet_with_agenda (i : Instr) (s : State) (l : List Turn) :
    writeSet i { s with agenda := l } = writeSet i s := by cases i <;> rfl

theorem State.abandonedWrites_with_agenda (s : State) (l : List Turn) :
    State.abandonedWrites { s with agenda := l } = s.abandonedWrites := by
  simp only [State.abandonedWrites, writeSet_with_agenda]

/-- A reset keeps every byte that the abandoned command could not have written. -/
theorem State.assertReset_byte (s : State) (l : List Turn) {sp : Space} {a : Nat}
    (h : (sp, a) ∉ s.abandonedWrites) :
    (State.assertReset { s with agenda := l }).byte sp a = s.byte sp a := by
  rw [State.assertReset, State.clearRegisters_byte, State.abandonedWrites_with_agenda,
    State.forgetAll_byte _ _ h, State.byte_with_agenda]

/-- Settles O58: cleared registers, and the bytes by the writes of the abandoned command. -/
theorem resetClearsRegistersKeepsMemories : Obligations.ResetClearsRegistersKeepsMemories := by
  intro s rest ha
  refine ⟨_, step_host ha, State.clearRegisters_readReg _, rfl, rfl, State.forgetAll_params _ _,
    State.forgetAll_drawPos _ _, State.forgetAll_agenda _ _, fun hb sp a => ?idle,
    fun _ hword sp a => ?illegal, fun i hb hd sp a hout => ?command⟩
  all_goals refine State.assertReset_byte s rest ?_
  case idle =>
    rw [State.abandonedWrites_idle hb]
    exact List.not_mem_nil
  case illegal =>
    obtain ⟨e, he⟩ := decode_error_of_illegal hword
    rw [State.abandonedWrites_illegal he]
    exact List.not_mem_nil
  case command =>
    rw [State.abandonedWrites_command hb hd]
    exact hout

/-! ### The interrupt output -/

theorem State.irq_of_done {s t : State} (hien : t.ien = s.ien) (hdone : t.status.done = true) :
    t.irq = s.ien := by rw [State.irq, hien, hdone, Bool.and_true]

theorem State.irq_of_not_done {t : State} (hdone : t.status.done = false) : t.irq = false := by
  rw [State.irq, hdone, Bool.and_false]

/-- Settles O59: DONE rises with each completion and falls with the acknowledgement and the issue. -/
theorem interruptFollowsDone : Obligations.InterruptFollowsDone := by
  refine ⟨fun s => rfl, fun i s t h => ?completion, fun s rest hb hnext hword => ?illegal,
    fun s v rest hb ha hv => ?ack, fun s v rest hb ha => ?issue⟩
  case completion =>
    have hc := exec_completion h
    exact State.irq_of_done hc.keepsInputs.ien hc.is_done
  case illegal => exact ⟨_, step_illegal hb hnext hword, State.irq_of_done rfl rfl⟩
  case ack =>
    have hdone : (s.status.written v).done = false := by
      rw [Status.written, hv, Bool.not_true, Bool.and_false]
    exact ⟨_, step_writeReg (r := .status) hb ha, State.irq_of_not_done hdone⟩
  case issue => exact ⟨_, step_issue hb ha, State.irq_of_not_done rfl⟩

end Sys2Proof.Machine
end

section
/-! PROOF. The row functions of the codec (42_pixel_codec.md sections 2 and 3): the masked depths on
unpacking, and every depth on packing. -/

namespace Sys2Proof.Machine

open Sys2Proof

/-! ### Unpacking at the masked depths -/

theorem component_toNat (w m : Word) : (component w m).toNat = (extract w m).toNat % 2 ^ 8 :=
  BitVec.toNat_setWidth 8 _

theorem rowWord16_toNat (B : List Byte) (j : Nat) : (rowWord16 B j).toNat
    = (B.getD (2 * j) 0).toNat + 2 ^ 8 * (B.getD (2 * j + 1) 0).toNat := by
  rw [rowWord16, BitVec.toNat_setWidth_of_le (by decide), le16_toNat]

theorem unpackPixel_d16 (m : Masks) (B : List Byte) (j : Nat) : unpackPixel .d16 m B j =
    { b := component (rowWord16 B j) m.b, g := component (rowWord16 B j) m.g
      r := component (rowWord16 B j) m.r, x := 0 } := rfl

theorem unpackPixel_d32 (m : Masks) (B : List Byte) (j : Nat) : unpackPixel .d32 m B j =
    { b := component (rowWord32 B j) m.b, g := component (rowWord32 B j) m.g
      r := component (rowWord32 B j) m.r, x := component (rowWord32 B j) m.a } := rfl

/-- Settles O12: the pixel word of each depth, and the components as numbers. -/
theorem unpackMaskedRows : Obligations.UnpackMaskedRows := by
  intro m W B j hj
  exact ⟨⟨_, rowWord16 B j, unpackRow_getElem? .d16 m B hj, rfl, rowWord16_toNat B j,
      component_toNat _ _, component_toNat _ _, component_toNat _ _⟩,
    _, rowWord32 B j, unpackRow_getElem? .d32 m B hj, le32_toNat _ _ _ _,
      component_toNat _ _, component_toNat _ _, component_toNat _ _, component_toNat _ _⟩

/-! ### Packing at depths 1, 4 and 8 -/

theorem length_le_of_rowBytes_le {P : List Pixel} {d n : Nat} (h : rowBytes P.length d ≤ n) :
    P.length * d ≤ 8 * n :=
  (rowBytes_is_ceil _ _).1.trans (Nat.mul_le_mul_left 8 h)

/-- At depth 1, bit `7 - t` of byte `n` of a packed row is bit 0 of pixel `8 * n + t`. -/
theorem packRow_d1_bit (m : Masks) (P : List Pixel) {stride : Nat} (hs : rowBytes P.length 1 ≤ stride)
    (n : Nat) {t : Nat} (ht : t < 8) : ((packRow .d1 m stride P).getD n 0).getLsbD (7 - t)
      = ((P[8 * n + t]?).map fun p => p.x.getLsbD 0).getD false := by
  rcases Nat.lt_or_ge n stride with hin | hout
  · rw [packRow, packPixels_d1_bit m P 0 _ ht (by rwa [List.length_replicate]),
      getD_replicate_zero]
    simp
  · have hlen := length_le_of_rowBytes_le (hs.trans hout)
    rw [packRow_padding .d1 m stride P (hs.trans hout), List.getElem?_eq_none (by omega)]
    simp

/-- A byte is its two nibbles. -/
theorem toNat_of_nibbles {v : Byte} {high low : Nat}
    (hhigh : ∀ u, u < 4 → v.getLsbD (4 + u) = high.testBit u)
    (hlow : ∀ u, u < 4 → v.getLsbD u = low.testBit u) :
    v.toNat = 16 * (high % 16) + low % 16 := by
  refine Nat.eq_of_testBit_eq fun i => ?_
  rw [show 16 = 2 ^ 4 from rfl, Nat.testBit_two_pow_mul_add _ (Nat.mod_lt _ (by decide)),
    Nat.testBit_mod_two_pow, Nat.testBit_mod_two_pow, BitVec.testBit_toNat]
  rcases Nat.lt_or_ge i 4 with h4 | h4
  · simp [h4, hlow i h4]
  · rw [if_neg (by omega)]
    rcases Nat.lt_or_ge i 8 with h8 | h8
    · rw [decide_eq_true (by omega), Bool.true_and, ← hhigh _ (by omega), Nat.add_sub_cancel' h4]
    · rw [decide_eq_false (by omega), Bool.false_and, BitVec.getLsbD_of_ge _ _ h8]

/-- The value of a pixel that may be absent. -/
def indexAt (P : List Pixel) (j : Nat) : Nat := ((P[j]?).map fun p => p.x.toNat).getD 0

theorem indexAt_eq {P : List Pixel} {j : Nat} {p : Pixel} (h : P[j]? = some p) :
    indexAt P j = p.x.toNat := by rw [indexAt, h]; rfl

theorem indexAt_beyond {P : List Pixel} {j : Nat} (h : P.length ≤ j) : indexAt P j = 0 := by
  rw [indexAt, List.getElem?_eq_none h]; rfl

theorem indexAt_mod (P : List Pixel) (j : Nat) :
    ((P[j]?).map fun p => p.x.toNat % 16).getD 0 = indexAt P j % 16 := by
  unfold indexAt
  cases P[j]? <;> rfl

theorem indexAt_testBit (P : List Pixel) (j u : Nat) :
    ((P[j]?).map fun p => p.x.getLsbD u).getD false = (indexAt P j).testBit u := by
  unfold indexAt
  cases P[j]? with
  | none => exact (Nat.zero_testBit u).symm
  | some p => rfl

/-- At depth 4, byte `n` of a packed row is pixel `2 * n` above pixel `2 * n + 1`. -/
theorem packRow_d4_toNat (m : Masks) (P : List Pixel) {stride : Nat}
    (hs : rowBytes P.length 4 ≤ stride) (n : Nat) : ((packRow .d4 m stride P).getD n 0).toNat
      = 16 * (indexAt P (2 * n) % 16) + indexAt P (2 * n + 1) % 16 := by
  rcases Nat.lt_or_ge n stride with hin | hout
  · have hbit : ∀ q u, q < 2 → u < 4 →
        ((packRow .d4 m stride P).getD n 0).getLsbD (4 * (1 - q) + u)
          = (indexAt P (2 * n + q)).testBit u := fun q u hq hu => by
      rw [packRow, packPixels_d4_bit m P 0 _ hq hu (by rwa [List.length_replicate]),
        getD_replicate_zero, Nat.sub_zero, indexAt_testBit]
      simp
    exact toNat_of_nibbles (fun u hu => hbit 0 u (by decide) hu)
      fun u hu => by simpa using hbit 1 u (by decide) hu
  · have hlen := length_le_of_rowBytes_le (hs.trans hout)
    rw [packRow_padding .d4 m stride P (hs.trans hout), indexAt_beyond (by omega),
      indexAt_beyond (by omega)]
    rfl

theorem packRow_d8 (m : Masks) (P : List Pixel) {stride : Nat} (hs : rowBytes P.length 8 ≤ stride)
    (n : Nat) : (packRow .d8 m stride P).getD n 0 = ((P[n]?).map Pixel.x).getD 0 := by
  cases hp : P[n]? with
  | some p =>
    have hbyte := packRow_inside .d8 m (k := 1) rfl hp (r := 0) (by decide) hs
    rwa [Nat.one_mul, Nat.add_zero] at hbyte
  | none =>
    rw [packRow_beyond .d8 m (k := 1) rfl P stride (by simpa using hp)]
    rfl

/-- Settles O13: the bits, the nibbles and the bytes of a packed row. -/
theorem packIndexedRows : Obligations.PackIndexedRows := by
  refine fun m P n => ⟨fun stride hs t ht => packRow_d1_bit m P hs n ht, fun stride hs => ?_,
    fun stride hs => packRow_d8 m P hs n⟩
  rw [indexAt_mod, indexAt_mod]
  exact packRow_d4_toNat m P hs n

/-! ### Packing at depths 16, 24 and 32 -/

theorem byte0_toNat {n : Nat} (w : BitVec n) : (byte0 w).toNat = w.toNat % 2 ^ 8 := by
  rw [byte0, BitVec.extractLsb'_toNat, Nat.shiftRight_zero]

theorem byte1_toNat {n : Nat} (w : BitVec n) : (byte1 w).toNat = w.toNat / 2 ^ 8 % 2 ^ 8 := by
  rw [byte1, BitVec.extractLsb'_toNat, Nat.shiftRight_eq_div_pow]

theorem byte2_toNat {n : Nat} (w : BitVec n) : (byte2 w).toNat = w.toNat / 2 ^ 16 % 2 ^ 8 := by
  rw [byte2, BitVec.extractLsb'_toNat, Nat.shiftRight_eq_div_pow]

theorem byte3_toNat (w : Word) : (byte3 w).toNat = w.toNat / 2 ^ 24 := by
  rw [byte3, BitVec.extractLsb'_toNat, Nat.shiftRight_eq_div_pow]
  have := w.isLt
  omega

/-- The low bytes of a word do not change when the word is cut to 16 bits. -/
theorem bytes_setWidth16 (w : Word) : (byte0 (w.setWidth 16)).toNat = w.toNat % 2 ^ 8
    ∧ (byte1 (w.setWidth 16)).toNat = w.toNat / 2 ^ 8 % 2 ^ 8 := by
  rw [byte0_toNat, byte1_toNat, BitVec.toNat_setWidth]
  omega

/-- Settles O14: the bytes of a pixel by its place in the row, and the words as numbers. -/
theorem packColourRows : Obligations.PackColourRows := by
  refine fun m P j p hp => ⟨fun stride hs => ⟨_, rfl, ?d16⟩, fun stride hs => ?d24,
    fun stride hs => ⟨_, rfl, ?d32⟩⟩
  case d16 =>
    have hbyte : ∀ r, r < 2 → _ := fun r hr => packRow_inside .d16 m (k := 2) rfl hp hr hs
    obtain ⟨hlow, hhigh⟩ := bytes_setWidth16 (deposit (p.b.setWidth 32) m.b
      ||| deposit (p.g.setWidth 32) m.g ||| deposit (p.r.setWidth 32) m.r)
    exact ⟨(congrArg _ (hbyte 0 (by decide))).trans hlow,
      (congrArg _ (hbyte 1 (by decide))).trans hhigh⟩
  case d24 =>
    have hbyte : ∀ r, r < 3 → _ := fun r hr => packRow_inside .d24 m (k := 3) rfl hp hr hs
    exact ⟨hbyte 0 (by decide), hbyte 1 (by decide), hbyte 2 (by decide)⟩
  case d32 =>
    have hbyte : ∀ r, r < 4 → _ := fun r hr => packRow_inside .d32 m (k := 4) rfl hp hr hs
    exact ⟨(congrArg _ (hbyte 0 (by decide))).trans (byte0_toNat _),
      (congrArg _ (hbyte 1 (by decide))).trans (byte1_toNat _),
      (congrArg _ (hbyte 2 (by decide))).trans (byte2_toNat _),
      (congrArg _ (hbyte 3 (by decide))).trans (byte3_toNat _)⟩

end Sys2Proof.Machine
end

section
/-! PROOF. The two round trips of the codec on rows (42_pixel_codec.md section 5, R149 to R151). -/

namespace Sys2Proof.Machine

open Sys2Proof

/-! ### Values in narrow fields -/

/-- A value of at most `fieldMax m` lies inside the mask once deposited, and is extracted again. -/
theorem NarrowMask.deposit_fits {m c : Word} (h : NarrowMask m) (hc : c.toNat ≤ fieldMax m) :
    deposit c m &&& m = deposit c m ∧ extract (deposit c m) m = c := by
  rcases h with rfl | ⟨n, start, -, hrun⟩
  · have hmax : fieldMax 0 = 0 := by decide
    have hzero : c = 0 := BitVec.eq_of_toNat_eq (Nat.le_zero.1 (hmax ▸ hc))
    rw [hzero]
    decide
  · have hlt : c.toNat < 2 ^ n := by
      rw [fieldMax, hrun.extract_self] at hc
      have := Nat.two_pow_pos n
      omega
    exact ⟨hrun.deposit_and hlt, hrun.extract_deposit hlt⟩

theorem NarrowMask.fieldMax_lt {m : Word} (h : NarrowMask m) : fieldMax m < 2 ^ 8 := by
  rcases h with rfl | ⟨n, start, hn, hrun⟩
  · decide
  · rw [fieldMax, hrun.extract_self]
    have := Nat.pow_le_pow_right (n := 2) (by decide) hn
    have := Nat.two_pow_pos n
    omega

/-- Nothing of a narrow field is lost when its value is cut to a byte. -/
theorem NarrowMask.deposit_component {m : Word} (h : NarrowMask m) (w : Word) :
    deposit ((component w m).setWidth 32) m = w &&& m := by
  have hbyte : (component w m).setWidth 32 = extract w m := by
    apply BitVec.eq_of_toNat_eq
    rw [BitVec.toNat_setWidth_of_le (by decide), component_toNat, Nat.mod_eq_of_lt]
    exact (extract_le_fieldMax w m).trans_lt h.fieldMax_lt
  rw [hbyte, deposit_extract]

theorem setWidth_toNat_le {c : Byte} {n : Nat} (h : c.toNat ≤ n) :
    (c.setWidth 32 : Word).toNat ≤ n := by
  rwa [BitVec.toNat_setWidth_of_le (by decide)]

theorem component_of_extract_eq {w m : Word} {c : Byte} (h : extract w m = c.setWidth 32) :
    component w m = c := by
  rw [component, h, BitVec.setWidth_setWidth_of_le _ (by decide), BitVec.setWidth_eq]

/-! ### The pixel word -/

theorem and_eq_zero_comm {x y : Word} (h : x &&& y = 0) : y &&& x = 0 := by rwa [BitVec.and_comm]

/-- Each component is read back from the word of a pixel that fits disjoint narrow masks. -/
theorem component_packWord32 {m : Masks} (hm : m.Valid32) {p : Pixel} (hb : p.b.toNat ≤ fieldMax m.b)
    (hg : p.g.toNat ≤ fieldMax m.g) (hr : p.r.toNat ≤ fieldMax m.r) (hx : p.x.toNat ≤ fieldMax m.a) :
    component (packWord32 m p) m.b = p.b ∧ component (packWord32 m p) m.g = p.g
      ∧ component (packWord32 m p) m.r = p.r ∧ component (packWord32 m p) m.a = p.x := by
  obtain ⟨nr, ng, nb, na, hrg, hrb, hra, hgb, hga, hba⟩ := hm
  obtain ⟨ib, eb⟩ := nb.deposit_fits (setWidth_toNat_le hb)
  obtain ⟨ig, eg⟩ := ng.deposit_fits (setWidth_toNat_le hg)
  obtain ⟨ir, er⟩ := nr.deposit_fits (setWidth_toNat_le hr)
  obtain ⟨ia, ea⟩ := na.deposit_fits (setWidth_toNat_le hx)
  refine ⟨component_of_extract_eq (.trans (extract_congr ?_) eb),
    component_of_extract_eq (.trans (extract_congr ?_) eg),
    component_of_extract_eq (.trans (extract_congr ?_) er),
    component_of_extract_eq (.trans (extract_congr ?_) ea)⟩
  · simp [packWord32, BitVec.and_or_distrib_right, and_eq_zero_of_inside ig (and_eq_zero_comm hgb),
      and_eq_zero_of_inside ir (and_eq_zero_comm hrb), and_eq_zero_of_inside ia hba]
  · simp [packWord32, BitVec.and_or_distrib_right, and_eq_zero_of_inside ib hgb,
      and_eq_zero_of_inside ir (and_eq_zero_comm hrg), and_eq_zero_of_inside ia hga]
  · simp [packWord32, BitVec.and_or_distrib_right, and_eq_zero_of_inside ib hrb,
      and_eq_zero_of_inside ig hrg, and_eq_zero_of_inside ia hra]
  · simp [packWord32, BitVec.and_or_distrib_right, and_eq_zero_of_inside ib (and_eq_zero_comm hba),
      and_eq_zero_of_inside ig (and_eq_zero_comm hga), and_eq_zero_of_inside ir (and_eq_zero_comm hra)]

/-- The components of a word, deposited again, give the word inside the masks. -/
theorem packWord32_components {m : Masks} (hm : m.Valid32) (w : Word) :
    packWord32 m
        { b := component w m.b, g := component w m.g, r := component w m.r, x := component w m.a }
      = w &&& (m.r ||| m.g ||| m.b ||| m.a) := by
  obtain ⟨nr, ng, nb, na, -⟩ := hm
  simp only [packWord32, nr.deposit_component, ng.deposit_component, nb.deposit_component,
    na.deposit_component, ← BitVec.and_or_distrib_left]
  ac_rfl

/-- A word without a bit outside a mask lies inside it. -/
theorem and_eq_self_of_outside {w m : Word} (h : w &&& ~~~m = 0) : w &&& m = w := by
  calc w &&& m = w &&& m ||| w &&& ~~~m := by rw [h]; exact BitVec.or_zero.symm
    _ = w := by rw [← BitVec.and_or_distrib_left, BitVec.or_not_self, BitVec.and_allOnes]

/-! ### Depth 16 as depth 32 without the fourth mask -/

/-- The masks of depth 16, whose words have no fourth field. -/
def Masks.noAlpha (m : Masks) : Masks := { m with a := 0 }

theorem Masks.Valid16.noAlpha {m : Masks} (hm : m.Valid16) : m.noAlpha.Valid32 := by
  obtain ⟨nr, ng, nb, -, -, -, hrg, hrb, hgb⟩ := hm
  exact ⟨nr, ng, nb, .inl rfl, hrg, hrb, BitVec.and_zero, hgb, BitVec.and_zero, BitVec.and_zero⟩

theorem packWord16_eq (m : Masks) {p : Pixel} (hx : p.x = 0) :
    packWord16 m p = (packWord32 m.noAlpha p).setWidth 16 := by
  simp [packWord16, packWord32, Masks.noAlpha, hx, deposit]

/-- A word inside masks of 16 bits survives the cut to 16 bits. -/
theorem setWidth16_setWidth32 {w : Word} (h : w.toNat < 2 ^ 16) :
    (w.setWidth 16).setWidth 32 = w := by
  apply BitVec.eq_of_toNat_eq
  rw [BitVec.toNat_setWidth_of_le (by decide), BitVec.toNat_setWidth, Nat.mod_eq_of_lt h]

theorem deposit_lt {m c : Word} (h : deposit c m &&& m = deposit c m) (hm : m.toNat < 2 ^ 16) :
    (deposit c m).toNat < 2 ^ 16 := by
  rw [← h, BitVec.toNat_and]
  exact Nat.and_lt_two_pow _ hm

theorem packWord32_noAlpha_lt {m : Masks} (hm : m.Valid16) {p : Pixel} (hx : p.x = 0)
    (hb : p.b.toNat ≤ fieldMax m.b) (hg : p.g.toNat ≤ fieldMax m.g) (hr : p.r.toNat ≤ fieldMax m.r) :
    (packWord32 m.noAlpha p).toNat < 2 ^ 16 := by
  obtain ⟨nr, ng, nb, lr, lg, lb, -⟩ := hm
  have db := deposit_lt (nb.deposit_fits (setWidth_toNat_le hb)).1 lb
  have dg := deposit_lt (ng.deposit_fits (setWidth_toNat_le hg)).1 lg
  have dr := deposit_lt (nr.deposit_fits (setWidth_toNat_le hr)).1 lr
  have dx : (deposit (p.x.setWidth 32) m.noAlpha.a).toNat < 2 ^ 16 := by
    rw [hx]
    exact (by decide : (deposit ((0 : Byte).setWidth 32) 0).toNat < 2 ^ 16)
  simp only [packWord32, BitVec.toNat_or]
  exact Nat.or_lt_two_pow (Nat.or_lt_two_pow (Nat.or_lt_two_pow db dg) dr) dx

/-! ### Only the bytes of a row matter -/

theorem getD_take_of_zero_beyond {B : List Byte} {k : Nat} (h : ∀ n, k ≤ n → B.getD n 0 = 0) (n : Nat) :
    (B.take k).getD n 0 = B.getD n 0 := by
  rcases Nat.lt_or_ge n k with hin | hout
  · rw [List.getD_eq_getElem?_getD, List.getElem?_take_of_lt hin, ← List.getD_eq_getElem?_getD]
  · rw [h n hout, List.getD_eq_default]
    exact (List.length_take_le _ _).trans hout

/-- A pixel is read from the bytes of the row, 0 standing for those beyond its end. -/
theorem unpackPixel_congr_bytes (d : PixelDepth) (m : Masks) {B B' : List Byte}
    (h : ∀ n, B.getD n 0 = B'.getD n 0) (j : Nat) : unpackPixel d m B j = unpackPixel d m B' j := by
  cases d <;> simp only [unpackPixel, h]

/-- Unpacking a row cut to its data bytes is unpacking the row. -/
theorem unpackRow_take {d : PixelDepth} {m : Masks} {W k : Nat} {B : List Byte}
    (h : ∀ n, k ≤ n → B.getD n 0 = 0) : unpackRow d m W (B.take k) = unpackRow d m W B :=
  unpackRow_congr fun j _ => unpackPixel_congr_bytes d m (getD_take_of_zero_beyond h) j

/-! ### Unpack after pack -/

/-- The word of pixel `j` of a packed row at depth 32. -/
theorem rowWord32_packRow (m : Masks) {P : List Pixel} {stride j : Nat} {p : Pixel}
    (hp : P[j]? = some p) (hs : rowBytes P.length 32 ≤ stride) :
    rowWord32 (packRow .d32 m stride P) j = packWord32 m p := by
  have hbyte : ∀ r, r < 4 → _ := fun r hr => packRow_inside .d32 m (k := 4) rfl hp hr hs
  rw [rowWord32, hbyte 1 (by decide), hbyte 2 (by decide), hbyte 3 (by decide)]
  rw [show 4 * j = 4 * j + 0 from rfl, hbyte 0 (by decide)]
  exact le32_bytes _

theorem rowWord16_packRow (m : Masks) {P : List Pixel} {stride j : Nat} {p : Pixel}
    (hp : P[j]? = some p) (hs : rowBytes P.length 16 ≤ stride) :
    rowWord16 (packRow .d16 m stride P) j = (packWord16 m p).setWidth 32 := by
  have hbyte : ∀ r, r < 2 → _ := fun r hr => packRow_inside .d16 m (k := 2) rfl hp hr hs
  rw [rowWord16, hbyte 1 (by decide)]
  rw [show 2 * j = 2 * j + 0 from rfl, hbyte 0 (by decide)]
  exact congrArg _ (le16_bytes _)

/-- A representable pixel is read back from its place in the packed row. -/
theorem unpackPixel_packRow {d : PixelDepth} {m : Masks} {P : List Pixel} {stride j : Nat} {p : Pixel}
    (hp : P[j]? = some p) (hrep : p.Representable d m) (hs : rowBytes P.length d.bits ≤ stride) :
    unpackPixel d m (packRow d m stride P) j = p := by
  obtain ⟨pb, pg, pr, px⟩ := p
  cases d
  case d1 =>
    obtain ⟨rfl, rfl, rfl, hx⟩ := hrep
    refine congrArg (Pixel.mk 0 0 0) (BitVec.eq_of_toNat_eq ?_)
    have hbit := packRow_d1_bit m P hs (j / 8) (t := j % 8) (Nat.mod_lt _ (by decide))
    rw [Nat.div_add_mod, hp] at hbit
    refine (unpackPixel_d1_toNat m _ j).trans ?_
    rw [hbit]
    exact (Nat.toNat_testBit px.toNat 0).trans (by simp only at hx; omega)
  case d4 =>
    obtain ⟨rfl, rfl, rfl, hx⟩ := hrep
    refine congrArg (Pixel.mk 0 0 0) (BitVec.eq_of_toNat_eq ?_)
    have hbyte := packRow_d4_toNat m P hs (j / 2)
    refine (unpackPixel_d4_toNat m _ j).trans ?_
    have hindex := indexAt_eq hp
    simp only at hx hindex
    rw [hbyte]
    split
    case isTrue heven =>
      rw [show 2 * (j / 2) = j by omega, hindex]
      omega
    case isFalse hodd =>
      rw [show 2 * (j / 2) + 1 = j by omega, hindex]
      omega
  case d8 =>
    obtain ⟨rfl, rfl, rfl⟩ := hrep
    have hbyte := packRow_d8 m P hs j
    rw [hp] at hbyte
    exact congrArg (Pixel.mk 0 0 0) hbyte
  case d16 =>
    obtain ⟨rfl, hm, hb, hg, hr⟩ := hrep
    have hlt := packWord32_noAlpha_lt hm (p := ⟨pb, pg, pr, 0⟩) rfl hb hg hr
    obtain ⟨eb, eg, er, -⟩ :=
      component_packWord32 hm.noAlpha (p := ⟨pb, pg, pr, 0⟩) hb hg hr (Nat.zero_le _)
    rw [unpackPixel_d16, rowWord16_packRow m hp hs, packWord16_eq m rfl, setWidth16_setWidth32 hlt]
    exact (Pixel.mk.injEq ..).mpr ⟨eb, eg, er, rfl⟩
  case d24 =>
    have hbyte : ∀ r, r < 3 → _ := fun r hr => packRow_inside .d24 m (k := 3) rfl hp hr hs
    exact (Pixel.mk.injEq ..).mpr
      ⟨hbyte 0 (by decide), hbyte 1 (by decide), hbyte 2 (by decide), hrep.symm⟩
  case d32 =>
    obtain ⟨hm, hb, hg, hr, hx⟩ := hrep
    obtain ⟨eb, eg, er, ex⟩ := component_packWord32 hm hb hg hr hx
    rw [unpackPixel_d32, rowWord32_packRow m hp hs]
    exact (Pixel.mk.injEq ..).mpr ⟨eb, eg, er, ex⟩

theorem unpackRow_packRow {d : PixelDepth} {m : Masks} {P : List Pixel} {stride : Nat}
    (hrep : ∀ p ∈ P, p.Representable d m) (hs : rowBytes P.length d.bits ≤ stride) :
    unpackRow d m P.length (packRow d m stride P) = P := by
  refine List.ext_getElem (unpackRow_length _ _ _ _) fun j _ hj => ?_
  rw [unpackRow_getElem]
  exact unpackPixel_packRow (List.getElem?_eq_getElem hj) (hrep _ (List.getElem_mem hj)) hs

/-- Settles O15: the cut to the data bytes loses nothing, and each pixel is read back. -/
theorem unpackAfterPack : Obligations.UnpackAfterPack := by
  intro d m P hrep
  rw [unpackRow_take fun n hn => packRow_padding d m _ P hn,
    unpackRow_packRow hrep (rowBytes_le_strideOf _ _)]

/-! ### Pack after unpack -/

theorem eq_of_getD_eq {A B : List Byte} (hlen : A.length = B.length)
    (h : ∀ n, A.getD n 0 = B.getD n 0) : A = B :=
  List.ext_getElem hlen fun n hA hB => by
    rw [← List.getD_eq_getElem A 0 hA, ← List.getD_eq_getElem B 0 hB, h n]

theorem unpackPixel_d1_bit (m : Masks) (B : List Byte) (j : Nat) :
    (unpackPixel .d1 m B j).x.getLsbD 0 = (B.getD (j / 8) 0).getLsbD (7 - j % 8) := by
  simp [unpackPixel]

theorem unpackRow_getElem?_beyond (d : PixelDepth) (m : Masks) {W j : Nat} (B : List Byte) (h : W ≤ j) :
    (unpackRow d m W B)[j]? = none :=
  List.getElem?_eq_none (by rwa [unpackRow_length])

theorem packWord32_unpackPixel {m : Masks} {W : Nat} {B : List Byte}
    (hin : WordsInsideMasks .d32 m W B) {j : Nat} (hj : j < W) :
    packWord32 m (unpackPixel .d32 m B j) = rowWord32 B j := by
  obtain ⟨hm, hw⟩ := hin
  rw [unpackPixel_d32, packWord32_components hm]
  exact and_eq_self_of_outside (hw j hj)

theorem packWord16_unpackPixel {m : Masks} {W : Nat} {B : List Byte}
    (hin : WordsInsideMasks .d16 m W B) {j : Nat} (hj : j < W) :
    packWord16 m (unpackPixel .d16 m B j) = le16 (B.getD (2 * j) 0) (B.getD (2 * j + 1) 0) := by
  obtain ⟨hm, hw⟩ := hin
  have hword : packWord32 m.noAlpha (unpackPixel .d16 m B j) = rowWord16 B j := by
    have hcut : component (rowWord16 B j) 0 = 0 := by rw [component, extract_zero_mask]; rfl
    have h := packWord32_components hm.noAlpha (rowWord16 B j)
    simp only [Masks.noAlpha, hcut] at h
    refine h.trans ?_
    have hmask : m.r ||| m.g ||| m.b ||| 0 = m.r ||| m.g ||| m.b := BitVec.or_zero
    rw [hmask]
    exact and_eq_self_of_outside (hw j hj)
  rw [packWord16_eq m rfl, hword, rowWord16, BitVec.setWidth_setWidth_of_le _ (by decide),
    BitVec.setWidth_eq]

/-- At the depths of whole bytes, an unpacked pixel has the bytes it was read from. -/
theorem pixelByte_unpackPixel {d : PixelDepth} {m : Masks} {W k : Nat} {B : List Byte}
    (hk : d.bits = 8 * k) (hin : WordsInsideMasks d m W B) {j r : Nat} (hj : j < W) (hr : r < k) :
    pixelByte d m (unpackPixel d m B j) r = B.getD (k * j + r) 0 := by
  cases d <;> simp only [PixelDepth.bits] at hk
  case d1 | d4 => omega
  case d8 =>
    obtain rfl : k = 1 := by omega
    obtain rfl : r = 0 := by omega
    rw [Nat.one_mul]
    rfl
  case d16 =>
    obtain rfl : k = 2 := by omega
    obtain ⟨hlow, hhigh⟩ := bytes_le16 (B.getD (2 * j) 0) (B.getD (2 * j + 1) 0)
    rw [pixelByte, packWord16_unpackPixel hin hj, hlow, hhigh]
    obtain rfl | rfl : r = 0 ∨ r = 1 := by omega
    all_goals rfl
  case d24 =>
    obtain rfl : k = 3 := by omega
    obtain rfl | rfl | rfl : r = 0 ∨ r = 1 ∨ r = 2 := by omega
    all_goals rfl
  case d32 =>
    obtain rfl : k = 4 := by omega
    obtain ⟨h0, h1, h2, h3⟩ :=
      bytes_le32 (B.getD (4 * j) 0) (B.getD (4 * j + 1) 0) (B.getD (4 * j + 2) 0) (B.getD (4 * j + 3) 0)
    rw [pixelByte, packWord32_unpackPixel hin hj, rowWord32, h0, h1, h2, h3]
    obtain rfl | rfl | rfl | rfl : r = 0 ∨ r = 1 ∨ r = 2 ∨ r = 3 := by omega
    all_goals rfl

/-- At the depths of whole bytes, packing an unpacked row gives its data bytes back. -/
theorem packRow_unpackRow_bytes {d : PixelDepth} {m : Masks} {W k stride : Nat} {B : List Byte}
    (hk : d.bits = 8 * k) (hin : WordsInsideMasks d m W B) (hs : rowBytes W d.bits ≤ stride) {n : Nat}
    (hn : n < rowBytes W d.bits) :
    (packRow d m stride (unpackRow d m W B)).getD n 0 = B.getD n 0 := by
  rw [hk, rowBytes_whole] at hn
  have hkpos : 0 < k := Nat.pos_of_mul_pos_right (Nat.zero_lt_of_lt hn)
  have hj : n / k < W := Nat.div_lt_of_lt_mul hn
  have hr : n % k < k := Nat.mod_lt _ hkpos
  have hpixel := packRow_inside d m hk (unpackRow_getElem? d m B hj) hr
    (stride := stride) (by rwa [unpackRow_length])
  rwa [pixelByte_unpackPixel hk hin hj hr, Nat.div_add_mod] at hpixel

theorem packRow_unpackRow_d1 {m : Masks} {W stride : Nat} {B : List Byte} (hz : UnusedBitsZero .d1 W B)
    (hs : rowBytes W 1 ≤ stride) {n : Nat} (hn : n < rowBytes W 1) :
    (packRow .d1 m stride (unpackRow .d1 m W B)).getD n 0 = B.getD n 0 := by
  refine BitVec.eq_of_getLsbD_eq fun i hi => ?_
  have hbit := packRow_d1_bit m (unpackRow .d1 m W B) (stride := stride) (by rwa [unpackRow_length]) n
    (t := 7 - i) (by omega)
  have hplace : (8 * n + (7 - i)) / 8 = n ∧ 7 - (8 * n + (7 - i)) % 8 = i := by omega
  rw [show 7 - (7 - i) = i by omega] at hbit
  rw [hbit]
  rcases Nat.lt_or_ge (8 * n + (7 - i)) W with hin | hout
  · rw [unpackRow_getElem? .d1 m B hin]
    refine (unpackPixel_d1_bit m B _).trans ?_
    rw [hplace.1, hplace.2]
  · rw [unpackRow_getElem?_beyond .d1 m B hout]
    have hunused := hz _ hout (by omega)
    rw [hplace.1, hplace.2] at hunused
    exact hunused.symm

theorem packRow_unpackRow_d4 {m : Masks} {W stride : Nat} {B : List Byte} (hz : UnusedBitsZero .d4 W B)
    (hs : rowBytes W 4 ≤ stride) {n : Nat} (hn : n < rowBytes W 4) :
    (packRow .d4 m stride (unpackRow .d4 m W B)).getD n 0 = B.getD n 0 := by
  rw [rowBytes_d4] at hn
  have hhigh : indexAt (unpackRow .d4 m W B) (2 * n) = (B.getD n 0).toNat / 16 := by
    rw [indexAt_eq (unpackRow_getElem? .d4 m B (by omega)), unpackPixel_d4_toNat, if_pos (by omega),
      show 2 * n / 2 = n by omega]
  have hlow : indexAt (unpackRow .d4 m W B) (2 * n + 1) = (B.getD n 0).toNat % 16 := by
    rcases Nat.lt_or_ge (2 * n + 1) W with hin | hout
    · rw [indexAt_eq (unpackRow_getElem? .d4 m B hin), unpackPixel_d4_toNat, if_neg (by omega),
        show (2 * n + 1) / 2 = n by omega]
    · have hunused := congrArg BitVec.toNat (hz (by omega))
      rw [low_nibble_toNat, show W / 2 = n by omega] at hunused
      rw [indexAt_beyond (by rwa [unpackRow_length]), hunused]
      rfl
  apply BitVec.eq_of_toNat_eq
  rw [packRow_d4_toNat m _ (by rwa [unpackRow_length]), hhigh, hlow]
  have hbyte := (B.getD n 0).isLt
  omega

/-- Settles O16: beyond the data bytes both rows are 0; inside, depth by depth. -/
theorem packAfterUnpack : Obligations.PackAfterUnpack := by
  rintro d m W B ⟨hlen, hbeyond, hz, hin⟩
  have hs := rowBytes_le_strideOf W d.bits
  rw [unpackRow_take hbeyond]
  refine eq_of_getD_eq (by rw [packRow_length, hlen]) fun n => ?_
  rcases Nat.lt_or_ge n (rowBytes W d.bits) with hn | hn
  · cases d
    case d1 => exact packRow_unpackRow_d1 hz hs hn
    case d4 => exact packRow_unpackRow_d4 hz hs hn
    case d8 => exact packRow_unpackRow_bytes (k := 1) rfl hin hs hn
    case d16 => exact packRow_unpackRow_bytes (k := 2) rfl hin hs hn
    case d24 => exact packRow_unpackRow_bytes (k := 3) rfl hin hs hn
    case d32 => exact packRow_unpackRow_bytes (k := 4) rfl hin hs hn
  · rw [hbeyond n hn, packRow_padding d m _ _ (by rwa [unpackRow_length])]

end Sys2Proof.Machine
end

section
/-! PROOF. The codec's commands on a framed engine (42_pixel_codec.md sections 4 and 5). -/

namespace Sys2Proof.Machine

open Sys2Proof

/-! ### Pixels and their bytes -/

theorem Pixel.eq_of_bytes {p q : Pixel} (h : ∀ n, n < 4 → p.bytes[n]? = q.bytes[n]?) : p = q := by
  have hbytes : p.bytes = q.bytes := List.ext_getElem? fun n => by
    rcases Nat.lt_or_ge n 4 with hlt | hge
    · exact h n hlt
    · rw [List.getElem?_eq_none hge, List.getElem?_eq_none hge]
  obtain ⟨⟩ := p
  cases hbytes
  rfl

theorem State.pixelAt_bytes (s : State) (r c : Nat) {n : Nat} (hn : n < 4) :
    (s.pixelAt r c).bytes[n]? = some (s.byte .grid (gridAddr s.w r c + n)) := by
  interval_cases n <;> rfl

/-- Every byte of the grid belongs to a pixel. -/
theorem exists_pixel_of_lt {w h a : Nat} (ha : a < 4 * (h * w)) :
    ∃ r c n, r < h ∧ c < w ∧ n < 4 ∧ a = gridAddr w r c + n := by
  have hp : a / 4 < w * h := by
    rw [Nat.mul_comm w]
    omega
  have hw : 0 < w := Nat.pos_of_mul_pos_right (Nat.zero_lt_of_lt hp)
  refine ⟨a / 4 / w, a / 4 % w, a % 4, Nat.div_lt_of_lt_mul hp, Nat.mod_lt _ hw,
    Nat.mod_lt _ (by decide), ?_⟩
  rw [gridAddr, Nat.div_add_mod', Nat.div_add_mod]

/-! ### One row -/

/-- Settles O17: the row's pixels byte by byte, and the bytes beside the row. -/
theorem unpackrCompletes : Obligations.UnpackrCompletes := by
  intro s d hf hr
  refine ⟨_, execUnpackr_eq hf hr, rfl, fun c hc => Pixel.eq_of_bytes fun n hn => ?_,
    fun a ha => State.byteAt_unpackInto_outside s d s.grid ha⟩
  rw [State.pixelAt_bytes _ _ _ hn, ← State.packedRow_eq]
  exact State.byteAt_unpackInto_inside s d s.grid s.row.toNat hc hn

/-- Settles O18: the bytes of the packed row, and the bytes beside it. -/
theorem packrCompletes : Obligations.PackrCompletes := by
  intro s d hf hr
  exact ⟨_, execPackr_eq hf hr, rfl, fun n hn => State.byteAt_packInto_inside s d s.pbuf _ hn,
    fun a ha => State.byteAt_packInto_outside s d s.pbuf ha⟩

/-! ### The whole image -/

/-- Settles O19: the pixels of every row, and GRID beyond the grid. -/
theorem unpackCompletes : Obligations.UnpackCompletes := by
  refine ⟨fun s d hf => ⟨_, execUnpack_eq hf, rfl,
    fun i c hi hc => Pixel.eq_of_bytes fun n hn => ?_,
    fun a ha => State.byteAt_unpackRows_outside s d s.h ha⟩,
    fun s => notConfiguredChangesOnlyStatus .unpack s (by decide)⟩
  rw [State.pixelAt_bytes _ _ _ hn, ← State.packedRow_eq]
  exact State.byteAt_unpackRows_inside s d s.h hi hc hn

/-- Settles O20: the bytes of every packed row, and PBUF from IMGSIZE on. -/
theorem packCompletes : Obligations.PackCompletes := by
  refine ⟨fun s d hf => ⟨_, execPack_eq hf, rfl,
    fun i n hi hn => State.byteAt_packRows_inside s d s.h hi hn, fun a ha => ?_⟩,
    fun s => notConfiguredChangesOnlyStatus .pack s (by decide)⟩
  rw [hf.imgsize, imageSize, ← hf.stride] at ha
  exact State.byteAt_packRows_outside s d s.h ha

/-! ### Rows written in any order -/

theorem Memory.read_writeBytes (m : Memory) (a : Nat) (bs : List Byte) (x : Nat) :
    (m.writeBytes a bs).read x = if a ≤ x ∧ x < a + bs.length then bs[x - a]? else m.read x := by
  split
  case isTrue hin =>
    have hlt : x - a < bs.length := by omega
    have hread := Memory.read_writeBytes_inside bs m a hlt
    rwa [Nat.add_sub_cancel' hin.1, ← List.getElem?_eq_getElem hlt] at hread
  case isFalse hout => exact Memory.read_writeBytes_outside bs m (by omega)

/-- Disjoint blocks may be written in either order. -/
theorem Memory.writeBytes_comm {m : Memory} (hm : m.wf = true) {a a' : Nat} {bs bs' : List Byte}
    (h : a + bs.length ≤ a' ∨ a' + bs'.length ≤ a) :
    (m.writeBytes a bs).writeBytes a' bs' = (m.writeBytes a' bs').writeBytes a bs := by
  refine Memory.ext_of_wf (Memory.wf_writeBytes bs' a' (Memory.wf_writeBytes bs a hm))
    (Memory.wf_writeBytes bs a (Memory.wf_writeBytes bs' a' hm)) fun x => ?_
  by_cases hin : a ≤ x ∧ x < a + bs.length
  · have hout : ¬(a' ≤ x ∧ x < a' + bs'.length) := by omega
    simp only [Memory.read_writeBytes, if_neg hout]
  · simp only [Memory.read_writeBytes, if_neg hin]

/-- Row `i` of a memory whose rows are `L` bytes long. -/
def writeRow (L : Nat) (row : Nat → List Byte) (m : Memory) (i : Nat) : Memory :=
  m.writeBytes (i * L) (row i)

theorem wf_writeRow {L : Nat} {row : Nat → List Byte} {m : Memory} (hm : m.wf = true) (i : Nat) :
    (writeRow L row m i).wf = true := Memory.wf_writeBytes _ _ hm

theorem writeRow_comm {L : Nat} {row : Nat → List Byte} (hrow : ∀ i, (row i).length = L) {m : Memory}
    (hm : m.wf = true) (i j : Nat) :
    writeRow L row (writeRow L row m i) j = writeRow L row (writeRow L row m j) i := by
  have hbefore : ∀ {i j : Nat}, i < j → i * L + (row i).length ≤ j * L := fun {i j} hij => by
    rw [hrow, ← Nat.succ_mul]
    exact Nat.mul_le_mul_right L hij
  rcases Nat.lt_trichotomy i j with hij | rfl | hji
  · exact Memory.writeBytes_comm hm (.inl (hbefore hij))
  · rfl
  · exact Memory.writeBytes_comm hm (.inr (hbefore hji))

/-- The order in which rows are written does not matter. -/
theorem foldl_writeRow_perm {L : Nat} {row : Nat → List Byte} (hrow : ∀ i, (row i).length = L)
    {l l' : List Nat} (hl : l.Perm l') : ∀ {m : Memory}, m.wf = true →
    l.foldl (writeRow L row) m = l'.foldl (writeRow L row) m := by
  induction hl with
  | nil => intros; rfl
  | cons i _ ih => exact fun hm => ih (wf_writeRow hm i)
  | swap i j l =>
    intro m hm
    rw [List.foldl_cons, List.foldl_cons, List.foldl_cons, List.foldl_cons, writeRow_comm hrow hm]
  | trans _ _ ih ih' => exact fun hm => (ih hm).trans (ih' hm)

theorem State.unpackInto_eq_writeRow (s : State) (d : PixelDepth) :
    s.unpackInto d = writeRow (4 * s.w) (s.unpackedRow d) := by
  funext g i
  rw [State.unpackInto, writeRow, gridAddr, Nat.add_zero, Nat.mul_left_comm]

theorem State.packInto_eq_writeRow (s : State) (d : PixelDepth) : s.packInto d =
    writeRow s.stride.toNat fun i => packRow d s.masks s.stride.toNat (s.gridRow i) := rfl

theorem State.unpackRows_eq_foldl (s : State) (d : PixelDepth) (n : Nat) :
    s.unpackRows d n = (List.range n).foldl (s.unpackInto d) s.grid := by
  induction n with
  | zero => rfl
  | succ n ih => rw [State.unpackRows, ih, List.range_succ, List.foldl_append]; rfl

theorem State.packRows_eq_foldl (s : State) (d : PixelDepth) (n : Nat) :
    s.packRows d n = (List.range n).foldl (s.packInto d) s.pbuf := by
  induction n with
  | zero => rfl
  | succ n ih => rw [State.packRows, ih, List.range_succ, List.foldl_append]; rfl

/-- Unpacking the rows in any order gives what UNPACK gives. -/
theorem State.unpack_any_order {s : State} (d : PixelDepth) (hm : s.grid.wf = true) {order : List Nat}
    (hperm : order.Perm (List.range s.h)) :
    order.foldl (s.unpackInto d) s.grid = s.unpackRows d s.h := by
  rw [State.unpackRows_eq_foldl, State.unpackInto_eq_writeRow]
  exact foldl_writeRow_perm (fun i => State.unpackedRow_length s d i) hperm hm

theorem State.pack_any_order {s : State} (d : PixelDepth) (hm : s.pbuf.wf = true) {order : List Nat}
    (hperm : order.Perm (List.range s.h)) :
    order.foldl (s.packInto d) s.pbuf = s.packRows d s.h := by
  rw [State.packRows_eq_foldl, State.packInto_eq_writeRow]
  exact foldl_writeRow_perm (fun i => packRow_length d _ _ _) hperm hm

/-! ### One row command per row -/

/-- What a run of UNPACKR commands changes: GRID, ROW and STATUS. -/
def State.withGridRow (s : State) (g : Memory) (r : Word) (t : Status) : State :=
  { s with grid := g, row := r, status := t }

/-- What a run of PACKR commands changes: PBUF, ROW and STATUS. -/
def State.withPbufRow (s : State) (b : Memory) (r : Word) (t : Status) : State :=
  { s with pbuf := b, row := r, status := t }

theorem State.row_toNat_of_lt (s : State) {n : Nat} (hn : n < s.h) : (BitVec.ofNat 32 n).toNat = n :=
  toNat_ofNat_of_lt (hn.trans s.height.isLt)

theorem withRow_unpackr {s : State} {d : PixelDepth} (hf : s.FramedAs d) {n : Nat} (hn : n < s.h)
    (g : Memory) (r : Word) {t : Status} (hc : t.cfgok = true) :
    withRow .unpackr n (s.withGridRow g r t)
      = .next (s.withGridRow (s.unpackInto d g n) (BitVec.ofNat 32 n) (Status.good true)) := by
  have hrow := s.row_toNat_of_lt hn
  have hf' : (s.withGridRow g (BitVec.ofNat 32 n) t).FramedAs d :=
    hf.congr rfl rfl rfl rfl rfl rfl rfl rfl rfl hc hf.spos
  refine (execUnpackr_eq hf' (hrow.trans_lt hn)).trans ?_
  simp only [State.withGridRow, hrow]
  rfl

theorem withRow_packr {s : State} {d : PixelDepth} (hf : s.FramedAs d) {n : Nat} (hn : n < s.h)
    (b : Memory) (r : Word) {t : Status} (hc : t.cfgok = true) :
    withRow .packr n (s.withPbufRow b r t)
      = .next (s.withPbufRow (s.packInto d b n) (BitVec.ofNat 32 n) (Status.good true)) := by
  have hrow := s.row_toNat_of_lt hn
  have hf' : (s.withPbufRow b (BitVec.ofNat 32 n) t).FramedAs d :=
    hf.congr rfl rfl rfl rfl rfl rfl rfl rfl rfl hc hf.spos
  refine (execPackr_eq hf' (hrow.trans_lt hn)).trans ?_
  simp only [State.withPbufRow, hrow]
  rfl

/-- A run of row commands folds the effect of one over the rows. -/
theorem execAll_rows {i : Instr} {mk : Memory → Word → Status → State} {f : Memory → Nat → Memory}
    {h : Nat} (hstep : ∀ n, n < h → ∀ (m : Memory) (r : Word) {t : Status}, t.cfgok = true →
      withRow i n (mk m r t) = .next (mk (f m n) (BitVec.ofNat 32 n) (Status.good true)))
    (l : List Nat) : (∀ n ∈ l, n < h) → ∀ (m : Memory) (r : Word),
      ∃ r', execAll (l.map (withRow i)) (mk m r (Status.good true))
        = .next (mk (l.foldl f m) r' (Status.good true)) := by
  induction l with
  | nil => exact fun _ m r => ⟨r, rfl⟩
  | cons n l ih =>
    intro hl m r
    obtain ⟨hn, hl⟩ := List.forall_mem_cons.1 hl
    obtain ⟨r', hrun⟩ := ih hl (f m n) (BitVec.ofNat 32 n)
    refine ⟨r', ?_⟩
    rw [List.map_cons, execAll, hstep n hn m r rfl]
    exact hrun

/-- The same from any STATUS of a framed engine, if there is a row at all. -/
theorem execAll_rows_of_framed {i : Instr} {mk : Memory → Word → Status → State}
    {f : Memory → Nat → Memory} {h : Nat}
    (hstep : ∀ n, n < h → ∀ (m : Memory) (r : Word) {t : Status}, t.cfgok = true →
      withRow i n (mk m r t) = .next (mk (f m n) (BitVec.ofNat 32 n) (Status.good true)))
    (hpos : 1 ≤ h) {order : List Nat} (hperm : order.Perm (List.range h)) (m : Memory) (r : Word)
    {t : Status} (hc : t.cfgok = true) :
    ∃ r', execAll (order.map (withRow i)) (mk m r t)
      = .next (mk (order.foldl f m) r' (Status.good true)) := by
  have hlt : ∀ n ∈ order, n < h := fun n hn => List.mem_range.1 (hperm.mem_iff.1 hn)
  cases order with
  | nil => exact absurd (hperm.length_eq.trans List.length_range) (Nat.ne_of_lt hpos)
  | cons n l =>
    obtain ⟨hn, hl⟩ := List.forall_mem_cons.1 hlt
    obtain ⟨r', hrun⟩ := execAll_rows hstep l hl (f m n) (BitVec.ofNat 32 n)
    refine ⟨r', ?_⟩
    rw [List.map_cons, execAll, hstep n hn m r hc]
    exact hrun

/-- Settles O22: row commands fold row writes, whose order does not matter. -/
theorem wholeImageEqualsRowsInAnyOrder : Obligations.WholeImageEqualsRowsInAnyOrder := by
  intro s d order hi hf hperm
  obtain ⟨hgrid, hpbuf, -⟩ := hi.mem
  constructor
  · obtain ⟨r, hrun⟩ := execAll_rows_of_framed (mk := s.withGridRow)
      (fun n hn => withRow_unpackr hf hn) hf.height_pos hperm s.grid s.row hf.cfgok
    refine ⟨_, _, execUnpack_eq hf, hrun, ?_⟩
    rw [State.unpack_any_order d hgrid hperm]
    rfl
  · obtain ⟨r, hrun⟩ := execAll_rows_of_framed (mk := s.withPbufRow)
      (fun n hn => withRow_packr hf hn) hf.height_pos hperm s.pbuf s.row hf.cfgok
    refine ⟨_, _, execPack_eq hf, hrun, ?_⟩
    rw [State.pack_any_order d hpbuf hperm]
    rfl

/-! ### PACK, then UNPACK -/

/-- The state PACK leaves on a framed engine. -/
def State.packed (s : State) (d : PixelDepth) : State :=
  { s with pbuf := s.packRows d s.h, status := Status.good true }

theorem State.FramedAs.packed {s : State} {d : PixelDepth} (hf : s.FramedAs d) :
    (s.packed d).FramedAs d :=
  hf.congr rfl rfl rfl rfl rfl rfl rfl rfl rfl rfl hf.spos

/-- The packed rows PACK leaves are those of the grid, whose padding reads 0 as well. -/
theorem State.FramedAs.packedRow_packed {s : State} {d : PixelDepth} (hf : s.FramedAs d) {i : Nat}
    (hi : i < s.h) (n : Nat) : ((s.packed d).packedRow i).getD n 0
      = (packRow d s.masks s.stride.toNat (s.gridRow i)).getD n 0 := by
  rcases Nat.lt_or_ge n s.rowbytes.toNat with hlt | hge
  · have hstride : n < s.stride.toNat := by
      rw [hf.stride]
      exact hlt.trans_le (hf.rowbytes.trans_le (rowBytes_le_strideOf _ _))
    exact (Memory.bytesAt_getD _ _ hlt _).trans (State.byteAt_packRows_inside s d s.h hi hstride)
  · rw [hf.packRow_gridRow_padding i hge, List.getD_eq_default]
    exact (State.packedRow_length _ i).trans_le hge

/-- A representable pixel is unpacked from its packed row. -/
theorem State.FramedAs.unpackPixel_packed {s : State} {d : PixelDepth} (hf : s.FramedAs d) {i c : Nat}
    (hi : i < s.h) (hc : c < s.w) (hrep : (s.pixelAt i c).Representable d s.masks) :
    unpackPixel d s.masks ((s.packed d).packedRow i) c = s.pixelAt i c := by
  rw [unpackPixel_congr_bytes d s.masks (hf.packedRow_packed hi)]
  have hpixel : (s.gridRow i)[c]? = some (s.pixelAt i c) := by simp [State.gridRow, hc]
  refine unpackPixel_packRow hpixel hrep ?_
  rw [State.gridRow_length, hf.stride]
  exact rowBytes_le_strideOf _ _

/-- Settles O23: each pixel of the grid is unpacked as it was packed. -/
theorem packThenUnpackKeepsGrid : Obligations.PackThenUnpackKeepsGrid := by
  intro s d hf hrep
  refine ⟨_, _, execPack_eq hf, execUnpack_eq hf.packed, fun a => ?_⟩
  rcases Nat.lt_or_ge a (4 * (s.h * s.w)) with hin | hout
  · obtain ⟨i, c, n, hi, hc, hn, rfl⟩ := exists_pixel_of_lt hin
    have hbyte := State.byteAt_unpackRows_inside (s.packed d) d s.h hi hc hn
    have hpixel := hf.unpackPixel_packed hi hc (hrep i c hi hc)
    have hslot := congrArg (fun p : Pixel => p.bytes[n]?) hpixel
    exact Option.some.inj ((hbyte.trans hslot).trans (State.pixelAt_bytes s i c hn))
  · exact State.byteAt_unpackRows_outside (s.packed d) d s.h hout

end Sys2Proof.Machine
end

section
/-! PROOF. The steganographic channel: the bit cell and the scanner (43_steganography.md sections 1
and 2). -/

namespace Sys2Proof.Machine

open Sys2Proof

/-! ### The bit cell -/

theorem getbit_toNat (v : Byte) : (getbit v).toNat = v.toNat % 2 :=
  (Nat.toNat_testBit v.toNat 0).trans (by rw [Nat.pow_zero, Nat.div_one])

theorem getbit_eq (v : Byte) : getbit v = (v.toNat % 2 == 1) := Nat.testBit_zero v.toNat

theorem putbit_max (b : Bool) : putbit 255 b = if b then 255 else 254 := by cases b <;> rfl

theorem putbit_of_ne_max {v : Byte} (h : v ≠ 255) (b : Bool) :
    putbit v b = if getbit v = b then v else v + 1 := by rw [putbit, if_neg h]

theorem putbit_toNat {v : Byte} (h : v.toNat < 255) (b : Bool) :
    (putbit v b).toNat = if getbit v = b then v.toNat else v.toNat + 1 := by
  have hne : v ≠ 255 := by
    rintro rfl
    exact absurd h (by decide)
  rw [putbit_of_ne_max hne]
  split
  · rfl
  · rw [BitVec.toNat_add]
    exact Nat.mod_eq_of_lt (by simp; omega)

/-- A cell that already holds the bit stays. -/
theorem putbit_of_getbit {v : Byte} {b : Bool} (h : getbit v = b) : putbit v b = v := by
  by_cases hmax : v = 255
  · subst hmax h
    rfl
  · rw [putbit_of_ne_max hmax, if_pos h]

/-- Putting a bit moves the byte by at most 1. -/
theorem putbit_near (v : Byte) (b : Bool) :
    (putbit v b).toNat ≤ v.toNat + 1 ∧ v.toNat ≤ (putbit v b).toNat + 1 := by
  by_cases hmax : v = 255
  · subst hmax
    cases b <;> decide
  · have hlt : v.toNat < 255 := by
      have := v.isLt
      have hne : v.toNat ≠ 255 := fun e => hmax (BitVec.eq_of_toNat_eq e)
      omega
    rw [putbit_toNat hlt]
    split <;> omega

/-- Settles O24: the value 255 apart from the values below it. -/
theorem putbitLaws : Obligations.PutbitLaws := by
  refine fun v b => ⟨getbit_eq v, getbit_putbit v b, (putbit_near v b).1, (putbit_near v b).2,
    putbit_of_getbit (getbit_putbit v b), fun h => putbit_toNat h b, ?_⟩
  rintro rfl
  exact putbit_max b

/-! ### The unit map -/

theorem unitAddr_eq_gridAddr (w r c : Nat) {ch : Nat} (h : ch < 3) :
    unitAddr (3 * (r * w + c) + ch) = gridAddr w r c + ch := by
  unfold unitAddr gridAddr
  omega

theorem pixel_lt {w h r c : Nat} (hr : r < h) (hc : c < w) : r * w + c < w * h := by
  have hrow : (r + 1) * w ≤ h * w := Nat.mul_le_mul_right w hr
  rw [Nat.succ_mul, Nat.mul_comm h] at hrow
  omega

/-- Settles O25: a unit is a channel of a pixel, found by dividing by 3 and by the width. -/
theorem unitMapScansRowMajor : Obligations.UnitMapScansRowMajor := by
  refine ⟨fun w h r c ch hr hc hch => ⟨?below, unitAddr_eq_gridAddr w r c hch⟩, fun w h k hk => ?onto,
    fun k => ?slot, fun k k' => unitAddr_lt⟩
  case below =>
    have hp := pixel_lt hr hc
    rw [Nat.mul_assoc]
    omega
  case onto =>
    rw [Nat.mul_assoc] at hk
    have hp : k / 3 < w * h := by omega
    have hw : 0 < w := Nat.pos_of_mul_pos_right (Nat.zero_lt_of_lt hp)
    refine ⟨k / 3 / w, k / 3 % w, k % 3, Nat.div_lt_of_lt_mul hp, Nat.mod_lt _ hw,
      Nat.mod_lt _ (by decide), ?_⟩
    rw [Nat.div_add_mod', Nat.div_add_mod]
  case slot =>
    unfold unitAddr
    omega

/-! ### SPUT and SGET -/

/-- The position after a unit below the end fits SPOS. -/
theorem State.FramedAs.next_spos {s : State} {d : PixelDepth} (hp : s.params.legal = true)
    (hf : s.FramedAs d) (hlt : s.spos.toNat < s.units) :
    (BitVec.ofNat 32 (s.spos.toNat + 1)).toNat = s.spos.toNat + 1 :=
  toNat_ofNat_of_lt (Nat.lt_of_le_of_lt hlt (hf.units_lt hp))

/-- Settles O27: the byte of the unit, and the bytes beside it. -/
theorem sputCompletes : Obligations.SputCompletes := fun s _ hp hf hd hlt =>
  ⟨_, execSput_eq hf hd hlt, rfl, hf.next_spos hp hlt, byteAt_putUnit_same s.grid _ _,
    fun _ ha => byteAt_putUnit_ne s.grid _ ha⟩

/-- Settles O28: the parity of the byte of the unit. -/
theorem sgetCompletes : Obligations.SgetCompletes := by
  refine fun s d hp hf hd hlt => ⟨_, execSget_eq hf hd hlt, rfl, hf.next_spos hp hlt, ?_⟩
  rw [BitVec.toNat_setWidth_of_le (by decide), BitVec.toNat_ofBool]
  exact getbit_toNat _

end Sys2Proof.Machine
end

section
/-! PROOF. The payload in the channel: SWRITE and SREAD (43_steganography.md sections 3 and 4). -/

namespace Sys2Proof.Machine

open Sys2Proof

/-! ### What SWRITE leaves in the units -/

/-- The bit put into a unit is read back from it. -/
theorem getUnit_putUnits_of_getElem? {bs : List Bool} {k : Nat} {b : Bool} (h : bs[k]? = some b)
    (g : Memory) : getUnit (putUnits g 0 bs) k = b := by
  obtain ⟨hk, hb⟩ := List.getElem?_eq_some_iff.1 h
  have hunit := getUnit_putUnits bs g 0 hk
  rwa [Nat.zero_add, hb] at hunit

theorem byteAt_putUnits_eq_putbit {bs : List Bool} {k : Nat} (hk : k < bs.length) (g : Memory) :
    (putUnits g 0 bs).byteAt .grid (unitAddr k)
      = putbit (g.byteAt .grid (unitAddr k)) (getUnit (putUnits g 0 bs) k) := by
  have hbyte := byteAt_putUnits_inside bs g 0 hk
  have hunit := getUnit_putUnits bs g 0 hk
  rw [Nat.zero_add] at hbyte hunit
  rw [hbyte, hunit]

/-- Settles O30: the three parts of the bits SWRITE writes, and the bytes they reach. -/
theorem swriteCompletes : Obligations.SwriteCompletes := by
  intro s d h
  have hrun := execSwrite_eq h
  have hlen := h.bits_length
  have hlength := fun i => s.swriteBits_length_part (i := i)
  have hpayload := fun j i => s.swriteBits_payload_part (j := j) (i := i)
  have hfiller := fun n => s.swriteBits_filler_part (n := n)
  -- Only these three facts about the bits matter; the list itself is never computed.
  generalize s.swriteBits = bits at hrun hlen hlength hpayload hfiller
  refine ⟨_, hrun, rfl, toNat_ofNat_of_lt (h.framed.units_lt h.params), fun i hi => ?length,
    fun j i hj hi => ?payload, fun k hle hlt => ?filler, fun k hk => ?units, fun a ha => ?others⟩
  case length => exact getUnit_putUnits_of_getElem? (hlength i hi) s.grid
  case payload => exact getUnit_putUnits_of_getElem? (hpayload j i hj hi) s.grid
  case filler =>
    have hbit := hfiller (k - (32 + 8 * s.plen.toNat)) (by rwa [Nat.add_sub_cancel' hle])
    rw [Nat.add_sub_cancel' hle] at hbit
    exact getUnit_putUnits_of_getElem? hbit s.grid
  case units => exact byteAt_putUnits_eq_putbit (hlen.symm ▸ hk) s.grid
  case others =>
    refine byteAt_putUnits_outside _ s.grid 0 fun i hi => ?_
    rw [Nat.zero_add]
    exact ha i (hlen ▸ hi)

/-! ### What SREAD takes from the units -/

/-- Settles O32: the decoded length is `L`, and each byte has the bits of its eight units. -/
theorem sreadCompletes : Obligations.SreadCompletes := by
  intro s d L hp hf hd hu hL hbits hcap
  have hlen : s.decodedLength = L := State.decodedLength_eq hL hbits
  have hread := execSread_eq hp hf hd hu (hlen.trans_le hcap)
  rw [hlen] at hread
  have hunits := hf.units_lt hp
  have hfits := hcap
  rw [hf.cap_eq, if_neg (by omega)] at hfits
  refine ⟨_, hread, rfl, toNat_ofNat_of_lt hL, toNat_ofNat_of_lt (by omega), fun j i hj hi => ?payload,
    fun j hj => ?others⟩
  case payload =>
    have hlt : j < (s.decodedBytes L).length := by rwa [State.decodedBytes_length]
    have hbyte := Memory.byteAt_writeBytes_inside s.msg .msg 0 hlt
    rw [Nat.zero_add] at hbyte
    refine (congrArg (BitVec.getLsbD · i) hbyte).trans ?_
    simp only [State.decodedBytes, List.getElem_map, List.getElem_range]
    exact s.decodedByte_getLsbD j hi
  case others =>
    refine Memory.byteAt_writeBytes_outside s.msg .msg (.inr ?_)
    rwa [State.decodedBytes_length, Nat.zero_add]

/-! ### The payload survives -/

theorem getUnit_congr {g g' : Memory} {k : Nat}
    (h : g.byteAt .grid (unitAddr k) = g'.byteAt .grid (unitAddr k)) : getUnit g k = getUnit g' k := by
  rw [getUnit, getUnit, h]

/-- Settles O34: SREAD reads the length and the payload from the units where SWRITE put them. -/
theorem embeddedPayloadIsExtracted : Obligations.EmbeddedPayloadIsExtracted := by
  intro s d h
  obtain ⟨t, hwrite, ht, -, hlength, hpayload, -⟩ := swriteCompletes s d h
  refine ⟨t, hwrite, congrArg (·.status.err) ht, fun u hparams hw hh hf hbytes => ?_⟩
  have hunits : u.units = s.units := by rw [State.units, State.w, State.h, hw, hh]; rfl
  have hcap : u.cap.toNat = s.cap.toNat := by rw [hf.cap_eq, h.framed.cap_eq, hunits]
  have hle := h.payload_le
  have hsame : ∀ k, k < s.units → getUnit u.grid k = getUnit t.grid k := fun k hk =>
    getUnit_congr (hbytes k hk)
  obtain ⟨v, hread, hv, hplen, -, hmsg, -⟩ := sreadCompletes u d s.plen.toNat (hparams ▸ h.params) hf
    h.depth (hunits ▸ h.units) s.plen.isLt
    (fun i hi => by rw [hsame i (by omega), hlength i hi]; rfl) (hcap ▸ h.fits)
  refine ⟨v, hread, congrArg (·.status.err) hv, BitVec.eq_of_toNat_eq hplen, fun j hj => ?_⟩
  refine BitVec.eq_of_getLsbD_eq fun i hi => ?_
  rw [hmsg j i hj hi, hsame _ (by omega), hpayload j i hj hi]

/-- Settles O36: the bits of length and payload read no drawn bit. -/
theorem fillerDoesNotReachPayload : Obligations.FillerDoesNotReachPayload := by
  intro s d feed pos h
  have h' : State.CanEmbed { s with randomFeed := feed, drawPos := pos } d :=
    ⟨h.params, h.framed.congr rfl rfl rfl rfl rfl rfl rfl rfl rfl h.framed.cfgok h.framed.spos, h.depth,
      h.units, h.fits⟩
  obtain ⟨t, hwrite, ht, hspos, hlength, hpayload, -, hbyte, -⟩ := swriteCompletes s d h
  obtain ⟨u, hwrite', hu, hspos', hlength', hpayload', -, hbyte', -⟩ := swriteCompletes _ d h'
  refine ⟨t, u, hwrite, hwrite', (congrArg (·.status) hu).trans (congrArg (·.status) ht).symm,
    BitVec.eq_of_toNat_eq (hspos'.trans hspos.symm), fun k hk => ?_⟩
  have hlt : k < s.units := hk.trans_le h.payload_le
  have hbit : getUnit u.grid k = getUnit t.grid k := by
    rcases Nat.lt_or_ge k 32 with h32 | h32
    · exact (hlength' k h32).trans (hlength k h32).symm
    · obtain ⟨j, i, hj, hi, rfl⟩ : ∃ j i, j < s.plen.toNat ∧ i < 8 ∧ k = 32 + 8 * j + i :=
        ⟨(k - 32) / 8, (k - 32) % 8, by omega, by omega, by omega⟩
      exact (hpayload' j i hj hi).trans (hpayload j i hj hi).symm
  rw [hbyte k hlt, hbyte' k hlt, hbit]
  rfl

/-! ### SWRITE as a run of SPUT commands -/

/-- What a run of SPUT commands changes: GRID, OPA, SPOS and STATUS. -/
def State.scanned (s : State) (g : Memory) (o : Word) (k : Nat) : State :=
  { s with grid := g, opa := o, spos := BitVec.ofNat 32 k, status := Status.good true }

/-- SPUT of a bit at a position below the end puts it into the unit there. -/
theorem sputBit_scanned {s : State} {d : PixelDepth} (hp : s.params.legal = true) (hf : s.FramedAs d)
    (hd : 16 ≤ d.bits) (g : Memory) (o : Word) {k : Nat} (hk : k < s.units) (b : Bool) :
    sputBit b (s.scanned g o k)
      = .next (s.scanned (putUnit g k b) ((BitVec.ofBool b).setWidth 32) (k + 1)) := by
  have hspos : (BitVec.ofNat 32 k).toNat = k := toNat_ofNat_of_lt (hk.trans (hf.units_lt hp))
  have hbit : ((BitVec.ofBool b).setWidth 32 : Word).getLsbD 0 = b := by cases b <;> rfl
  have hf' : (s.scanned g ((BitVec.ofBool b).setWidth 32) k).FramedAs d :=
    hf.congr rfl rfl rfl rfl rfl rfl rfl rfl rfl rfl (hspos.trans_le hk.le)
  refine (execSput_eq hf' hd (hspos.trans_lt hk)).trans ?_
  simp only [State.scanned, hspos, hbit]

/-- A run of SPUT commands puts its bits into consecutive units. -/
theorem execAll_sputBits {s : State} {d : PixelDepth} (hp : s.params.legal = true) (hf : s.FramedAs d)
    (hd : 16 ≤ d.bits) (bits : List Bool) : ∀ (g : Memory) (o : Word) (k : Nat),
    k + bits.length ≤ s.units → ∃ o', execAll (bits.map sputBit) (s.scanned g o k)
      = .next (s.scanned (putUnits g k bits) o' (k + bits.length)) := by
  induction bits with
  | nil => exact fun g o k _ => ⟨o, rfl⟩
  | cons b bits ih =>
    intro g o k hle
    rw [List.length_cons] at hle ⊢
    obtain ⟨o', hrun⟩ := ih (putUnit g k b) ((BitVec.ofBool b).setWidth 32) (k + 1) (by omega)
    refine ⟨o', ?_⟩
    rw [List.map_cons, execAll, sputBit_scanned hp hf hd g o (by omega) b]
    rw [Nat.add_right_comm] at hrun
    exact hrun

/-- Settles O35: SRWD starts the scan, and the bits SWRITE writes fill every unit. -/
theorem swriteEqualsSputs : Obligations.SwriteEqualsSputs := by
  intro s d h
  have hlen := h.bits_length
  obtain ⟨o, hrun⟩ := execAll_sputBits h.params h.framed h.depth s.swriteBits s.grid s.opa 0 (by omega)
  rw [Nat.zero_add, hlen] at hrun
  refine ⟨_, s.scanned (putUnits s.grid 0 s.swriteBits) o s.units, s.swriteBits, execSwrite_eq h,
    hlen, fun i => s.swriteBits_length_part, fun j i => s.swriteBits_payload_part,
    fun n => s.swriteBits_filler_part, ?_, rfl, rfl⟩
  rw [execAll, srwdCompletes s h.framed.cfgok (h.framed.depth ▸ h.depth)]
  exact hrun

end Sys2Proof.Machine
end
